-- ==== Sys2Proof/Word.lean ====
section
/-! DEFINITION. The words the block works on: bytes, addresses, and the two opaque values it passes on unread. -/

namespace Sys2Proof

/-- A byte is 8 bits (R11). -/
abbrev Byte := BitVec 8

/-- A hardware address: 48 bits, the first wire octet most significant (R12). -/
abbrev HwAddr := BitVec 48

/-- A protocol address: 32 bits, the first wire octet most significant (R12). -/
abbrev ProtoAddr := BitVec 32

/-- A gateway handle (R28): opaque, passed on unchanged, never compared by the block.
The tag only tells two handles apart (DESIGN CHOICE, safe: log 11). -/
structure Handle where
  tag : Nat
  deriving DecidableEq, Repr, Inhabited

/-- A device name (R8, R26): opaque (DESIGN CHOICE, safe: log 11). -/
structure DevName where
  tag : Nat
  deriving DecidableEq, Repr, Inhabited

end Sys2Proof
end

