-- ==== Sys2Proof/Config.lean ====
section
/-! DEFINITION. What is fixed for the block: the sizes of R9, the protocol constants of R10 and R64, and the
parameters of R8. A parameter the spec leaves OPEN is a constant without a body (log 1). -/

namespace Sys2Proof

/-- Which engine runs (R8, R26): `P_MODE` 0 is respond, 1 is request. -/
inductive Mode where
  | respond
  | request
  deriving DecidableEq, Repr, Inhabited

/-- The eight parameters of R8. The same record holds the parameter inputs and, captured at reset release, the
configuration registers of R26 (with `P_RX_MAX` as it holds for the run: log 10). -/
structure Params where
  mode             : Mode
  devName          : DevName
  localIp          : ProtoAddr
  targetIp         : ProtoAddr
  rxMax            : Nat
  respOpcodeFilter : Bool
  respTpaFilter    : Bool
  reqMatch         : Bool
  deriving DecidableEq, Repr

namespace Config

/-- R9: the size of a frame in bytes. -/
def frameBytes : Nat := 42

/-- R9: the size of the Ethernet header in bytes. -/
def etherBytes : Nat := 14

/-- R10, R64 `ETH_P_ARP` (PRESUMED by the spec itself, from general knowledge: log 19). -/
abbrev ethPArp : BitVec 16 := 0x0806

/-- R10, R64 `ARP_HRD_ETHER` (PRESUMED by the spec itself: log 19). -/
abbrev arpHrdEther : BitVec 16 := 0x0001

/-- R10, R64 `ARP_PRO_IP` (PRESUMED by the spec itself: log 19). -/
abbrev arpProIp : BitVec 16 := 0x0800

/-- R64 `HLEN_ETHER`. -/
abbrev hlenEther : BitVec 8 := 6

/-- R64 `PLEN_IPV4`. -/
abbrev plenIpv4 : BitVec 8 := 4

/-- R64 `ARP_OP_REQUEST`. -/
abbrev arpOpRequest : BitVec 16 := 1

/-- R64 `ARP_OP_REPLY`. -/
abbrev arpOpReply : BitVec 16 := 2

/-- R64 `BCAST`. -/
abbrev bcast : HwAddr := 0xFFFFFFFFFFFF

/-- `P_MODE`, OPEN (R8, D4). -/
opaque pMode : Mode

/-- `P_DEV_NAME`, OPEN (R8, D4). -/
opaque pDevName : DevName

/-- `P_LOCAL_IP`, OPEN (R8, D4). -/
opaque pLocalIp : ProtoAddr

/-- `P_TARGET_IP`, OPEN (R8, D4). -/
opaque pTargetIp : ProtoAddr

/-- `P_RX_MAX` is OPEN but at least 42 (R8, R167, D21): this is what it has above 42. -/
opaque pRxMaxAbove42 : Nat

/-- A free value (R24, U12: "any value"): what the `n`-th read of `RESULT` sees while `RESULT_VALID = 0` (log 23). -/
opaque unreadableResult : Nat → BitVec 336

/-- The parameters of this block: the open ones uninterpreted, the three filters at their default 0 (R8). -/
def params : Params :=
  { mode := pMode, devName := pDevName, localIp := pLocalIp, targetIp := pTargetIp,
    rxMax := pRxMaxAbove42 + 42,
    respOpcodeFilter := false, respTpaFilter := false, reqMatch := false }

end Config

end Sys2Proof
end

