-- ==== Sys2Proof/Syntax.lean ====
section
/-! DEFINITION. The instructions: one constructor per row of spec/opcode_table.json, and the records they carry. -/

namespace Sys2Proof

/-- A Frame record (R21): twelve fields, in wire order. Every combination of values is a valid record. -/
structure Frame where
  ethDst    : HwAddr
  ethSrc    : HwAddr
  ethertype : BitVec 16
  htype     : BitVec 16
  ptype     : BitVec 16
  hlen      : BitVec 8
  plen      : BitVec 8
  oper      : BitVec 16
  sha       : HwAddr
  spa       : ProtoAddr
  tha       : HwAddr
  tpa       : ProtoAddr
  deriving DecidableEq, Repr

/-- The phases `PHASE` can name (R29). -/
inductive Phase where
  | reset | attach | query | respListen | respSend | reqSend | reqWait | detach | done | fatal
  deriving DecidableEq, Repr

/-- The fatal errors (R141). -/
inductive FatalCode where
  | attachFail | queryFail | sendFail | recvFail
  deriving DecidableEq, Repr

/-- The reasons of a discard (R144). -/
inductive DiscardReason where
  | truncated | notArp | opcodeFiltered | targetFiltered | unmatched
  deriving DecidableEq, Repr

/-- The kinds of diagnostic record (R71). -/
inductive DiagKind where
  | respRx | respTx | reqTx | reqRx | error
  deriving DecidableEq, Repr

/-- What a diagnostic record carries (R71): a Frame record, or `ERR_CODE`. -/
inductive DiagPayload where
  | frame (f : Frame)
  | errCode (c : BitVec 3)
  deriving DecidableEq, Repr

/-- A diagnostic record `(kind, label, payload)` (R71). -/
structure DiagRecord where
  kind    : DiagKind
  label   : BitVec 32
  payload : DiagPayload
  deriving DecidableEq, Repr

/-- The rows of the opcode table. A frame class carries the received sequence: the decoded fields of R63 with the
trailing bytes of R83, or the raw bytes where the sequence is discarded undecoded (log 17). -/
inductive Instr where
  -- frame classes (R66)
  | truncated (bytes : List Byte)
  | arpRequest (f : Frame) (trail : List Byte)
  | arpReply (f : Frame) (trail : List Byte)
  | arpOther (f : Frame) (trail : List Byte)
  | notArp (bytes : List Byte)
  -- gateway commands (R69)
  | gwAttach
  | gwQueryMac
  | gwSend
  | gwReceive
  | gwDetach
  -- phases (R72)
  | phaseAttach
  | phaseQuery
  | phaseRespListen
  | phaseRespSend
  | phaseReqSend
  | phaseReqWait
  | phaseDetach
  | phaseReset
  | phaseDone
  | phaseFatal
  -- internal operations
  | classify
  | decode
  | encode
  | diag (r : DiagRecord)
  | respFilter (f : Frame)
  | buildReply
  | countExchange
  | buildRequest
  | reqAccept (f : Frame)
  | fatal (c : FatalCode)
  | discard (r : DiscardReason)
  | resetRelease
  -- diagnostic records (R71)
  | diagRespRx
  | diagRespTx
  | diagReqTx
  | diagReqRx
  | diagError
  deriving DecidableEq, Repr

end Sys2Proof
end

