-- ==== Sys2Proof/Machine/Bytes.lean ====
section
/-! DEFINITION. Byte order: the one place where field values and wire bytes meet (R43, R44, R65). -/

namespace Sys2Proof.Machine

/-- The big-endian value of a byte sequence (R12): the first byte is the most significant. -/
def beNat : List Byte → Nat
  | [] => 0
  | b :: bs => b.toNat * 256 ^ bs.length + beNat bs

/-- The `n` bytes of the `8n`-bit value `v`, most significant first (R46). -/
def beBytes : Nat → Nat → List Byte
  | 0, _ => []
  | n + 1, v => BitVec.ofNat 8 (v / 256 ^ n) :: beBytes n v

/-- The big-endian value of the `n` bytes at offset `off` of a byte sequence (R63). -/
def fieldAt (bs : List Byte) (off n : Nat) : Nat := beNat ((bs.drop off).take n)

/-- The Frame record that a sequence's first 42 bytes hold, by the layout of R63. -/
def frameOfBytes (bs : List Byte) : Frame :=
  { ethDst    := BitVec.ofNat 48 (fieldAt bs 0 6)
    ethSrc    := BitVec.ofNat 48 (fieldAt bs 6 6)
    ethertype := BitVec.ofNat 16 (fieldAt bs 12 2)
    htype     := BitVec.ofNat 16 (fieldAt bs 14 2)
    ptype     := BitVec.ofNat 16 (fieldAt bs 16 2)
    hlen      := BitVec.ofNat 8 (fieldAt bs 18 1)
    plen      := BitVec.ofNat 8 (fieldAt bs 19 1)
    oper      := BitVec.ofNat 16 (fieldAt bs 20 2)
    sha       := BitVec.ofNat 48 (fieldAt bs 22 6)
    spa       := BitVec.ofNat 32 (fieldAt bs 28 4)
    tha       := BitVec.ofNat 48 (fieldAt bs 32 6)
    tpa       := BitVec.ofNat 32 (fieldAt bs 38 4) }

/-- The 42-byte wire image of a Frame record, by the layout of R63. -/
def bytesOfFrame (f : Frame) : List Byte :=
  beBytes 6 f.ethDst.toNat ++ beBytes 6 f.ethSrc.toNat ++ beBytes 2 f.ethertype.toNat ++
  beBytes 2 f.htype.toNat ++ beBytes 2 f.ptype.toNat ++ beBytes 1 f.hlen.toNat ++ beBytes 1 f.plen.toNat ++
  beBytes 2 f.oper.toNat ++ beBytes 6 f.sha.toNat ++ beBytes 4 f.spa.toNat ++ beBytes 6 f.tha.toNat ++
  beBytes 4 f.tpa.toNat

/-- Whether bytes 12 and 13 hold the ARP ethertype (`ET = 0x0806` of R66). -/
def hasArpEthertype (bs : List Byte) : Bool := fieldAt bs 12 2 == Config.ethPArp.toNat

end Sys2Proof.Machine
end

