-- ==== Sys2Proof/WellFormed.lean ====
section
/-! DEFINITION. What makes an instruction well formed: a frame class holds a sequence of that class (R66), and a
diagnostic record has the label and payload R71 gives its kind. -/

namespace Sys2Proof

open Sys2Proof.Machine

/-- R141: `ERR_CODE` of a raised error is 1 to 4. -/
def legalErrCode (c : BitVec 3) : Bool := c != 0 && c.toNat ≤ 4

/-- R71: the label and the payload that a record of each kind has. -/
def DiagRecord.wellFormed (r : DiagRecord) : Bool :=
  match r.kind, r.payload with
  | .respRx, .frame _ => true
  | .respTx, .frame _ => true
  | .reqTx, .frame _ => r.label == 0
  | .reqRx, .frame _ => r.label == 0
  | .error, .errCode c => r.label == 0 && legalErrCode c
  | _, _ => false

/-- An instruction is well formed (R66, R71). The rows with no operand always are, and every Frame record is
valid (R21). -/
def Instr.wellFormed : Instr → Bool
  | .truncated bs => bs.length < 14 || (hasArpEthertype bs && bs.length < 42)
  | .notArp bs => 14 ≤ bs.length && !hasArpEthertype bs
  | .arpRequest f _ => f.ethertype == Config.ethPArp && f.oper == Config.arpOpRequest
  | .arpReply f _ => f.ethertype == Config.ethPArp && f.oper == Config.arpOpReply
  | .arpOther f _ =>
      f.ethertype == Config.ethPArp && f.oper != Config.arpOpRequest && f.oper != Config.arpOpReply
  | .diag r => r.wellFormed
  | .gwAttach | .gwQueryMac | .gwSend | .gwReceive | .gwDetach
  | .phaseAttach | .phaseQuery | .phaseRespListen | .phaseRespSend | .phaseReqSend | .phaseReqWait
  | .phaseDetach | .phaseReset | .phaseDone | .phaseFatal
  | .classify | .decode | .encode | .respFilter _ | .buildReply | .countExchange | .buildRequest
  | .reqAccept _ | .fatal _ | .discard _ | .resetRelease
  | .diagRespRx | .diagRespTx | .diagReqTx | .diagReqRx | .diagError => true

end Sys2Proof
end

