-- ==== Sys2Proof/Decode.lean ====
section
/-! DEFINITION. Decoding and encoding. The table has four spaces of encodings: the received frame (R63, R66), the 4-bit
gateway command (R69), the 4-bit phase (R29, R72) and the 3-bit diagnostic kind (R71). Its internal operations have no
encoding: a phase rule invokes them. -/

namespace Sys2Proof

open Sys2Proof.Machine

/-- An encoded row: the word and the space it belongs to. -/
inductive Encoding where
  | frame (bytes : List Byte)
  | gatewayOp (op : BitVec 4)
  | phaseCode (code : BitVec 4)
  | diagKind (kind : BitVec 3)
  deriving DecidableEq, Repr

/-- Why a word is rejected. -/
inductive DecodeError where
  /-- R69: codes 0 and 6 to 15 are never issued. -/
  | unusedGatewayOp
  /-- R29: phase values 10 to 15 are never entered. -/
  | unenteredPhase
  /-- R71: kinds 0, 6 and 7 are never emitted. -/
  | unusedDiagKind
  deriving DecidableEq, Repr

/-- The encodings of `PHASE` (R29). -/
def phaseCode : Phase → BitVec 4
  | .reset => 0
  | .attach => 1
  | .query => 2
  | .respListen => 3
  | .respSend => 4
  | .reqSend => 5
  | .reqWait => 6
  | .detach => 7
  | .done => 8
  | .fatal => 9

/-- The phase a code names; 10 to 15 name none (R29). -/
def phaseOfCode (c : BitVec 4) : Option Phase :=
  match c.toNat with
  | 0 => some .reset
  | 1 => some .attach
  | 2 => some .query
  | 3 => some .respListen
  | 4 => some .respSend
  | 5 => some .reqSend
  | 6 => some .reqWait
  | 7 => some .detach
  | 8 => some .done
  | 9 => some .fatal
  | _ => none

/-- The values of `ERR_CODE` (R141). -/
def fatalCode : FatalCode → BitVec 3
  | .attachFail => 1
  | .queryFail => 2
  | .sendFail => 3
  | .recvFail => 4

/-- The values of the discard labels (R144). -/
def discardCode : DiscardReason → BitVec 3
  | .truncated => 1
  | .notArp => 2
  | .opcodeFiltered => 3
  | .targetFiltered => 4
  | .unmatched => 5

/-- The kind codes of the diagnostic records (R71). -/
def diagKindCode : DiagKind → BitVec 3
  | .respRx => 1
  | .respTx => 2
  | .reqTx => 3
  | .reqRx => 4
  | .error => 5

/-- The operation a phase performs (R72). -/
def phaseInstr : Phase → Instr
  | .reset => .phaseReset
  | .attach => .phaseAttach
  | .query => .phaseQuery
  | .respListen => .phaseRespListen
  | .respSend => .phaseRespSend
  | .reqSend => .phaseReqSend
  | .reqWait => .phaseReqWait
  | .detach => .phaseDetach
  | .done => .phaseDone
  | .fatal => .phaseFatal

/-- R66, in the test order of R80: the class of a received sequence, with its operands. -/
def decodeFrame (bs : List Byte) : Instr :=
  if bs.length < 14 then .truncated bs
  else if !hasArpEthertype bs then .notArp bs
  else if bs.length < 42 then .truncated bs
  else if (frameOfBytes bs).oper = Config.arpOpRequest then .arpRequest (frameOfBytes bs) (bs.drop 42)
  else if (frameOfBytes bs).oper = Config.arpOpReply then .arpReply (frameOfBytes bs) (bs.drop 42)
  else .arpOther (frameOfBytes bs) (bs.drop 42)

/-- R29, R72: the operation a phase code selects. -/
def decodePhase (c : BitVec 4) : Except DecodeError Instr :=
  match phaseOfCode c with
  | some p => .ok (phaseInstr p)
  | none => .error .unenteredPhase

/-- R69: the command a 4-bit op names. -/
def decodeGatewayOp (op : BitVec 4) : Except DecodeError Instr :=
  match op.toNat with
  | 1 => .ok .gwAttach
  | 2 => .ok .gwQueryMac
  | 3 => .ok .gwSend
  | 4 => .ok .gwReceive
  | 5 => .ok .gwDetach
  | _ => .error .unusedGatewayOp

/-- R71: the record a 3-bit kind names. -/
def decodeDiagKind (k : BitVec 3) : Except DecodeError Instr :=
  match k.toNat with
  | 1 => .ok .diagRespRx
  | 2 => .ok .diagRespTx
  | 3 => .ok .diagReqTx
  | 4 => .ok .diagReqRx
  | 5 => .ok .diagError
  | _ => .error .unusedDiagKind

/-- The decoder: total on every word of every space. -/
def decode : Encoding → Except DecodeError Instr
  | .frame bs => .ok (decodeFrame bs)
  | .gatewayOp op => decodeGatewayOp op
  | .phaseCode c => decodePhase c
  | .diagKind k => decodeDiagKind k

/-- The bytes of a frame-class instruction (R63); none for another row. -/
def frameBytesOf : Instr → Option (List Byte)
  | .truncated bs => some bs
  | .notArp bs => some bs
  | .arpRequest f t => some (bytesOfFrame f ++ t)
  | .arpReply f t => some (bytesOfFrame f ++ t)
  | .arpOther f t => some (bytesOfFrame f ++ t)
  | .gwAttach | .gwQueryMac | .gwSend | .gwReceive | .gwDetach
  | .phaseAttach | .phaseQuery | .phaseRespListen | .phaseRespSend | .phaseReqSend | .phaseReqWait
  | .phaseDetach | .phaseReset | .phaseDone | .phaseFatal
  | .classify | .decode | .encode | .diag _ | .respFilter _ | .buildReply | .countExchange | .buildRequest
  | .reqAccept _ | .fatal _ | .discard _ | .resetRelease
  | .diagRespRx | .diagRespTx | .diagReqTx | .diagReqRx | .diagError => none

/-- The encoder, from the same tables: R63 for frames, R69 for commands, R29 for phases, R71 for records. The internal
operations of the table have no encoding. -/
def encode : Instr → Option Encoding
  | .truncated bs => some (.frame bs)
  | .notArp bs => some (.frame bs)
  | .arpRequest f t => some (.frame (bytesOfFrame f ++ t))
  | .arpReply f t => some (.frame (bytesOfFrame f ++ t))
  | .arpOther f t => some (.frame (bytesOfFrame f ++ t))
  | .gwAttach => some (.gatewayOp 1)
  | .gwQueryMac => some (.gatewayOp 2)
  | .gwSend => some (.gatewayOp 3)
  | .gwReceive => some (.gatewayOp 4)
  | .gwDetach => some (.gatewayOp 5)
  | .phaseReset => some (.phaseCode 0)
  | .phaseAttach => some (.phaseCode 1)
  | .phaseQuery => some (.phaseCode 2)
  | .phaseRespListen => some (.phaseCode 3)
  | .phaseRespSend => some (.phaseCode 4)
  | .phaseReqSend => some (.phaseCode 5)
  | .phaseReqWait => some (.phaseCode 6)
  | .phaseDetach => some (.phaseCode 7)
  | .phaseDone => some (.phaseCode 8)
  | .phaseFatal => some (.phaseCode 9)
  | .diagRespRx => some (.diagKind 1)
  | .diagRespTx => some (.diagKind 2)
  | .diagReqTx => some (.diagKind 3)
  | .diagReqRx => some (.diagKind 4)
  | .diagError => some (.diagKind 5)
  | .classify | .decode | .encode | .diag _ | .respFilter _ | .buildReply | .countExchange | .buildRequest
  | .reqAccept _ | .fatal _ | .discard _ | .resetRelease => none

/-- The 42 bytes whose class key `K = ET ++ OP` (R66) is the low 32 bits of `w`, every other byte 0. -/
def keyFrame (w : Nat) : List Byte :=
  List.replicate 12 0 ++ beBytes 2 (w / 65536 % 65536) ++ List.replicate 6 0 ++ beBytes 2 (w % 65536) ++
    List.replicate 20 0

/-- The decoder on a word as spec/opcode_table.json numbers it (log 15): 32 bits are the class key of R66 in a 42-byte
frame of zeros, up to 8 bits are the phase code of R72. -/
def decodeTableWord (nbits w : Nat) : Option Instr :=
  if nbits = 32 then some (decodeFrame (keyFrame w))
  else if nbits ≤ 8 then
    if w < 16 then (decodePhase (BitVec.ofNat 4 w)).toOption else none
  else none

end Sys2Proof
end

