-- ==== Sys2Proof/Machine/State.lean ====
section
/-! DEFINITION. The state of the machine as plain data, its faults and refusals, and the state right after reset. -/

namespace Sys2Proof.Machine

/-- A byte space (R40): address and byte pairs, addresses strictly rising, no entry equal to `unlistedByte`. -/
abbrev Memory := List Host.Cell

/-- What a byte that nothing has written reads as (DESIGN CHOICE, unsafe: log 3). No rule of the spec reads one. -/
def unlistedByte : Byte := 0

/-- A gateway command with its arguments (R69). -/
inductive Command where
  | attach (name : DevName)
  | queryMac (handle : Handle)
  | send (handle : Handle) (bytes : List Byte)
  | receive (handle : Handle) (maxSize : Nat)
  | detach (handle : Handle)
  deriving DecidableEq, Repr

/-- The value of an OK response (R70): a handle for ATTACH, 6 bytes for QUERY_MAC (as their 48-bit value: R12, log 26),
a byte sequence for RECEIVE, empty for SEND and DETACH. -/
inductive Value where
  | handle (h : Handle)
  | mac (a : HwAddr)
  | bytes (bs : List Byte)
  | empty
  deriving DecidableEq, Repr

/-- The environment's response to a command (R70). -/
inductive Response where
  | ok (v : Value)
  | fail
  deriving DecidableEq, Repr

/-- One input of the environment (log 5): an answer to the pending command (R110), one step without an input, an edge
of the reset input (R160, R161), or a change of the parameter inputs (R164). -/
inductive EnvEvent where
  | answer (r : Response)
  | quiet
  | assertReset
  | releaseReset
  | setParams (p : Params)
  deriving DecidableEq, Repr

/-- One output of the block (R39). -/
inductive Output where
  | command (c : Command)
  | diag (r : DiagRecord)
  deriving DecidableEq, Repr

/-- The result of CLASSIFY (R80). -/
inductive RxClass where
  | truncated | notArp | arp
  deriving DecidableEq, Repr

/-- The frame classes of R66: the result of CLASSIFY with the class ARP split by its opcode. -/
inductive FrameClass where
  | truncated | notArp | arpRequest | arpReply | arpOther
  deriving DecidableEq, Repr

/-- The result of `resp_filter` (R116). -/
inductive RespVerdict where
  | accept | opcodeFiltered | targetFiltered
  deriving DecidableEq, Repr

/-- The result of `req_accept` (R133). -/
inductive ReqVerdict where
  | matched | unmatched
  deriving DecidableEq, Repr

/-- The combinational values of R35, as the rows that only compute one leave them (the model's own: log 12). -/
structure Wires where
  rxClass     : Option RxClass
  decoded     : Option Frame
  respVerdict : Option RespVerdict
  reqVerdict  : Option ReqVerdict
  deriving DecidableEq, Repr

/-- No combinational value stands: R35, none is kept. -/
def Wires.undriven : Wires := { rxClass := none, decoded := none, respVerdict := none, reqVerdict := none }

/-- The state. -/
structure State where
  /-- `CFG_*` (R26), and `P_RX_MAX` as it holds for the run (log 10). -/
  cfg : Params
  /-- `LOCAL_MAC` (R27). -/
  localMac : HwAddr
  /-- `GW_HANDLE` (R28). -/
  gwHandle : Handle
  /-- `PHASE` (R29): 4 bits, of which 10 to 15 name no phase. -/
  phase : BitVec 4
  /-- `ERR_CODE` (R30). -/
  errCode : BitVec 3
  /-- `EXIT_STATUS` (R31). -/
  exitStatus : BitVec 8
  /-- `EXCH_CNT` (R32). -/
  exchCnt : BitVec 32
  /-- `REQ` (R22). -/
  req : Frame
  /-- `TX` (R23). -/
  tx : Frame
  /-- `RESULT` (R24). -/
  result : Frame
  /-- `RESULT_VALID` (R24). -/
  resultValid : Bool
  /-- `RX_BUF` (R33, R41). -/
  rxBuf : Memory
  /-- `RX_LEN` (R33). -/
  rxLen : Nat
  /-- `TX_BUF` (R34, R42). -/
  txBuf : Memory
  /-- `PENDING` (R36). -/
  pending : Option Command
  /-- The parameter inputs (R8, R164). -/
  pins : Params
  /-- The environment's coming inputs, first one first (the model's own: log 5). -/
  env : List EnvEvent
  /-- The outputs so far, oldest first (R39, R86). -/
  trace : List Output
  /-- The combinational values left by a row run alone (the model's own: log 12). -/
  wires : Wires
  /-- The label of the last discard (R144, the model's own bookkeeping: log 13). -/
  discardLabel : Option DiscardReason
  /-- How many reads of `RESULT` found it unreadable: the next free value's number (the model's own: log 23). -/
  unreadableReads : Nat
  deriving DecidableEq, Repr

/-- Why the machine stops. All are safe: the model stops where the spec says that a model faults, or on a term that no
step of the machine reaches. -/
inductive Fault where
  /-- R29, U15: `PHASE` is 10 to 15, the block is stuck. Raised by the step. -/
  | stuckPhase
  /-- R45, U1: a `MemRead` past `RX_LEN`. Raised by `memRead`. -/
  | readBeyondLength
  /-- R46: a `MemWrite` past byte 41 (DESIGN CHOICE, safe: log 27). Raised by `memWrite`. -/
  | writeBeyondBuffer
  /-- R82: a DECODE of a sequence not classified ARP. Raised by `decodeRx`. -/
  | decodeNotArp
  /-- U15, R70: a response that is none of the command's. Raised by the gateway operations. -/
  | badResponse
  /-- R101: a command while another is pending. Raised by the gateway operations. -/
  | commandWhilePending
  /-- U15, R30: `ERR_CODE` is 5 to 7 (log 28). Raised by DIAG_ERROR. -/
  | illegalErrCode
  /-- R66: a frame-class term whose bytes are of another class (an ill-formed term). Raised by the frame classes. -/
  | frameClassMismatch
  deriving DecidableEq, Repr

/-- Why an instruction has no meaning here. All are safe: the spec says that a model refuses. -/
inductive Refusal where
  /-- The instruction has no meaning yet. Raised by no arm of this model. -/
  | notModelled (mnemonic : String)
  /-- R108, R110: an answer longer than `max_size` breaks the contract. Raised by GW_RECEIVE and the frame classes. -/
  | answerTooLong
  /-- R167: a configuration with `P_RX_MAX` below 42. Raised by RESET_RELEASE. -/
  | rxMaxBelow42
  /-- R110: a frame that no RECEIVE asked for. Raised by the frame classes. -/
  | unsolicitedFrame
  deriving DecidableEq, Repr

/-- The result of one instruction or one step. -/
abbrev Outcome := Host.Outcome State Fault Refusal

/-- The Frame record with every field 0. -/
def zeroFrame : Frame :=
  { ethDst := 0, ethSrc := 0, ethertype := 0, htype := 0, ptype := 0, hlen := 0, plen := 0, oper := 0,
    sha := 0, spa := 0, tha := 0, tpa := 0 }

/-- The machine right after reset is released with the parameter inputs at `p` (R38, R161). The registers R38 leaves
unspecified are 0 (DESIGN CHOICE, unsafe: log 2). -/
def State.resetWith (p : Params) : State :=
  { cfg := p, localMac := 0, gwHandle := { tag := 0 }, phase := phaseCode .attach,
    errCode := 0, exitStatus := 0, exchCnt := 0,
    req := zeroFrame, tx := zeroFrame, result := zeroFrame, resultValid := false,
    rxBuf := [], rxLen := 0, txBuf := [], pending := none,
    pins := p, env := [], trace := [], wires := Wires.undriven, discardLabel := none, unreadableReads := 0 }

/-- The machine right after reset (R38, R161), with the parameters of Config. -/
def State.reset : State := State.resetWith Config.params

end Sys2Proof.Machine
end

