-- ==== Sys2Proof/Machine/Memory.lean ====
section
/-! DEFINITION. The two byte spaces (R40): reading and writing bytes in the canonical form. -/

namespace Sys2Proof.Machine

/-- One byte of a space. -/
def byteAt : Memory → Nat → Byte
  | [], _ => unlistedByte
  | (k, v) :: m, a => if a = k then v else byteAt m a

/-- List a cell, unless it holds what an unlisted byte reads as. -/
def consCell (a : Nat) (b : Byte) (m : Memory) : Memory := if b = unlistedByte then m else (a, b) :: m

/-- Write one byte; the canonical form is kept. -/
def setByte : Memory → Nat → Byte → Memory
  | [], a, b => consCell a b []
  | (k, v) :: m, a, b =>
    if a < k then consCell a b ((k, v) :: m)
    else if a = k then consCell a b m
    else (k, v) :: setByte m a b

/-- Write a byte sequence from address `a` on. -/
def setBytes : Memory → Nat → List Byte → Memory
  | m, _, [] => m
  | m, a, b :: bs => setBytes (setByte m a b) (a + 1) bs

/-- The `n` bytes from address `a` on, in rising order. -/
def bytesFrom (m : Memory) (a n : Nat) : List Byte := (List.range n).map (fun k => byteAt m (a + k))

/-- The canonical form: addresses strictly rising, no entry equal to `unlistedByte`. -/
def Memory.wf : Memory → Bool
  | [] => true
  | (k, v) :: m => v != unlistedByte && m.all (fun c => k < c.1) && Memory.wf m

end Sys2Proof.Machine
end

