-- ==== Sys2Proof/Machine/Operands.lean ====
section
/-! DEFINITION. Operand access: `MemRead` and `MemWrite` (R13, R45, R46), and the wire image in `TX_BUF`. -/

namespace Sys2Proof.Machine

/-- `MemRead(addr, n)` (R45): the big-endian value of `n` bytes of `RX_BUF`; past `RX_LEN` a model must fault. -/
def memRead (addr n : Nat) (s : State) : Except Fault Nat :=
  if addr + n ≤ s.rxLen then .ok (beNat (bytesFrom s.rxBuf addr n)) else .error .readBeyondLength

/-- `MemWrite(addr, n, v)` (R46): `n` bytes of `TX_BUF`, most significant first; past byte 41 the model faults (log 27). -/
def memWrite (addr n v : Nat) (s : State) : Except Fault State :=
  if addr + n ≤ 42 then .ok { s with txBuf := setBytes s.txBuf addr (beBytes n v) }
  else .error .writeBeyondBuffer

/-- `TX_BUF[0..41]` (R42): what a SEND hands to the gateway. -/
def txImage (s : State) : List Byte := bytesFrom s.txBuf 0 42

end Sys2Proof.Machine
end

