-- ==== Sys2Proof/Machine/Flags.lean ====
section
/-! DEFINITION. The block stores no flags (R35). What stands in their place are combinational values: the class of the
received sequence (R66, R80), the responder's filters (R116) and the requester's match (R133). -/

namespace Sys2Proof.Machine

/-- CLASSIFY (R80). -/
def classifyRx (s : State) : Except Fault RxClass :=
  if s.rxLen < 14 then .ok .truncated
  else
    match memRead 12 2 s with
    | .error f => .error f
    | .ok et =>
      if et ≠ Config.ethPArp.toNat then .ok .notArp
      else if s.rxLen < 42 then .ok .truncated
      else .ok .arp

/-- The frame class of R66: CLASSIFY, then the opcode at bytes 20 and 21. -/
def frameClassRx (s : State) : Except Fault FrameClass :=
  match classifyRx s with
  | .error f => .error f
  | .ok .truncated => .ok .truncated
  | .ok .notArp => .ok .notArp
  | .ok .arp =>
    match memRead 20 2 s with
    | .error f => .error f
    | .ok op =>
      if op = Config.arpOpRequest.toNat then .ok .arpRequest
      else if op = Config.arpOpReply.toNat then .ok .arpReply
      else .ok .arpOther

/-- `resp_filter(F)` (R116): the opcode test comes first. -/
def respFilterOf (cfg : Params) (f : Frame) : RespVerdict :=
  if cfg.respOpcodeFilter = true ∧ f.oper ≠ Config.arpOpRequest then .opcodeFiltered
  else if cfg.respTpaFilter = true ∧ f.tpa ≠ cfg.localIp then .targetFiltered
  else .accept

/-- `req_accept(F)` (R133). -/
def reqAcceptOf (cfg : Params) (f : Frame) : ReqVerdict :=
  if cfg.reqMatch = false then .matched
  else if f.oper = Config.arpOpReply ∧ f.spa = cfg.targetIp then .matched
  else .unmatched

end Sys2Proof.Machine
end

