-- ==== Sys2Proof/Machine/Ops.lean ====
section
/-! DEFINITION. The named operations on State that the meanings share: phase transfer, outputs, fatal entry, discard,
the gateway's command and answer, and the delivery of a received frame. -/

namespace Sys2Proof.Machine

/-- `phase <- P` (R13, R29). -/
def State.setPhase (s : State) (p : Phase) : State := { s with phase := phaseCode p }

/-- Append one output to the trace (R39, R86). -/
def State.emit (s : State) (o : Output) : State := { s with trace := s.trace ++ [o] }

/-- `DIAG(kind, label, payload)` (R86): the record is appended, and no register changes. -/
def State.emitDiag (s : State) (k : DiagKind) (label : BitVec 32) (p : DiagPayload) : State :=
  s.emit (.diag { kind := k, label := label, payload := p })

/-- `raise Fatal(code)` (R140): the block's one exception entry. It has no handler, and there is no return from it
(R147): only reset leaves FATAL. -/
def State.raiseFatal (s : State) (c : FatalCode) : State :=
  State.setPhase
    (State.emitDiag { s with errCode := fatalCode c, exitStatus := 1 } .error 0 (.errCode (fatalCode c))) .fatal

/-- `discard(reason)` (R143): no register changes and nothing is emitted; the label is the model's own (R144). -/
def State.discard (s : State) (r : DiscardReason) : State := { s with discardLabel := some r }

/-- R69: the op code of a command. -/
def commandOp : Command → BitVec 4
  | .attach _ => 1
  | .queryMac _ => 2
  | .send _ _ => 3
  | .receive _ _ => 4
  | .detach _ => 5

/-- Issue a command (R101): it is put out once and is pending until it is answered (R36). -/
def State.issue (s : State) (c : Command) : State := State.emit { s with pending := some c } (.command c)

/-- How a command stands after a step: answered, not answered yet, or not to be issued because another is pending. -/
inductive Reply where
  | answered (r : Response) (s : State)
  | suspended (s : State)
  | busy

/-- Take the answer to the pending command, if the environment gives one in this step (R110). -/
def awaitAnswer (s : State) : Reply :=
  match s.env with
  | .answer r :: rest => .answered r { s with env := rest, pending := none }
  | .quiet :: rest => .suspended { s with env := rest }
  | _ => .suspended s

/-- `GW(cmd, args)` (R13, R101): issue the command, unless it is the pending one, and wait for its answer. -/
def gwCall (c : Command) (s : State) : Reply :=
  match s.pending with
  | none => awaitAnswer (s.issue c)
  | some c' => if commandOp c' = commandOp c then awaitAnswer s else .busy

/-- `RX_LEN` and `RX_BUF` take a received sequence (R108). Bytes at and above `RX_LEN` stay (log 4). -/
def State.deliver (s : State) (bs : List Byte) : State :=
  { s with rxLen := bs.length, rxBuf := setBytes s.rxBuf 0 bs }

/-- An input that comes while the block takes none passes without effect (R160 in RESET; log 8 in DONE and FATAL). -/
def State.passInput (s : State) : State :=
  match s.env with
  | .answer _ :: rest => { s with env := rest }
  | .quiet :: rest => { s with env := rest }
  | _ => s

/-- How a part of a rule ends: the rule goes on, the step ends here (a fatal error, a suspension), or the model stops. -/
inductive Flow where
  | go (s : State)
  | ended (s : State)
  | fault (f : Fault)
  | refused (r : Refusal)

/-- The rest of a rule after one of its parts. -/
def Flow.andThen (w : Flow) (k : State → Outcome) : Outcome :=
  match w with
  | .go s => k s
  | .ended s => .next s
  | .fault f => .fault f
  | .refused r => .refused r

/-- A part of a rule that is run alone. -/
def Flow.finish (w : Flow) : Outcome := w.andThen .next

/-- The rest of a rule after an operation that may fault. -/
def orFault {α : Type} (e : Except Fault α) (k : α → Outcome) : Outcome :=
  match e with
  | .error f => .fault f
  | .ok a => k a

end Sys2Proof.Machine
end

