-- ==== Sys2Proof/Machine/Errors.lean ====
section
/-! DEFINITION. Fatal entry, discard, and the two terminal phases (60_exceptions.md). -/

namespace Sys2Proof.Machine

/-- FATAL (R140). -/
def execFatal (c : FatalCode) (s : State) : Outcome := .next (s.raiseFatal c)

/-- DISCARD (R143): `PHASE` and every register stay, and nothing is put out. -/
def execDiscard (r : DiscardReason) (s : State) : Outcome := .next (s.discard r)

/-- PHASE_DONE (R136): terminal; no command, no record, no register changes. -/
def execPhaseDone (s : State) : Outcome := .next s.passInput

/-- PHASE_FATAL (R140): terminal; no command, not even DETACH, no record, no register changes. -/
def execPhaseFatal (s : State) : Outcome := .next s.passInput

end Sys2Proof.Machine
end

