-- ==== Sys2Proof/Machine/Diagnostics.lean ====
section
/-! DEFINITION. The diagnostic records (R71, R86): each row appends one record to the trace and changes no register. -/

namespace Sys2Proof.Machine

/-- DIAG (R86): it cannot fail and cannot block. -/
def execDiag (r : DiagRecord) (s : State) : Outcome := .next (s.emit (.diag r))

/-- R71: the record of kind 1, labelled with `EXCH_CNT`. -/
def State.emitRespRx (s : State) : State := s.emitDiag .respRx s.exchCnt (.frame s.req)

/-- R71: the record of kind 2, labelled with `EXCH_CNT`. -/
def State.emitRespTx (s : State) : State := s.emitDiag .respTx s.exchCnt (.frame s.tx)

/-- R71: the record of kind 3, with label 0. -/
def State.emitReqTx (s : State) : State := s.emitDiag .reqTx 0 (.frame s.tx)

/-- R71: the record of kind 4, with label 0. -/
def State.emitReqRx (s : State) : State := s.emitDiag .reqRx 0 (.frame s.result)

/-- DIAG_RESP_RX (R120). -/
def execDiagRespRx (s : State) : Outcome := .next s.emitRespRx

/-- DIAG_RESP_TX (R120). -/
def execDiagRespTx (s : State) : Outcome := .next s.emitRespTx

/-- DIAG_REQ_TX (R131). -/
def execDiagReqTx (s : State) : Outcome := .next s.emitReqTx

/-- R24: the frame that a read of `RESULT` sees while `RESULT_VALID = 0`: any one, and never the register's (log 23). -/
def unreadableFrame (n : Nat) : Frame := frameOfBytes (beBytes 42 (Config.unreadableResult n).toNat)

/-- R24: the record of kind 4 while `RESULT` is unreadable: its payload is the next free value (log 23). -/
def State.emitUnreadableReqRx (s : State) : State :=
  State.emitDiag { s with unreadableReads := s.unreadableReads + 1 } .reqRx 0 (.frame (unreadableFrame s.unreadableReads))

/-- DIAG_REQ_RX (R135). A DIAG cannot fail (R86), so it emits its record while `RESULT` is unreadable (R24), too. -/
def execDiagReqRx (s : State) : Outcome :=
  .next (if s.resultValid = true then s.emitReqRx else s.emitUnreadableReqRx)

/-- DIAG_ERROR (R142): the payload is `ERR_CODE`; 5 to 7 are a fault if a model ever finds one (U15). -/
def execDiagError (s : State) : Outcome :=
  if s.errCode.toNat ≤ 4 then .next (s.emitDiag .error 0 (.errCode s.errCode)) else .fault .illegalErrCode

end Sys2Proof.Machine
end

