-- ==== Sys2Proof/Machine/Codec.lean ====
section
/-! DEFINITION. The Frame Codec (40_frame_codec.md): CLASSIFY, DECODE and ENCODE. -/

namespace Sys2Proof.Machine

/-- The twelve reads of DECODE (R82). -/
def readFrame (s : State) : Except Fault Frame := do
  let ethDst ← memRead 0 6 s
  let ethSrc ← memRead 6 6 s
  let ethertype ← memRead 12 2 s
  let htype ← memRead 14 2 s
  let ptype ← memRead 16 2 s
  let hlen ← memRead 18 1 s
  let plen ← memRead 19 1 s
  let oper ← memRead 20 2 s
  let sha ← memRead 22 6 s
  let spa ← memRead 28 4 s
  let tha ← memRead 32 6 s
  let tpa ← memRead 38 4 s
  return {
    ethDst := BitVec.ofNat 48 ethDst, ethSrc := BitVec.ofNat 48 ethSrc
    ethertype := BitVec.ofNat 16 ethertype, htype := BitVec.ofNat 16 htype, ptype := BitVec.ofNat 16 ptype
    hlen := BitVec.ofNat 8 hlen, plen := BitVec.ofNat 8 plen, oper := BitVec.ofNat 16 oper
    sha := BitVec.ofNat 48 sha, spa := BitVec.ofNat 32 spa
    tha := BitVec.ofNat 48 tha, tpa := BitVec.ofNat 32 tpa }

/-- DECODE (R82): its precondition is that the sequence is classified ARP, and a model must fault otherwise. -/
def decodeRx (s : State) : Except Fault Frame := do
  let c ← classifyRx s
  if c = .arp then readFrame s else .error .decodeNotArp

/-- ENCODE (R84): the twelve writes of a Frame record's wire image into `TX_BUF`. -/
def encodeFrameTx (f : Frame) (s : State) : Except Fault State := do
  let s ← memWrite 0 6 f.ethDst.toNat s
  let s ← memWrite 6 6 f.ethSrc.toNat s
  let s ← memWrite 12 2 f.ethertype.toNat s
  let s ← memWrite 14 2 f.htype.toNat s
  let s ← memWrite 16 2 f.ptype.toNat s
  let s ← memWrite 18 1 f.hlen.toNat s
  let s ← memWrite 19 1 f.plen.toNat s
  let s ← memWrite 20 2 f.oper.toNat s
  let s ← memWrite 22 6 f.sha.toNat s
  let s ← memWrite 28 4 f.spa.toNat s
  let s ← memWrite 32 6 f.tha.toNat s
  memWrite 38 4 f.tpa.toNat s

/-- CLASSIFY (R80): the class is a combinational value; no register is written. -/
def execClassify (s : State) : Outcome :=
  orFault (classifyRx s) fun c => .next { s with wires := { s.wires with rxClass := some c } }

/-- DECODE (R82): the record is a combinational value, which R117 or R134 latches. -/
def execDecode (s : State) : Outcome :=
  orFault (decodeRx s) fun f => .next { s with wires := { s.wires with decoded := some f } }

/-- ENCODE (R84): reads `TX`, writes `TX_BUF[0..41]`. -/
def execEncode (s : State) : Outcome := orFault (encodeFrameTx s.tx s) .next

end Sys2Proof.Machine
end

