-- ==== Sys2Proof/Machine/Gateway.lean ====
section
/-! DEFINITION. The Interface Gateway's commands (41_interface_gateway.md) and the phases ATTACH, QUERY and DETACH. -/

namespace Sys2Proof.Machine

/-- The ATTACH command and its answer (R104). -/
def attachGw (s : State) : Flow :=
  match gwCall (.attach s.cfg.devName) s with
  | .answered .fail s => .ended (s.raiseFatal .attachFail)
  | .answered (.ok (.handle h)) s => .go { s with gwHandle := h }
  | .answered (.ok _) _ => .fault .badResponse
  | .suspended s => .ended s
  | .busy => .fault .commandWhilePending

/-- The QUERY_MAC command and its answer (R105): the address is stored unchecked. -/
def queryMacGw (s : State) : Flow :=
  match gwCall (.queryMac s.gwHandle) s with
  | .answered .fail s => .ended (s.raiseFatal .queryFail)
  | .answered (.ok (.mac a)) s => .go { s with localMac := a }
  | .answered (.ok _) _ => .fault .badResponse
  | .suspended s => .ended s
  | .busy => .fault .commandWhilePending

/-- The SEND command for the image in `TX_BUF`, and its answer (R107). -/
def sendImage (s : State) : Flow :=
  match gwCall (.send s.gwHandle (txImage s)) s with
  | .answered .fail s => .ended (s.raiseFatal .sendFail)
  | .answered (.ok .empty) s => .go s
  | .answered (.ok _) _ => .fault .badResponse
  | .suspended s => .ended s
  | .busy => .fault .commandWhilePending

/-- `send_tx()` (R107): encode `TX`, then SEND. While the SEND is pending it is not encoded again (R101). -/
def sendTx (s : State) : Flow :=
  match s.pending with
  | some _ => sendImage s
  | none =>
    match encodeFrameTx s.tx s with
    | .error f => .fault f
    | .ok s => sendImage s

/-- `receive_rx()` (R108): an answer longer than `max_size` is refused, never truncated. -/
def receiveRx (s : State) : Flow :=
  match gwCall (.receive s.gwHandle s.cfg.rxMax) s with
  | .answered .fail s => .ended (s.raiseFatal .recvFail)
  | .answered (.ok (.bytes bs)) s =>
    if s.cfg.rxMax < bs.length then .refused .answerTooLong else .go (s.deliver bs)
  | .answered (.ok _) _ => .fault .badResponse
  | .suspended s => .ended s
  | .busy => .fault .commandWhilePending

/-- The DETACH command; its answer is ignored, OK or FAIL (R109, R110). -/
def detachGw (s : State) : Flow :=
  match gwCall (.detach s.gwHandle) s with
  | .answered _ s => .go s
  | .suspended s => .ended s
  | .busy => .fault .commandWhilePending

/-- `select_engine()` (R106). -/
def State.selectEngine (s : State) : State :=
  match s.cfg.mode with
  | .respond => s.setPhase .respListen
  | .request => s.setPhase .reqSend

/-- GW_ATTACH (R104): the command, its answer, and the latch of the handle. That the row run alone leaves `PHASE` on OK is the
model's choice (DESIGN CHOICE: log 29). -/
def execGwAttach (s : State) : Outcome := (attachGw s).finish

/-- GW_QUERY_MAC (R105): the command, its answer, and the store of the address. That the row run alone leaves `PHASE` on OK
is the model's choice (DESIGN CHOICE: log 29). -/
def execGwQueryMac (s : State) : Outcome := (queryMacGw s).finish

/-- GW_SEND (R107). -/
def execGwSend (s : State) : Outcome := (sendTx s).finish

/-- GW_RECEIVE (R108). -/
def execGwReceive (s : State) : Outcome := (receiveRx s).finish

/-- GW_DETACH (R109): the command and its answer. That the row run alone leaves `EXIT_STATUS` and `PHASE` is the model's
choice (DESIGN CHOICE: log 29). -/
def execGwDetach (s : State) : Outcome := (detachGw s).finish

/-- PHASE_ATTACH (R104). -/
def execPhaseAttach (s : State) : Outcome := (attachGw s).andThen fun s => .next (s.setPhase .query)

/-- PHASE_QUERY (R105, R106). -/
def execPhaseQuery (s : State) : Outcome := (queryMacGw s).andThen fun s => .next s.selectEngine

/-- PHASE_DETACH (R109). -/
def execPhaseDetach (s : State) : Outcome :=
  (detachGw s).andThen fun s => .next (State.setPhase { s with exitStatus := 0 } .done)

end Sys2Proof.Machine
end

