-- ==== Sys2Proof/Machine/Requester.lean ====
section
/-! DEFINITION. The Requester Engine (43_requester.md). -/

namespace Sys2Proof.Machine

/-- `build_request()` (R130). -/
def requestFor (localMac : HwAddr) (localIp targetIp : ProtoAddr) : Frame :=
  { ethDst    := Config.bcast
    ethSrc    := localMac
    ethertype := Config.ethPArp
    htype     := Config.arpHrdEther
    ptype     := Config.arpProIp
    hlen      := Config.hlenEther
    plen      := Config.plenIpv4
    oper      := Config.arpOpRequest
    sha       := localMac
    spa       := localIp
    tha       := Config.bcast
    tpa       := targetIp }

/-- R129: `TX` takes the request of R130. -/
def State.buildRequest (s : State) : State :=
  { s with tx := requestFor s.localMac s.cfg.localIp s.cfg.targetIp }

/-- R132 after a match: latch (R134), render (R135), and on to DETACH. -/
def State.acceptResult (s : State) (f : Frame) : State :=
  State.setPhase (State.emitReqRx { s with result := f, resultValid := true }) .detach

/-- R132 after its `receive_rx()`: classify, decode, and accept or discard. -/
def awaitReplyRx (s : State) : Outcome :=
  orFault (classifyRx s) fun
    | .truncated => .next (s.discard .truncated)
    | .notArp => .next (s.discard .notArp)
    | .arp =>
      orFault (decodeRx s) fun f =>
        match reqAcceptOf s.cfg f with
        | .unmatched => .next (s.discard .unmatched)
        | .matched => .next (s.acceptResult f)

/-- BUILD_REQUEST (R130). -/
def execBuildRequest (s : State) : Outcome := .next s.buildRequest

/-- REQ_ACCEPT (R133): the result is a combinational value; no register is written. -/
def execReqAccept (f : Frame) (s : State) : Outcome :=
  .next { s with wires := { s.wires with reqVerdict := some (reqAcceptOf s.cfg f) } }

/-- R129, R131 before the SEND: build and render the request, once (while the SEND is pending this is done: R101). -/
def State.renderRequest (s : State) : State :=
  match s.pending with
  | none => s.buildRequest.emitReqTx
  | some _ => s

/-- PHASE_REQ_SEND (R129). -/
def execPhaseReqSend (s : State) : Outcome :=
  (sendTx s.renderRequest).andThen fun s => .next (s.setPhase .reqWait)

/-- PHASE_REQ_WAIT (R132). -/
def execPhaseReqWait (s : State) : Outcome := (receiveRx s).andThen awaitReplyRx

end Sys2Proof.Machine
end

