-- ==== Sys2Proof/Machine/Responder.lean ====
section
/-! DEFINITION. The Responder Engine (42_responder.md). -/

namespace Sys2Proof.Machine

/-- `build_reply(Q)` (R118). -/
def replyTo (localMac : HwAddr) (q : Frame) : Frame :=
  { ethDst    := q.sha
    ethSrc    := localMac
    ethertype := q.ethertype
    htype     := q.htype
    ptype     := q.ptype
    hlen      := q.hlen
    plen      := q.plen
    oper      := Config.arpOpReply
    sha       := localMac
    spa       := q.tpa
    tha       := q.sha
    tpa       := q.spa }

/-- R118: `TX` takes the reply to `REQ`. -/
def State.buildReply (s : State) : State := { s with tx := replyTo s.localMac s.req }

/-- R119: the exchange counter, modulo 2^32. -/
def State.countExchange (s : State) : State := { s with exchCnt := s.exchCnt + 1 }

/-- R115 after an accepting filter: latch (R117), build (R118), count (R119), and on to RESP_SEND. -/
def State.acceptRequest (s : State) (f : Frame) : State :=
  State.setPhase (State.countExchange (State.buildReply { s with req := f })) .respSend

/-- R115 after its `receive_rx()`: classify, decode, filter, and build the reply. -/
def respondToRx (s : State) : Outcome :=
  orFault (classifyRx s) fun
    | .truncated => .next (s.discard .truncated)
    | .notArp => .next (s.discard .notArp)
    | .arp =>
      orFault (decodeRx s) fun f =>
        match respFilterOf s.cfg f with
        | .opcodeFiltered => .next (s.discard .opcodeFiltered)
        | .targetFiltered => .next (s.discard .targetFiltered)
        | .accept => .next (s.acceptRequest f)

/-- RESP_FILTER (R116): the verdict is a combinational value; no register is written. -/
def execRespFilter (f : Frame) (s : State) : Outcome :=
  .next { s with wires := { s.wires with respVerdict := some (respFilterOf s.cfg f) } }

/-- BUILD_REPLY (R118). -/
def execBuildReply (s : State) : Outcome := .next s.buildReply

/-- COUNT_EXCHANGE (R119). -/
def execCountExchange (s : State) : Outcome := .next s.countExchange

/-- PHASE_RESP_LISTEN (R115). -/
def execPhaseRespListen (s : State) : Outcome := (receiveRx s).andThen respondToRx

/-- R120 before its SEND: the two records, once (while the SEND is pending they are already out: R101). -/
def State.renderExchange (s : State) : State :=
  match s.pending with
  | none => s.emitRespRx.emitRespTx
  | some _ => s

/-- PHASE_RESP_SEND (R120). -/
def execPhaseRespSend (s : State) : Outcome :=
  (sendTx s.renderExchange).andThen fun s => .next (s.setPhase .respListen)

end Sys2Proof.Machine
end

