-- ==== Sys2Proof/Machine/FrameClasses.lean ====
section
/-! DEFINITION. The frame classes (R66): the pending RECEIVE is answered with a sequence of that class, and the engine that
waits for it discards it or decodes, filters and accepts it. -/

namespace Sys2Proof.Machine

/-- What the waiting engine does with the sequence in `RX_BUF` (R115, R132). Frames reach the block in no other phase
(R110). -/
def engineOnRx (s : State) : Outcome :=
  match phaseOfCode s.phase with
  | some .respListen => respondToRx s
  | some .reqWait => awaitReplyRx s
  | _ => .refused .unsolicitedFrame

/-- A sequence of class `c` answers the pending RECEIVE (R108, R110). -/
def frameArrives (c : FrameClass) (bs : List Byte) (s : State) : Outcome :=
  match s.pending with
  | some (.receive _ _) =>
    if s.cfg.rxMax < bs.length then .refused .answerTooLong
    else
      orFault (frameClassRx (State.deliver { s with pending := none } bs)) fun c' =>
        if c' = c then engineOnRx (State.deliver { s with pending := none } bs) else .fault .frameClassMismatch
  | _ => .refused .unsolicitedFrame

/-- TRUNCATED (R66): discarded, reason 1. -/
def execTruncated (bytes : List Byte) (s : State) : Outcome := frameArrives .truncated bytes s

/-- ARP_REQUEST (R66): decoded; the responder filters and replies, the requester matches. -/
def execArpRequest (f : Frame) (trail : List Byte) (s : State) : Outcome :=
  frameArrives .arpRequest (bytesOfFrame f ++ trail) s

/-- ARP_REPLY (R66). -/
def execArpReply (f : Frame) (trail : List Byte) (s : State) : Outcome :=
  frameArrives .arpReply (bytesOfFrame f ++ trail) s

/-- ARP_OTHER (R66). -/
def execArpOther (f : Frame) (trail : List Byte) (s : State) : Outcome :=
  frameArrives .arpOther (bytesOfFrame f ++ trail) s

/-- NOT_ARP (R66): discarded, reason 2. -/
def execNotArp (bytes : List Byte) (s : State) : Outcome := frameArrives .notArp bytes s

end Sys2Proof.Machine
end

