-- ==== Sys2Proof/Machine/Reset.lean ====
section
/-! DEFINITION. Reset (70_reset_and_hazards.md): its assertion, its release, and the phase held while it is asserted. -/

namespace Sys2Proof.Machine

/-- The registers take the values of R38. Those it leaves unspecified take the values of log 2. -/
def State.clearRegisters (s : State) : State :=
  { s with
    localMac := 0, gwHandle := { tag := 0 }, errCode := 0, exitStatus := 0, exchCnt := 0,
    req := zeroFrame, tx := zeroFrame, result := zeroFrame, resultValid := false,
    rxBuf := [], rxLen := 0, txBuf := [], pending := none, wires := Wires.undriven, discardLabel := none }

/-- Reset is asserted (R160): the pending command is abandoned and `PHASE` is RESET, from any phase. The registers hold
the values of R38 while it is asserted (log 9). -/
def State.assertReset (s : State) : State := s.clearRegisters.setPhase .reset

/-- RESET_RELEASE (R161), as one step: the parameters are captured, and the block starts at ATTACH. A model must refuse
`P_RX_MAX < 42` (R167). -/
def execResetRelease (s : State) : Outcome :=
  if s.pins.rxMax < 42 then .refused .rxMaxBelow42
  else .next (State.setPhase { s.clearRegisters with cfg := s.pins } .attach)

/-- PHASE_RESET (R160): no command, no record, and no answer is taken. -/
def execPhaseReset (s : State) : Outcome := .next s.passInput

end Sys2Proof.Machine
end

