-- ==== Sys2Proof/Machine/Dispatch.lean ====
section
/-! DEFINITION. One arm per row of spec/opcode_table.json. -/

namespace Sys2Proof.Machine

def exec (i : Instr) (s : State) : Host.Outcome State Fault Refusal :=
  match i with
  -- frame classes
  | .truncated bytes => Sys2Proof.Machine.execTruncated bytes s
  | .arpRequest f trail => Sys2Proof.Machine.execArpRequest f trail s
  | .arpReply f trail => Sys2Proof.Machine.execArpReply f trail s
  | .arpOther f trail => Sys2Proof.Machine.execArpOther f trail s
  | .notArp bytes => Sys2Proof.Machine.execNotArp bytes s
  -- gateway commands
  | .gwAttach => Sys2Proof.Machine.execGwAttach s
  | .gwQueryMac => Sys2Proof.Machine.execGwQueryMac s
  | .gwSend => Sys2Proof.Machine.execGwSend s
  | .gwReceive => Sys2Proof.Machine.execGwReceive s
  | .gwDetach => Sys2Proof.Machine.execGwDetach s
  -- phases
  | .phaseAttach => Sys2Proof.Machine.execPhaseAttach s
  | .phaseQuery => Sys2Proof.Machine.execPhaseQuery s
  | .phaseRespListen => Sys2Proof.Machine.execPhaseRespListen s
  | .phaseRespSend => Sys2Proof.Machine.execPhaseRespSend s
  | .phaseReqSend => Sys2Proof.Machine.execPhaseReqSend s
  | .phaseReqWait => Sys2Proof.Machine.execPhaseReqWait s
  | .phaseDetach => Sys2Proof.Machine.execPhaseDetach s
  | .phaseReset => Sys2Proof.Machine.execPhaseReset s
  | .phaseDone => Sys2Proof.Machine.execPhaseDone s
  | .phaseFatal => Sys2Proof.Machine.execPhaseFatal s
  -- internal operations
  | .classify => Sys2Proof.Machine.execClassify s
  | .decode => Sys2Proof.Machine.execDecode s
  | .encode => Sys2Proof.Machine.execEncode s
  | .diag r => Sys2Proof.Machine.execDiag r s
  | .respFilter f => Sys2Proof.Machine.execRespFilter f s
  | .buildReply => Sys2Proof.Machine.execBuildReply s
  | .countExchange => Sys2Proof.Machine.execCountExchange s
  | .buildRequest => Sys2Proof.Machine.execBuildRequest s
  | .reqAccept f => Sys2Proof.Machine.execReqAccept f s
  | .fatal c => Sys2Proof.Machine.execFatal c s
  | .discard r => Sys2Proof.Machine.execDiscard r s
  | .resetRelease => Sys2Proof.Machine.execResetRelease s
  -- diagnostic records
  | .diagRespRx => Sys2Proof.Machine.execDiagRespRx s
  | .diagRespTx => Sys2Proof.Machine.execDiagRespTx s
  | .diagReqTx => Sys2Proof.Machine.execDiagReqTx s
  | .diagReqRx => Sys2Proof.Machine.execDiagReqRx s
  | .diagError => Sys2Proof.Machine.execDiagError s

end Sys2Proof.Machine
end

