-- ==== Sys2Proof/Machine/Inputs.lean ====
section
/-! DEFINITION. What the step fetches, and the inputs that come before any operation: the reset edges (R160, R161) and the
parameter inputs (R164). -/

namespace Sys2Proof.Machine

/-- R72: the operation that `PHASE` selects; 10 to 15 are stuck (R29). -/
def fetch (s : State) : Except Fault Instr :=
  match decode (.phaseCode s.phase) with
  | .ok i => .ok i
  | .error _ => .error .stuckPhase

/-- Release of reset where it is asserted is RESET_RELEASE; elsewhere the input has no edge and nothing happens (log 7). -/
def releaseInput (s : State) : Option Instr :=
  if s.phase = phaseCode .reset then some .resetRelease else none

/-- The state in which the very next step runs the frame whose class key is `w` (log 16): the block listens, and its
RECEIVE is answered with that frame. -/
def withFrameAnswer (s : State) (bs : List Byte) : State :=
  { s with
    phase := phaseCode .respListen
    pending := some (.receive s.gwHandle s.cfg.rxMax)
    env := .answer (.ok (.bytes bs)) :: s.env }

/-- The state in which the very next step runs the operation of phase code `c` (log 16). -/
def withPhase (s : State) (c : BitVec 4) : State :=
  { s with phase := c, pending := none, env := .quiet :: s.env }

end Sys2Proof.Machine
end

