-- ==== Sys2Proof/Machine/Step.lean ====
section
/-! DEFINITION. One step: reset takes precedence over every other event (R145, R160); otherwise the operation that
`PHASE` selects is performed (R72). -/

namespace Sys2Proof.Machine

/-- One step of the block. An edge of the reset input and a change of the parameter inputs are steps of their own. -/
def step (s : State) : Host.Outcome State Fault Refusal :=
  match s.env with
  | .assertReset :: rest => .next (State.assertReset { s with env := rest })
  | .releaseReset :: rest =>
    match releaseInput s with
    | some i => exec i { s with env := rest }
    | none => .next { s with env := rest }
  | .setParams p :: rest => .next { s with pins := p, env := rest }
  | _ =>
    match fetch s with
    | .ok i => exec i s
    | .error f => .fault f

/-- The state with that instruction where the step fetches its next one: a frame as the answer to the pending RECEIVE for
the 32-bit class key, `PHASE` for a phase code (log 15, log 16). -/
def State.withFetchWord (s : State) (nbits w : Nat) : State :=
  if nbits = 32 then withFrameAnswer s (keyFrame w) else withPhase s (BitVec.ofNat 4 w)

end Sys2Proof.Machine
end

