-- ==== Sys2Proof/Safety.lean ====
section
/-! DEFINITION. The terms in which claims speak: what a step may take as input, the invariant of a run, the contract that
the environment keeps (R110), and the wire image of R63 as one 336-bit value. -/

namespace Sys2Proof.Machine

/-- The next input is no reset edge and no parameter change: the step performs the operation that `PHASE` selects. -/
def engineTurn (s : State) : Bool :=
  match s.env with
  | .assertReset :: _ => false
  | .releaseReset :: _ => false
  | .setParams _ :: _ => false
  | _ => true

/-- Command `c` may be called: none is pending, or a command of its kind is (R101). -/
abbrev callable (c : Command) (s : State) : Prop := s.pending.all (fun c' => commandOp c' == commandOp c) = true

/-- R70: the command whose OK carries a value of this kind (DETACH, which ignores its answer, apart). -/
def answeredOp : Value → BitVec 4
  | .handle _ => 1
  | .mac _ => 2
  | .empty => 3
  | .bytes _ => 4

/-- What the trace gains when command `c` is called: the command, unless it is already pending (R101). -/
def issued (c : Command) (s : State) : List Output :=
  match s.pending with
  | none => [.command c]
  | some _ => []

/-- The value of `PENDING` while command `c` waits for its answer. -/
def awaited (c : Command) (s : State) : Option Command :=
  match s.pending with
  | none => some c
  | some c' => some c'

/-- The record of a fatal error (R142). -/
def errorRecord (c : BitVec 3) : Output := .diag { kind := .error, label := 0, payload := .errCode c }

/-- R63: the frame value `FV`, the twelve fields in wire order, bit 335 first. -/
def frameValue (f : Frame) : BitVec 336 :=
  (f.ethDst ++ f.ethSrc ++ f.ethertype ++ f.htype ++ f.ptype ++ f.hlen ++ f.plen ++ f.oper ++ f.sha ++ f.spa ++ f.tha ++
    f.tpa : BitVec 336)

/-- R63: byte `k` of the wire image, `FV[335-8k : 328-8k]`. -/
def frameByte (f : Frame) (k : Nat) : Byte := (frameValue f).extractLsb' (8 * (41 - k)) 8

/-- R63: the 42 bytes of the wire image of a Frame record. -/
def wireImage (f : Frame) : List Byte := (List.range 42).map (frameByte f)

/-- Bytes 12 and 13 of a sequence are `08 06`. -/
abbrev arpEthertypeBytes (bs : List Byte) : Prop := bs[12]? = some 0x08 ∧ bs[13]? = some 0x06

/-- `RX_BUF[0 .. RX_LEN-1]`. -/
def received (s : State) : List Byte := bytesFrom s.rxBuf 0 s.rxLen

/-- `m` is `m₀` after the bytes `bs` are stored from address 0 on: those bytes, and every other byte as before. -/
def Stored (m₀ : Memory) (bs : List Byte) (m : Memory) : Prop :=
  (∀ k, ∀ h : k < bs.length, byteAt m k = bs[k]) ∧ ∀ a, bs.length ≤ a → byteAt m a = byteAt m₀ a

/-- The Frame record `f` is what the first 42 bytes of `bs` hold. -/
abbrev holdsFrame (bs : List Byte) (f : Frame) : Prop := bs.take 42 = wireImage f

/-- The buffers are canonical and inside their spaces (R41, R42), and `RX_LEN` and `P_RX_MAX` in their ranges (R33, R167). -/
abbrev buffersOk (s : State) : Prop :=
  s.rxBuf.wf = true ∧ s.txBuf.wf = true ∧ (∀ c ∈ s.rxBuf, c.1 < s.cfg.rxMax) ∧ (∀ c ∈ s.txBuf, c.1 < 42) ∧
  s.rxLen ≤ s.cfg.rxMax ∧ 42 ≤ s.cfg.rxMax

/-- `PHASE`, `ERR_CODE` and `EXIT_STATUS` agree (R29 to R31): a legal phase, an error exactly in FATAL, status 1 exactly
there. -/
abbrev statusOk (s : State) : Prop :=
  s.phase.toNat ≤ 9 ∧ s.errCode.toNat ≤ 4 ∧ (s.phase = 9 ↔ s.errCode ≠ 0) ∧
  s.exitStatus = (if s.phase = 9 then 1 else 0)

/-- Each engine runs in its own mode only (R106, R150), and the requester does not count (R32). -/
abbrev modeOk (s : State) : Prop :=
  (s.phase = 3 ∨ s.phase = 4 → s.cfg.mode = .respond) ∧
  (s.phase = 5 ∨ s.phase = 6 ∨ s.phase = 7 ∨ s.phase = 8 → s.cfg.mode = .request) ∧
  (s.cfg.mode = .request → s.exchCnt = 0) ∧ (s.phase = 0 ∨ s.phase = 1 ∨ s.phase = 2 → s.exchCnt = 0)

/-- The pending command is the one its phase issues, with the arguments of R69. -/
def pendingFits (s : State) : Command → Prop
  | .attach n => s.phase = 1 ∧ n = s.cfg.devName
  | .queryMac h => s.phase = 2 ∧ h = s.gwHandle
  | .send h bs => (s.phase = 4 ∨ s.phase = 5) ∧ h = s.gwHandle ∧ bs = wireImage s.tx ∧ txImage s = bs
  | .receive h m => (s.phase = 3 ∨ s.phase = 6) ∧ h = s.gwHandle ∧ m = s.cfg.rxMax
  | .detach h => s.phase = 7 ∧ h = s.gwHandle

/-- R36, R101: whatever is pending belongs to the phase. -/
def pendingOk (s : State) : Prop := ∀ c, s.pending = some c → pendingFits s c

/-- R24, R134: `RESULT` is valid exactly from its latch on, in DETACH and DONE. R118: in RESP_SEND, `TX` is the reply to
`REQ`, and both are ARP. -/
abbrev framesOk (s : State) : Prop :=
  (s.resultValid = true ↔ s.phase = 7 ∨ s.phase = 8) ∧
  (s.phase = 4 → s.tx = replyTo s.localMac s.req ∧ s.req.ethertype = 0x0806)

/-- The invariant of a run. -/
def Inv (s : State) : Prop :=
  buffersOk s ∧ statusOk s ∧ modeOk s ∧ pendingOk s ∧ framesOk s ∧ s.wires = Wires.undriven

/-- R110: what the environment may answer in each phase. -/
def answerFits (s : State) (r : Response) : Prop :=
  match phaseOfCode s.phase with
  | some .attach => r = .fail ∨ ∃ h, r = .ok (.handle h)
  | some .query => r = .fail ∨ ∃ a, r = .ok (.mac a)
  | some .respSend | some .reqSend => r = .fail ∨ r = .ok .empty
  | some .respListen | some .reqWait => r = .fail ∨ ∃ bs, r = .ok (.bytes bs) ∧ bs.length ≤ s.cfg.rxMax
  | _ => True

/-- The environment keeps its contract in the coming step: an answer fits the command (R110), and reset is not released
on a configuration that a model must refuse (R167). -/
def contractKept (s : State) : Prop :=
  (∀ r rest, s.env = .answer r :: rest → answerFits s r) ∧
  (∀ rest, s.env = .releaseReset :: rest → 42 ≤ s.pins.rxMax)

/-- `n` steps of the machine, stopping at the first fault or refusal. -/
def run : Nat → State → Outcome
  | 0, s => .next s
  | n + 1, s =>
    match step s with
    | .next s' => run n s'
    | .fault f => .fault f
    | .refused r => .refused r

/-- How many SEND commands these outputs hold. -/
def sendCount (os : List Output) : Nat :=
  os.countP fun
    | .command (.send _ _) => true
    | _ => false

/-- How many gateway commands these outputs hold. -/
def commandCount (os : List Output) : Nat :=
  os.countP fun
    | .command _ => true
    | .diag _ => false

/-- Nothing in these inputs answers a command or asserts reset. -/
def noAnswerNoReset (es : List EnvEvent) : Bool :=
  es.all fun
    | .answer _ => false
    | .assertReset => false
    | _ => true

/-- The pieces of state, for the frame of an instruction. -/
inductive Reg where
  | cfg | localMac | gwHandle | phase | errCode | exitStatus | exchCnt | req | tx | result | resultValid
  | rxBuf | rxLen | txBuf | pending | pins | env | trace | wires | discardLabel
  | unreadableReads
  deriving DecidableEq, Repr

/-- The two states agree on a piece of state; on a byte space, at every address. -/
def sameReg (s t : State) : Reg → Prop
  | .cfg => t.cfg = s.cfg
  | .localMac => t.localMac = s.localMac
  | .gwHandle => t.gwHandle = s.gwHandle
  | .phase => t.phase = s.phase
  | .errCode => t.errCode = s.errCode
  | .exitStatus => t.exitStatus = s.exitStatus
  | .exchCnt => t.exchCnt = s.exchCnt
  | .req => t.req = s.req
  | .tx => t.tx = s.tx
  | .result => t.result = s.result
  | .resultValid => t.resultValid = s.resultValid
  | .rxBuf => ∀ a, byteAt t.rxBuf a = byteAt s.rxBuf a
  | .rxLen => t.rxLen = s.rxLen
  | .txBuf => ∀ a, byteAt t.txBuf a = byteAt s.txBuf a
  | .pending => t.pending = s.pending
  | .pins => t.pins = s.pins
  | .env => t.env = s.env
  | .trace => t.trace = s.trace
  | .wires => t.wires = s.wires
  | .discardLabel => t.discardLabel = s.discardLabel
  | .unreadableReads => t.unreadableReads = s.unreadableReads

/-- What a frame that arrives may write: the receive's scratch, and what the waiting engine latches (R115, R132, R143). -/
def frameWrites : List Reg :=
  [.pending, .rxBuf, .rxLen, .discardLabel, .req, .tx, .exchCnt, .result, .resultValid, .trace, .phase]

/-- What a fatal entry writes (R140). -/
def fatalWrites : List Reg := [.errCode, .exitStatus, .trace, .phase]

/-- What every gateway command writes: the command put out, `PENDING`, and the input it takes (R36, R101). -/
def gatewayWrites : List Reg := [.trace, .pending, .env]

/-- What each row may write, from the "Operands" line of its rule. The spec gives ATTACH, QUERY_MAC and DETACH no rule but
their phases' rules: that GW_DETACH run alone writes neither `EXIT_STATUS` nor `PHASE`, and GW_ATTACH and GW_QUERY_MAC write
`PHASE` on a FAIL only, is the model's choice (log 29), and so are that RESET_RELEASE keeps the trace (log 14) and which rows
write the model's own fields: `env` (log 5, log 8, log 17), `wires` (log 12), `discardLabel` (log 13) and `unreadableReads`
(log 23). -/
def mayWrite : Instr → List Reg
  | .truncated _ | .notArp _ => [.pending, .rxBuf, .rxLen, .discardLabel]
  | .arpRequest _ _ | .arpReply _ _ | .arpOther _ _ => frameWrites
  | .gwAttach => gatewayWrites ++ fatalWrites ++ [.gwHandle]
  | .gwQueryMac => gatewayWrites ++ fatalWrites ++ [.localMac]
  | .gwSend => gatewayWrites ++ fatalWrites ++ [.txBuf]
  | .gwReceive => gatewayWrites ++ fatalWrites ++ [.rxBuf, .rxLen]
  | .gwDetach => gatewayWrites
  | .phaseAttach => gatewayWrites ++ fatalWrites ++ [.gwHandle]
  | .phaseQuery => gatewayWrites ++ fatalWrites ++ [.localMac]
  | .phaseRespListen =>
      gatewayWrites ++ fatalWrites ++ [.rxBuf, .rxLen, .discardLabel, .req, .tx, .exchCnt]
  | .phaseRespSend => gatewayWrites ++ fatalWrites ++ [.txBuf]
  | .phaseReqSend => gatewayWrites ++ fatalWrites ++ [.tx, .txBuf]
  | .phaseReqWait =>
      gatewayWrites ++ fatalWrites ++ [.rxBuf, .rxLen, .discardLabel, .result, .resultValid]
  | .phaseDetach => gatewayWrites ++ [.exitStatus, .phase]
  | .phaseReset | .phaseDone | .phaseFatal => [.env]
  | .classify | .decode | .respFilter _ | .reqAccept _ => [.wires]
  | .encode => [.txBuf]
  | .diag _ | .diagRespRx | .diagRespTx | .diagReqTx | .diagError => [.trace]
  | .diagReqRx => [.trace, .unreadableReads]
  | .buildReply | .buildRequest => [.tx]
  | .countExchange => [.exchCnt]
  | .fatal _ => fatalWrites
  | .discard _ => [.discardLabel]
  | .resetRelease =>
      [.cfg, .localMac, .gwHandle, .phase, .errCode, .exitStatus, .exchCnt, .req, .tx, .result, .resultValid,
       .rxBuf, .rxLen, .txBuf, .pending, .wires, .discardLabel]

/-- No input asserts reset. -/
def noResetAsserted (es : List EnvEvent) : Bool :=
  es.all fun
    | .assertReset => false
    | _ => true

end Sys2Proof.Machine
end

