-- ==== Sys2Proof/Certificates/Slice0/Obligations.lean ====
section
/-! DEFINITION. The statements for the provers, from the numbered rules of spec/. -/

open Sys2Proof Sys2Proof.Machine

/-! ### Encoding -/

/-- Words written out from the tables of R63, R66, R69, R71 and R72 decode to the rows they stand for, and unused codes
are rejected by name. The frame is `REQ_IN` of 95_test_vectors.md L1.1. -/
def Obligations.SpecWordsDecode : Prop :=
  decode (.phaseCode 0b0011) = .ok .phaseRespListen ∧
  decode (.gatewayOp 0b0100) = .ok .gwReceive ∧
  decode (.diagKind 0b101) = .ok .diagError ∧
  decode (.frame [0xFF, 0xFF, 0xFF, 0xFF, 0xFF, 0xFF, 0x11, 0x22, 0x33, 0x44, 0x55, 0x66, 0x08, 0x06,
    0x00, 0x01, 0x08, 0x00, 0x06, 0x04, 0x00, 0x01, 0x11, 0x22, 0x33, 0x44, 0x55, 0x66, 0xAC, 0x10, 0x3C, 0x9D,
    0x00, 0x00, 0x00, 0x00, 0x00, 0x00, 0xAC, 0x10, 0x3C, 0xFA]) =
    .ok (.arpRequest
      { ethDst := 0xFFFFFFFFFFFF, ethSrc := 0x112233445566, ethertype := 0x0806, htype := 0x0001, ptype := 0x0800,
        hlen := 0x06, plen := 0x04, oper := 0x0001, sha := 0x112233445566, spa := 0xAC103C9D,
        tha := 0x000000000000, tpa := 0xAC103CFA } []) ∧
  decode (.phaseCode 0b1010) = .error .unenteredPhase ∧
  decode (.gatewayOp 0b0110) = .error .unusedGatewayOp ∧
  decode (.diagKind 0b000) = .error .unusedDiagKind

/-- Decoding an encoded well-formed instruction gives it back, with every operand at every value. -/
def Obligations.EncodedInstructionDecodesBack : Prop :=
  ∀ (i : Instr) (e : Encoding), i.wellFormed = true → encode i = some e → decode e = .ok i

/-- R66: a received sequence of any length falls into exactly one frame class, by the conditions of R66's table, and the
instruction it decodes to holds every one of its bytes. -/
def Obligations.EveryReceivedSequenceHasItsClass : Prop :=
  ∀ bs : List Byte, ∃ i, decode (.frame bs) = .ok i ∧ i.wellFormed = true ∧ encode i = some (.frame bs) ∧
    ((∃ b, i = .truncated b) ↔ bs.length < 14 ∨ (arpEthertypeBytes bs ∧ bs.length < 42)) ∧
    ((∃ b, i = .notArp b) ↔ 14 ≤ bs.length ∧ ¬ arpEthertypeBytes bs) ∧
    ((∃ f t, i = .arpRequest f t) ↔
      42 ≤ bs.length ∧ arpEthertypeBytes bs ∧ bs[20]? = some 0x00 ∧ bs[21]? = some 0x01) ∧
    ((∃ f t, i = .arpReply f t) ↔
      42 ≤ bs.length ∧ arpEthertypeBytes bs ∧ bs[20]? = some 0x00 ∧ bs[21]? = some 0x02) ∧
    ((∃ f t, i = .arpOther f t) ↔
      42 ≤ bs.length ∧ arpEthertypeBytes bs ∧ ¬ (bs[20]? = some 0x00 ∧ (bs[21]? = some 0x01 ∨ bs[21]? = some 0x02)))

/-! ### Byte spaces and the codec -/

/-- R45: `MemRead` gives the big-endian value of the bytes, faults past `RX_LEN`, and no call of the codec breaks its
precondition. -/
def Obligations.MemReadIsBigEndianOrFaults : Prop :=
  ∀ (addr n : Nat) (s : State),
    (addr + n ≤ s.rxLen → ∃ v, memRead addr n s = .ok v ∧ v < 256 ^ n ∧
      ∀ k, k < n → BitVec.ofNat 8 (v / 256 ^ (n - 1 - k)) = byteAt s.rxBuf (addr + k)) ∧
    (s.rxLen < addr + n → memRead addr n s = .error .readBeyondLength) ∧
    (∃ c, classifyRx s = .ok c) ∧ decodeRx s ≠ .error .readBeyondLength

/-- R46: `MemWrite` stores byte `k` as the `k`-th most significant byte of the value and touches no other byte; the
codec's calls are all inside the space. That a call past byte 41 faults is the model's choice (log 27). -/
def Obligations.MemWriteIsBigEndianAndLocal : Prop :=
  ∀ (addr n v : Nat) (s : State), s.txBuf.wf = true →
    (addr + n ≤ 42 → ∃ m, memWrite addr n v s = .ok { s with txBuf := m } ∧ m.wf = true ∧
      (∀ k, k < n → byteAt m (addr + k) = BitVec.ofNat 8 (v / 256 ^ (n - 1 - k))) ∧
      ∀ a, a < addr ∨ addr + n ≤ a → byteAt m a = byteAt s.txBuf a) ∧
    (42 < addr + n → memWrite addr n v s = .error .writeBeyondBuffer) ∧
    ∀ f, ∃ s', encodeFrameTx f s = .ok s'

/-- R80: CLASSIFY answers by length and ethertype, never faults, and writes no register; its result stands on the
model's wire (log 12). -/
def Obligations.ClassifyFollowsLengthAndEthertype : Prop :=
  ∀ s : State, ∃ c,
    exec .classify s = .next { s with wires := { s.wires with rxClass := some c } } ∧
    (c = .truncated ↔ s.rxLen < 14 ∨ (arpEthertypeBytes (received s) ∧ s.rxLen < 42)) ∧
    (c = .notArp ↔ 14 ≤ s.rxLen ∧ ¬ arpEthertypeBytes (received s)) ∧
    (c = .arp ↔ 42 ≤ s.rxLen ∧ arpEthertypeBytes (received s))

/-- R82: DECODE of a sequence classified ARP gives the record whose fields stand at the offsets of R63; of any other
sequence it faults. -/
def Obligations.DecodeReadsEachFieldAtItsOffset : Prop :=
  ∀ s : State,
    (42 ≤ s.rxLen → arpEthertypeBytes (received s) →
      ∃ f, exec .decode s = .next { s with wires := { s.wires with decoded := some f } } ∧
        f.ethertype = 0x0806 ∧ ∀ k, k < 42 → frameByte f k = byteAt s.rxBuf k) ∧
    (¬ (42 ≤ s.rxLen ∧ arpEthertypeBytes (received s)) → exec .decode s = .fault .decodeNotArp)

/-- R83: bytes from offset 42 on change no result of DECODE. -/
def Obligations.TrailingBytesDoNotChangeDecode : Prop :=
  ∀ s t : State, 42 ≤ s.rxLen → 42 ≤ t.rxLen → (∀ k, k < 42 → byteAt s.rxBuf k = byteAt t.rxBuf k) →
    (∀ f, exec .decode s = .next { s with wires := { s.wires with decoded := some f } } ↔
      exec .decode t = .next { t with wires := { t.wires with decoded := some f } }) ∧
    (∀ r, exec .decode s = .fault r ↔ exec .decode t = .fault r)

/-- R84: ENCODE of every record writes the 42 bytes of R63's layout and nothing else. -/
def Obligations.EncodeWritesTheWireImage : Prop :=
  ∀ s : State, s.txBuf.wf = true →
    ∃ m, exec .encode s = .next { s with txBuf := m } ∧ m.wf = true ∧ Stored s.txBuf (wireImage s.tx) m

/-- R85: both round-trip laws, through the two buffers, and the image of a record with another ethertype classifies
NOT_ARP. -/
def Obligations.CodecRoundTrips : Prop :=
  ∀ s t t' : State, t.txBuf.wf = true → exec .encode t = .next t' →
    (42 ≤ s.rxLen → (∀ k, k < 42 → byteAt s.rxBuf k = byteAt t'.txBuf k) →
      (t.tx.ethertype = 0x0806 →
        exec .decode s = .next { s with wires := { s.wires with decoded := some t.tx } }) ∧
      (t.tx.ethertype ≠ 0x0806 →
        exec .classify s = .next { s with wires := { s.wires with rxClass := some .notArp } })) ∧
    (exec .decode s = .next { s with wires := { s.wires with decoded := some t.tx } } →
      ∀ k, k < 42 → byteAt t'.txBuf k = byteAt s.rxBuf k)

/-- R89: each numeric field survives encoding, with its most significant byte first on the wire. -/
def Obligations.NumericFieldsSurviveEncoding : Prop :=
  ∀ s : State, s.txBuf.wf = true → ∃ t, exec .encode s = .next t ∧
    byteAt t.txBuf 12 = s.tx.ethertype.extractLsb' 8 8 ∧ byteAt t.txBuf 14 = s.tx.htype.extractLsb' 8 8 ∧
    byteAt t.txBuf 16 = s.tx.ptype.extractLsb' 8 8 ∧ byteAt t.txBuf 18 = s.tx.hlen ∧
    byteAt t.txBuf 19 = s.tx.plen ∧ byteAt t.txBuf 20 = s.tx.oper.extractLsb' 8 8 ∧
    (let f := frameOfBytes (txImage t)
     f.ethertype = s.tx.ethertype ∧ f.htype = s.tx.htype ∧ f.ptype = s.tx.ptype ∧ f.hlen = s.tx.hlen ∧
       f.plen = s.tx.plen ∧ f.oper = s.tx.oper)

/-- R86: DIAG appends its record to the trace, whatever it is, and changes no register. -/
def Obligations.DiagAppendsOneRecord : Prop :=
  ∀ (r : DiagRecord) (s : State), exec (.diag r) s = .next { s with trace := s.trace ++ [.diag r] }

/-- R71: the label and the payload of each kind of record. While `RESULT` is unreadable (R24), DIAG_REQ_RX emits a record
with any frame (R86: a DIAG cannot fail; log 23). DIAG_ERROR stops on an `ERR_CODE` that is never written (U15, log 28). -/
def Obligations.DiagRowsCarryLabelAndPayload : Prop :=
  ∀ s : State,
    exec .diagRespRx s = .next { s with trace := s.trace ++ [.diag ⟨.respRx, s.exchCnt, .frame s.req⟩] } ∧
    exec .diagRespTx s = .next { s with trace := s.trace ++ [.diag ⟨.respTx, s.exchCnt, .frame s.tx⟩] } ∧
    exec .diagReqTx s = .next { s with trace := s.trace ++ [.diag ⟨.reqTx, 0, .frame s.tx⟩] } ∧
    (s.resultValid = true →
      exec .diagReqRx s = .next { s with trace := s.trace ++ [.diag ⟨.reqRx, 0, .frame s.result⟩] }) ∧
    (s.resultValid = false → ∃ f, exec .diagReqRx s = .next { s with
      unreadableReads := s.unreadableReads + 1, trace := s.trace ++ [.diag ⟨.reqRx, 0, .frame f⟩] }) ∧
    (s.errCode.toNat ≤ 4 →
      exec .diagError s = .next { s with trace := s.trace ++ [.diag ⟨.error, 0, .errCode s.errCode⟩] }) ∧
    (4 < s.errCode.toNat → exec .diagError s = .fault .illegalErrCode)

/-! ### Gateway commands -/

/-- R104: ATTACH latches the handle, and in its phase goes on to QUERY; a FAIL is `Fatal(ATTACH_FAIL)`. That
GW_ATTACH run alone ends at the latch, with `PHASE` as it was, is the model's choice (log 29). That a pending command
is not put out again is read from R36 and R101 (log 6). -/
def Obligations.AttachLatchesHandleOrFails : Prop :=
  ∀ (s : State) (rest : List EnvEvent), callable (.attach s.cfg.devName) s →
    (∀ h, s.env = .answer (.ok (.handle h)) :: rest →
      exec .gwAttach s = .next { s with
        env := rest, pending := none, trace := s.trace ++ issued (.attach s.cfg.devName) s, gwHandle := h } ∧
      exec .phaseAttach s = .next { s with
        env := rest, pending := none, trace := s.trace ++ issued (.attach s.cfg.devName) s, gwHandle := h,
        phase := 2 }) ∧
    (s.env = .answer .fail :: rest →
      exec .gwAttach s = .next { s with
        env := rest, pending := none, trace := s.trace ++ issued (.attach s.cfg.devName) s ++ [errorRecord 1],
        errCode := 1, exitStatus := 1, phase := 9 } ∧
      exec .phaseAttach s = exec .gwAttach s)

/-- R105, R106: QUERY stores the address unchecked and selects the engine by `CFG_MODE`; a FAIL is
`Fatal(QUERY_FAIL)`. That GW_QUERY_MAC run alone ends at the store, with `PHASE` as it was, is the model's choice
(log 29). That a pending command is not put out again is read from R36 and R101 (log 6). -/
def Obligations.QueryStoresAddressAndSelectsEngine : Prop :=
  ∀ (s : State) (rest : List EnvEvent), callable (.queryMac s.gwHandle) s →
    (∀ a, s.env = .answer (.ok (.mac a)) :: rest →
      exec .gwQueryMac s = .next { s with
        env := rest, pending := none, trace := s.trace ++ issued (.queryMac s.gwHandle) s, localMac := a } ∧
      exec .phaseQuery s = .next { s with
        env := rest, pending := none, trace := s.trace ++ issued (.queryMac s.gwHandle) s, localMac := a,
        phase := if s.cfg.mode = .respond then 3 else 5 }) ∧
    (s.env = .answer .fail :: rest →
      exec .gwQueryMac s = .next { s with
        env := rest, pending := none, trace := s.trace ++ issued (.queryMac s.gwHandle) s ++ [errorRecord 2],
        errCode := 2, exitStatus := 1, phase := 9 } ∧
      exec .phaseQuery s = exec .gwQueryMac s)

/-- R107: SEND encodes `TX` and hands its 42-byte image to the gateway; a FAIL is `Fatal(SEND_FAIL)`. That an
unanswered SEND stays pending, and that a pending one is neither encoded nor put out again, is read from R36 and R101
(log 6). -/
def Obligations.SendHandsOverTheWireImage : Prop :=
  ∀ (s : State) (rest : List EnvEvent), s.txBuf.wf = true →
    (s.pending = none → ∃ m, m.wf = true ∧ Stored s.txBuf (wireImage s.tx) m ∧
      (s.env = .answer (.ok .empty) :: rest →
        exec .gwSend s = .next { s with
          env := rest, trace := s.trace ++ [.command (.send s.gwHandle (wireImage s.tx))], txBuf := m }) ∧
      (s.env = .answer .fail :: rest →
        exec .gwSend s = .next { s with
          env := rest, trace := s.trace ++ [.command (.send s.gwHandle (wireImage s.tx)), errorRecord 3], txBuf := m,
          errCode := 3, exitStatus := 1, phase := 9 }) ∧
      (s.env = [] →
        exec .gwSend s = .next { s with
          trace := s.trace ++ [.command (.send s.gwHandle (wireImage s.tx))], txBuf := m,
          pending := some (.send s.gwHandle (wireImage s.tx)) }) ∧
      (s.env = .quiet :: rest →
        exec .gwSend s = .next { s with
          env := rest, trace := s.trace ++ [.command (.send s.gwHandle (wireImage s.tx))], txBuf := m,
          pending := some (.send s.gwHandle (wireImage s.tx)) })) ∧
    (∀ h bs, s.pending = some (.send h bs) →
      (s.env = .answer (.ok .empty) :: rest → exec .gwSend s = .next { s with env := rest, pending := none }) ∧
      (s.env = .answer .fail :: rest →
        exec .gwSend s = .next { s with
          env := rest, pending := none, trace := s.trace ++ [errorRecord 3],
          errCode := 3, exitStatus := 1, phase := 9 }) ∧
      (s.env = [] → exec .gwSend s = .next s) ∧
      (s.env = .quiet :: rest → exec .gwSend s = .next { s with env := rest }))

/-- R108: RECEIVE takes a sequence of any length up to `max_size` into `RX_BUF` and `RX_LEN`, refuses a longer one,
and a FAIL is `Fatal(RECV_FAIL)`; without an answer the command stays pending. That a pending command is not put out
again is read from R36 and R101 (log 6). -/
def Obligations.ReceiveFillsTheBufferOrRefuses : Prop :=
  ∀ (s : State) (rest : List EnvEvent), s.rxBuf.wf = true → callable (.receive s.gwHandle s.cfg.rxMax) s →
    (∀ bs, s.env = .answer (.ok (.bytes bs)) :: rest → bs.length ≤ s.cfg.rxMax →
      ∃ m, m.wf = true ∧ (∀ k, ∀ h : k < bs.length, byteAt m k = bs[k]) ∧
        exec .gwReceive s = .next { s with
          env := rest, pending := none, trace := s.trace ++ issued (.receive s.gwHandle s.cfg.rxMax) s,
          rxLen := bs.length, rxBuf := m }) ∧
    (∀ bs, s.env = .answer (.ok (.bytes bs)) :: rest → s.cfg.rxMax < bs.length →
      exec .gwReceive s = .refused .answerTooLong) ∧
    (s.env = .answer .fail :: rest →
      exec .gwReceive s = .next { s with
        env := rest, pending := none,
        trace := s.trace ++ issued (.receive s.gwHandle s.cfg.rxMax) s ++ [errorRecord 4],
        errCode := 4, exitStatus := 1, phase := 9 }) ∧
    (s.env = [] →
      exec .gwReceive s = .next { s with
        trace := s.trace ++ issued (.receive s.gwHandle s.cfg.rxMax) s,
        pending := awaited (.receive s.gwHandle s.cfg.rxMax) s })

/-- R109: DETACH ends in DONE with status 0, whatever the answer. That GW_DETACH run alone ends with its answer, with
`EXIT_STATUS` and `PHASE` as they were, is the model's choice (log 29). That a pending command is not put out again
is read from R36 and R101 (log 6). -/
def Obligations.DetachEndsWhateverTheAnswer : Prop :=
  ∀ (s : State) (r : Response) (rest : List EnvEvent), callable (.detach s.gwHandle) s → s.env = .answer r :: rest →
    exec .gwDetach s = .next { s with
      env := rest, pending := none, trace := s.trace ++ issued (.detach s.gwHandle) s } ∧
    exec .phaseDetach s = .next { s with
      env := rest, pending := none, trace := s.trace ++ issued (.detach s.gwHandle) s, exitStatus := 0, phase := 8 }

/-- R36, R101: without an answer the command is put out once and stays pending, and nothing else happens; a quiet step of
the environment passes. -/
def Obligations.UnansweredCommandStaysPending : Prop :=
  ∀ (s : State) (i : Instr) (c : Command),
    (i, c) ∈ [(.gwAttach, .attach s.cfg.devName), (.phaseAttach, .attach s.cfg.devName),
      (.gwQueryMac, .queryMac s.gwHandle), (.phaseQuery, .queryMac s.gwHandle),
      (.gwReceive, .receive s.gwHandle s.cfg.rxMax), (.phaseRespListen, .receive s.gwHandle s.cfg.rxMax),
      (.phaseReqWait, .receive s.gwHandle s.cfg.rxMax),
      (.gwDetach, .detach s.gwHandle), (.phaseDetach, .detach s.gwHandle)] →
    callable c s →
    (s.env = [] → exec i s = .next { s with trace := s.trace ++ issued c s, pending := awaited c s }) ∧
    (∀ rest, s.env = .quiet :: rest →
      exec i s = .next { s with trace := s.trace ++ issued c s, pending := awaited c s, env := rest })

/-- R111: a RECEIVE that is never answered suspends the block for ever, with no command, no record and no register
change; asserting reset lifts it. That a release without an assertion changes nothing is the model's choice (log 7). -/
def Obligations.UnansweredReceiveSuspendsForEver : Prop :=
  ∀ (s : State) (h : Handle) (k : Nat), s.pending = some (.receive h k) → s.phase = 3 ∨ s.phase = 6 →
    (noAnswerNoReset s.env = true → ∀ n, ∃ e p, run n s = .next { s with env := e, pins := p }) ∧
    (∀ rest, s.env = .assertReset :: rest → ∃ t, step s = .next t ∧ t.phase = 0 ∧ t.pending = none)

/-- R101 and U15: in every row that calls the gateway, a command while another kind is pending is a fault (log 22), and so
is an OK of another kind than R70 gives the command, put out in this step or pending. DETACH ignores its answer (log 18). -/
def Obligations.GatewayMisuseFaults : Prop :=
  (∀ (s : State) (i : Instr) (op : BitVec 4) (c : Command),
    (i, op) ∈ [(.gwAttach, 1), (.phaseAttach, 1), (.gwQueryMac, 2), (.phaseQuery, 2), (.gwSend, 3), (.phaseRespSend, 3),
      (.phaseReqSend, 3), (.gwReceive, 4), (.phaseRespListen, 4), (.phaseReqWait, 4), (.gwDetach, 5), (.phaseDetach, 5)] →
    s.pending = some c → commandOp c ≠ op → exec i s = .fault .commandWhilePending) ∧
  (∀ (s : State) (i : Instr) (op : BitVec 4) (v : Value) (rest : List EnvEvent),
    (i, op) ∈ [(.gwAttach, 1), (.phaseAttach, 1), (.gwQueryMac, 2), (.phaseQuery, 2), (.gwSend, 3), (.phaseRespSend, 3),
      (.phaseReqSend, 3), (.gwReceive, 4), (.phaseRespListen, 4), (.phaseReqWait, 4)] →
    (∀ c, s.pending = some c → commandOp c = op) →
    s.env = .answer (.ok v) :: rest → answeredOp v ≠ op → exec i s = .fault .badResponse)

/-! ### Responder -/

/-- R116: the responder's filters, the opcode test first; the verdict stands on the model's wire (log 12). -/
def Obligations.RespFilterVerdicts : Prop :=
  ∀ (s : State) (f : Frame),
    (s.cfg.respOpcodeFilter = true → f.oper ≠ 0x0001 →
      exec (.respFilter f) s = .next { s with wires := { s.wires with respVerdict := some .opcodeFiltered } }) ∧
    (¬ (s.cfg.respOpcodeFilter = true ∧ f.oper ≠ 0x0001) → s.cfg.respTpaFilter = true → f.tpa ≠ s.cfg.localIp →
      exec (.respFilter f) s = .next { s with wires := { s.wires with respVerdict := some .targetFiltered } }) ∧
    (¬ (s.cfg.respOpcodeFilter = true ∧ f.oper ≠ 0x0001) → ¬ (s.cfg.respTpaFilter = true ∧ f.tpa ≠ s.cfg.localIp) →
      exec (.respFilter f) s = .next { s with wires := { s.wires with respVerdict := some .accept } })

/-- R118: every field of the reply to the latched request. -/
def Obligations.ReplyIsBuiltFromLatchedRequest : Prop :=
  ∀ s : State, exec .buildReply s = .next { s with tx :=
    { ethDst := s.req.sha, ethSrc := s.localMac, ethertype := s.req.ethertype, htype := s.req.htype,
      ptype := s.req.ptype, hlen := s.req.hlen, plen := s.req.plen, oper := 0x0002, sha := s.localMac,
      spa := s.req.tpa, tha := s.req.sha, tpa := s.req.spa } }

/-- R119, R32: the exchange counter goes up by one modulo 2^32, and nothing else changes. -/
def Obligations.CountExchangeAddsOneModulo : Prop :=
  ∀ s : State, ∃ c : BitVec 32, c.toNat = (s.exchCnt.toNat + 1) % 2 ^ 32 ∧
    exec .countExchange s = .next { s with exchCnt := c }

/-- R115, R108: the RESP_LISTEN phase, for FAIL, for a sequence of every class and verdict, and for one longer than
`max_size`. The label of a discard is the model's own (log 13), and so is what stays above the sequence in `RX_BUF`
(log 4). That a pending command is not put out again is read from R36 and R101 (log 6). -/
def Obligations.RespListenFollowsItsRule : Prop :=
  ∀ (s : State) (rest : List EnvEvent), s.rxBuf.wf = true → callable (.receive s.gwHandle s.cfg.rxMax) s →
    (s.env = .answer .fail :: rest →
      exec .phaseRespListen s = .next { s with
        env := rest, pending := none,
        trace := s.trace ++ issued (.receive s.gwHandle s.cfg.rxMax) s ++ [errorRecord 4],
        errCode := 4, exitStatus := 1, phase := 9 }) ∧
    (∀ bs, s.env = .answer (.ok (.bytes bs)) :: rest → s.cfg.rxMax < bs.length →
      exec .phaseRespListen s = .refused .answerTooLong) ∧
    (∀ bs, s.env = .answer (.ok (.bytes bs)) :: rest → bs.length ≤ s.cfg.rxMax →
      ∃ m, m.wf = true ∧ Stored s.rxBuf bs m ∧
        (let u := { s with
          env := rest, pending := none, trace := s.trace ++ issued (.receive s.gwHandle s.cfg.rxMax) s,
          rxLen := bs.length, rxBuf := m }
         (bs.length < 14 ∨ (arpEthertypeBytes bs ∧ bs.length < 42) →
           exec .phaseRespListen s = .next { u with discardLabel := some .truncated }) ∧
         (14 ≤ bs.length → ¬ arpEthertypeBytes bs →
           exec .phaseRespListen s = .next { u with discardLabel := some .notArp }) ∧
         (42 ≤ bs.length → arpEthertypeBytes bs → ∃ f, holdsFrame bs f ∧
           (s.cfg.respOpcodeFilter = true ∧ f.oper ≠ 0x0001 →
             exec .phaseRespListen s = .next { u with discardLabel := some .opcodeFiltered }) ∧
           (¬ (s.cfg.respOpcodeFilter = true ∧ f.oper ≠ 0x0001) →
             s.cfg.respTpaFilter = true ∧ f.tpa ≠ s.cfg.localIp →
             exec .phaseRespListen s = .next { u with discardLabel := some .targetFiltered }) ∧
           (¬ (s.cfg.respOpcodeFilter = true ∧ f.oper ≠ 0x0001) →
             ¬ (s.cfg.respTpaFilter = true ∧ f.tpa ≠ s.cfg.localIp) →
             exec .phaseRespListen s = .next { u with
               req := f, tx := replyTo s.localMac f, exchCnt := s.exchCnt + 1, phase := 4 }))))

/-- R120: the RESP_SEND phase puts out the request's record, the reply's record and the SEND, in this order, and the
records stand when the SEND fails. That an unanswered SEND stays pending, and that nothing is put out again while it is, is
read from R36 and R101 (log 6). -/
def Obligations.RespSendRendersThenSends : Prop :=
  ∀ (s : State) (rest : List EnvEvent), s.txBuf.wf = true →
    (s.pending = none → ∃ m, m.wf = true ∧ Stored s.txBuf (wireImage s.tx) m ∧
      (let out := [.diag ⟨.respRx, s.exchCnt, .frame s.req⟩, .diag ⟨.respTx, s.exchCnt, .frame s.tx⟩,
          .command (.send s.gwHandle (wireImage s.tx))]
       (s.env = .answer (.ok .empty) :: rest →
         exec .phaseRespSend s = .next { s with env := rest, trace := s.trace ++ out, txBuf := m, phase := 3 }) ∧
       (s.env = .answer .fail :: rest →
         exec .phaseRespSend s = .next { s with
           env := rest, trace := s.trace ++ out ++ [errorRecord 3], txBuf := m,
           errCode := 3, exitStatus := 1, phase := 9 }) ∧
       (s.env = [] →
         exec .phaseRespSend s = .next { s with
           trace := s.trace ++ out, txBuf := m, pending := some (.send s.gwHandle (wireImage s.tx)) }) ∧
       (s.env = .quiet :: rest →
         exec .phaseRespSend s = .next { s with
           env := rest, trace := s.trace ++ out, txBuf := m,
           pending := some (.send s.gwHandle (wireImage s.tx)) }))) ∧
    (∀ h bs, s.pending = some (.send h bs) →
      (s.env = .answer (.ok .empty) :: rest →
        exec .phaseRespSend s = .next { s with env := rest, pending := none, phase := 3 }) ∧
      (s.env = .answer .fail :: rest →
        exec .phaseRespSend s = .next { s with
          env := rest, pending := none, trace := s.trace ++ [errorRecord 3],
          errCode := 3, exitStatus := 1, phase := 9 }) ∧
      (s.env = [] → exec .phaseRespSend s = .next s) ∧
      (s.env = .quiet :: rest → exec .phaseRespSend s = .next { s with env := rest }))

/-- R124: the responder answers a received ARP frame that its filters accept with the reply of the source's
responder-correctness property, in two steps, and a received frame that is not ARP with nothing. That a pending
command is not put out again is read from R36 and R101 (log 6). -/
def Obligations.ResponderAnswersEachArpFrame : Prop :=
  ∀ (s : State) (bs : List Byte) (f : Frame) (rest : List EnvEvent),
    Inv s → s.phase = 3 → bs.length ≤ s.cfg.rxMax →
    (42 ≤ bs.length → arpEthertypeBytes bs → holdsFrame bs f →
      (s.cfg.respOpcodeFilter = true → f.oper = 0x0001) → (s.cfg.respTpaFilter = true → f.tpa = s.cfg.localIp) →
      s.env = .answer (.ok (.bytes bs)) :: .answer (.ok .empty) :: rest →
      ∃ t, run 2 s = .next t ∧ t.phase = 3 ∧ t.pending = none ∧ t.env = rest ∧ t.exchCnt = s.exchCnt + 1 ∧
        ∃ r : Frame, r.ethSrc = s.localMac ∧ r.ethDst = f.sha ∧ r.oper = 2 ∧ r.sha = s.localMac ∧ r.spa = f.tpa ∧
          r.tha = f.sha ∧ r.tpa = f.spa ∧
          t.trace = s.trace ++ issued (.receive s.gwHandle s.cfg.rxMax) s ++
            [.diag ⟨.respRx, s.exchCnt + 1, .frame f⟩, .diag ⟨.respTx, s.exchCnt + 1, .frame r⟩,
              .command (.send s.gwHandle (wireImage r))]) ∧
    (14 ≤ bs.length → ¬ arpEthertypeBytes bs → s.env = .answer (.ok (.bytes bs)) :: rest →
      ∃ t, step s = .next t ∧ t.trace = s.trace ++ issued (.receive s.gwHandle s.cfg.rxMax) s ∧
        t.phase = s.phase ∧ t.exchCnt = s.exchCnt ∧ t.req = s.req ∧ t.tx = s.tx ∧ t.result = s.result ∧
        t.resultValid = s.resultValid ∧ t.localMac = s.localMac ∧ t.gwHandle = s.gwHandle ∧ t.cfg = s.cfg ∧
        t.errCode = s.errCode ∧ t.exitStatus = s.exitStatus ∧ t.txBuf = s.txBuf ∧ t.pending = none)

/-- R121: while reset is not asserted the responder stays in its two phases, and leaves them only for FATAL, on a command
that is answered FAIL; after a SEND answered OK it listens again. -/
def Obligations.ResponderStaysInItsLoop : Prop :=
  ∀ s t : State, s.phase = 3 ∨ s.phase = 4 → engineTurn s = true → step s = .next t →
    (t.phase = 3 ∨ t.phase = 4 ∨ (t.phase = 9 ∧ ∃ rest, s.env = .answer .fail :: rest)) ∧
    (∀ rest, s.phase = 4 → s.env = .answer (.ok .empty) :: rest → t.phase = 3)

/-! ### Requester -/

/-- R130: every field of the request. -/
def Obligations.RequestIsBuiltFromIdentity : Prop :=
  ∀ s : State, exec .buildRequest s = .next { s with tx :=
    { ethDst := 0xFFFFFFFFFFFF, ethSrc := s.localMac, ethertype := 0x0806, htype := 0x0001, ptype := 0x0800,
      hlen := 6, plen := 4, oper := 0x0001, sha := s.localMac, spa := s.cfg.localIp, tha := 0xFFFFFFFFFFFF,
      tpa := s.cfg.targetIp } }

/-- R129, R131: the REQ_SEND phase builds the request, puts out its record and the SEND, in this order, and waits for a
frame; what came before a failed SEND stands. That an unanswered SEND stays pending, and that nothing is built or put out
again while it is, is read from R36 and R101 (log 6). -/
def Obligations.ReqSendBuildsRendersAndSends : Prop :=
  ∀ (s : State) (rest : List EnvEvent), s.txBuf.wf = true →
    (s.pending = none → ∃ m, m.wf = true ∧
      (let q := requestFor s.localMac s.cfg.localIp s.cfg.targetIp
       let out := [.diag ⟨.reqTx, 0, .frame q⟩, .command (.send s.gwHandle (wireImage q))]
       Stored s.txBuf (wireImage q) m ∧
       (s.env = .answer (.ok .empty) :: rest →
         exec .phaseReqSend s = .next { s with
           env := rest, trace := s.trace ++ out, tx := q, txBuf := m, phase := 6 }) ∧
       (s.env = .answer .fail :: rest →
         exec .phaseReqSend s = .next { s with
           env := rest, trace := s.trace ++ out ++ [errorRecord 3], tx := q, txBuf := m,
           errCode := 3, exitStatus := 1, phase := 9 }) ∧
       (s.env = [] →
         exec .phaseReqSend s = .next { s with
           trace := s.trace ++ out, tx := q, txBuf := m, pending := some (.send s.gwHandle (wireImage q)) }) ∧
       (s.env = .quiet :: rest →
         exec .phaseReqSend s = .next { s with
           env := rest, trace := s.trace ++ out, tx := q, txBuf := m,
           pending := some (.send s.gwHandle (wireImage q)) }))) ∧
    (∀ h bs, s.pending = some (.send h bs) →
      (s.env = .answer (.ok .empty) :: rest →
        exec .phaseReqSend s = .next { s with env := rest, pending := none, phase := 6 }) ∧
      (s.env = .answer .fail :: rest →
        exec .phaseReqSend s = .next { s with
          env := rest, pending := none, trace := s.trace ++ [errorRecord 3],
          errCode := 3, exitStatus := 1, phase := 9 }) ∧
      (s.env = [] → exec .phaseReqSend s = .next s) ∧
      (s.env = .quiet :: rest → exec .phaseReqSend s = .next { s with env := rest }))

/-- R138: the bytes of the request that REQ_SEND hands over: destination and target hardware address six `FF`, opcode
`00 01`. That a step without an answer ends with the SEND pending is read from R36 and R101 (log 6). -/
def Obligations.RequestBytesAreBroadcast : Prop :=
  ∀ s : State, s.txBuf.wf = true → s.pending = none →
    (∀ r rest, s.env = .answer r :: rest → r = .fail ∨ r = .ok .empty) →
    ∃ t bs, exec .phaseReqSend s = .next t ∧ (.command (.send s.gwHandle bs)) ∈ t.trace ∧ bs.length = 42 ∧
      bs.take 6 = [0xFF, 0xFF, 0xFF, 0xFF, 0xFF, 0xFF] ∧
      (bs.drop 32).take 6 = [0xFF, 0xFF, 0xFF, 0xFF, 0xFF, 0xFF] ∧ (bs.drop 20).take 2 = [0x00, 0x01]

/-- R133: the requester's match; the result stands on the model's wire (log 12). -/
def Obligations.ReqAcceptVerdicts : Prop :=
  ∀ (s : State) (f : Frame),
    (s.cfg.reqMatch = false ∨ (f.oper = 0x0002 ∧ f.spa = s.cfg.targetIp) →
      exec (.reqAccept f) s = .next { s with wires := { s.wires with reqVerdict := some .matched } }) ∧
    (s.cfg.reqMatch = true → ¬ (f.oper = 0x0002 ∧ f.spa = s.cfg.targetIp) →
      exec (.reqAccept f) s = .next { s with wires := { s.wires with reqVerdict := some .unmatched } })

/-- R132, R134, R135, R108: the REQ_WAIT phase, for FAIL, for a sequence of every class and match, and for one longer
than `max_size`. The label of a discard is the model's own (log 13), and so is what stays above the sequence in
`RX_BUF` (log 4). That a pending command is not put out again is read from R36 and R101 (log 6). -/
def Obligations.ReqWaitFollowsItsRule : Prop :=
  ∀ (s : State) (rest : List EnvEvent), s.rxBuf.wf = true → callable (.receive s.gwHandle s.cfg.rxMax) s →
    (s.env = .answer .fail :: rest →
      exec .phaseReqWait s = .next { s with
        env := rest, pending := none,
        trace := s.trace ++ issued (.receive s.gwHandle s.cfg.rxMax) s ++ [errorRecord 4],
        errCode := 4, exitStatus := 1, phase := 9 }) ∧
    (∀ bs, s.env = .answer (.ok (.bytes bs)) :: rest → s.cfg.rxMax < bs.length →
      exec .phaseReqWait s = .refused .answerTooLong) ∧
    (∀ bs, s.env = .answer (.ok (.bytes bs)) :: rest → bs.length ≤ s.cfg.rxMax →
      ∃ m, m.wf = true ∧ Stored s.rxBuf bs m ∧
        (let u := { s with
          env := rest, pending := none, trace := s.trace ++ issued (.receive s.gwHandle s.cfg.rxMax) s,
          rxLen := bs.length, rxBuf := m }
         (bs.length < 14 ∨ (arpEthertypeBytes bs ∧ bs.length < 42) →
           exec .phaseReqWait s = .next { u with discardLabel := some .truncated }) ∧
         (14 ≤ bs.length → ¬ arpEthertypeBytes bs →
           exec .phaseReqWait s = .next { u with discardLabel := some .notArp }) ∧
         (42 ≤ bs.length → arpEthertypeBytes bs → ∃ f, holdsFrame bs f ∧
           (s.cfg.reqMatch = true ∧ ¬ (f.oper = 0x0002 ∧ f.spa = s.cfg.targetIp) →
             exec .phaseReqWait s = .next { u with discardLabel := some .unmatched }) ∧
           (s.cfg.reqMatch = false ∨ (f.oper = 0x0002 ∧ f.spa = s.cfg.targetIp) →
             exec .phaseReqWait s = .next { u with
               result := f, resultValid := true, phase := 7,
               trace := s.trace ++ issued (.receive s.gwHandle s.cfg.rxMax) s ++
                 [.diag ⟨.reqRx, 0, .frame f⟩] }))))

/-- R128: one request is sent per reset. REQ_SEND puts out one SEND, when it starts; after it, the requester goes on
to REQ_WAIT, DETACH and DONE (or FATAL), and no further SEND is put out until reset is asserted. That an answer
passes in DONE and FATAL without effect is the model's choice (log 8), and so is a release without an assertion (log
7). -/
def Obligations.RequestIsSentOncePerReset : Prop :=
  (∀ s t : State, s.phase = 5 → engineTurn s = true → step s = .next t →
    sendCount t.trace = sendCount s.trace + (if s.pending = none then 1 else 0) ∧
    (t.phase = 6 ∨ t.phase = 9 ∨ (t.phase = 5 ∧ t.pending ≠ none))) ∧
  (∀ (n : Nat) (s t : State), s.phase = 6 ∨ s.phase = 7 ∨ s.phase = 8 ∨ s.phase = 9 →
    noResetAsserted s.env = true → run n s = .next t →
    (t.phase = 6 ∨ t.phase = 7 ∨ t.phase = 8 ∨ t.phase = 9) ∧ sendCount t.trace = sendCount s.trace)

/-- R128, R129, R132, R109: from REQ_SEND, with a SEND answered OK, an ARP frame that matches, and any answer to DETACH, the
requester is in DONE three steps later with the frame in `RESULT`, and has put out the request's record and its SEND (unless
the SEND was pending already, log 6), the RECEIVE, the frame's record and the DETACH, in this order. -/
def Obligations.RequesterEndsWithTheFirstMatch : Prop :=
  ∀ (s : State) (bs : List Byte) (f : Frame) (r : Response) (rest : List EnvEvent),
    Inv s → s.phase = 5 → bs.length ≤ s.cfg.rxMax → 42 ≤ bs.length → arpEthertypeBytes bs → holdsFrame bs f →
    (s.cfg.reqMatch = true → f.oper = 0x0002 ∧ f.spa = s.cfg.targetIp) →
    s.env = .answer (.ok .empty) :: .answer (.ok (.bytes bs)) :: .answer r :: rest →
    ∃ t, run 3 s = .next t ∧ t.phase = 8 ∧ t.exitStatus = 0 ∧ t.errCode = 0 ∧ t.resultValid = true ∧ t.result = f ∧
      t.exchCnt = 0 ∧ t.env = rest ∧
      (let q := requestFor s.localMac s.cfg.localIp s.cfg.targetIp
       t.trace = s.trace ++
        (if s.pending = none then [.diag ⟨.reqTx, 0, .frame q⟩, .command (.send s.gwHandle (wireImage q))] else []) ++
        [.command (.receive s.gwHandle s.cfg.rxMax), .diag ⟨.reqRx, 0, .frame f⟩, .command (.detach s.gwHandle)])

/-! ### Frame classes -/

/-- R66, R143: a TRUNCATED or NOT_ARP sequence that answers the RECEIVE of a waiting engine is discarded: only `PENDING`
and the receive's scratch change. -/
def Obligations.UnfitSequencesAreDiscarded : Prop :=
  ∀ (s : State) (bs : List Byte) (h : Handle) (k : Nat), s.rxBuf.wf = true → s.pending = some (.receive h k) →
    s.phase = 3 ∨ s.phase = 6 → bs.length ≤ s.cfg.rxMax →
    ∃ m, m.wf = true ∧ Stored s.rxBuf bs m ∧
      ((Instr.truncated bs).wellFormed = true →
        exec (.truncated bs) s = .next { s with
          pending := none, rxLen := bs.length, rxBuf := m, discardLabel := some .truncated }) ∧
      ((Instr.notArp bs).wellFormed = true →
        exec (.notArp bs) s = .next { s with
          pending := none, rxLen := bs.length, rxBuf := m, discardLabel := some .notArp })

/-- R66: an ARP frame of each opcode class, as the answer to the RECEIVE of the engine that waits: the responder filters it
and builds its reply, the requester matches it and latches it, and a frame that does not pass is discarded. -/
def Obligations.ArpFramesDriveTheWaitingEngine : Prop :=
  ∀ (s : State) (i : Instr) (f : Frame) (t : List Byte) (h : Handle) (k : Nat),
    i = .arpRequest f t ∨ i = .arpReply f t ∨ i = .arpOther f t → i.wellFormed = true →
    s.rxBuf.wf = true → s.pending = some (.receive h k) → 42 + t.length ≤ s.cfg.rxMax →
    ∃ m, m.wf = true ∧ Stored s.rxBuf (wireImage f ++ t) m ∧
      (let u := { s with pending := none, rxLen := 42 + t.length, rxBuf := m }
       (s.phase = 3 → respFilterOf s.cfg f = .accept →
         exec i s = .next { u with
           req := f, tx := replyTo s.localMac f, exchCnt := s.exchCnt + 1, phase := 4 }) ∧
       (s.phase = 3 → respFilterOf s.cfg f = .opcodeFiltered →
         exec i s = .next { u with discardLabel := some .opcodeFiltered }) ∧
       (s.phase = 3 → respFilterOf s.cfg f = .targetFiltered →
         exec i s = .next { u with discardLabel := some .targetFiltered }) ∧
       (s.phase = 6 → reqAcceptOf s.cfg f = .matched →
         exec i s = .next { u with
           result := f, resultValid := true, trace := s.trace ++ [.diag ⟨.reqRx, 0, .frame f⟩], phase := 7 }) ∧
       (s.phase = 6 → reqAcceptOf s.cfg f = .unmatched →
         exec i s = .next { u with discardLabel := some .unmatched }))

/-- R108, R110: a frame that no RECEIVE asked for, or that is longer than `max_size`, is refused, and the frame of another
class than the term says is a fault (an ill-formed term, log 17). -/
def Obligations.FramesOutsideTheContractStop : Prop :=
  ∀ (s : State) (i : Instr) (bs : List Byte), frameBytesOf i = some bs →
    ((∀ h k, s.pending ≠ some (.receive h k)) → exec i s = .refused .unsolicitedFrame) ∧
    (∀ h k, s.pending = some (.receive h k) → s.cfg.rxMax < bs.length → exec i s = .refused .answerTooLong) ∧
    (∀ h k, s.pending = some (.receive h k) → s.rxBuf.wf = true → bs.length ≤ s.cfg.rxMax → i.wellFormed = true →
      s.phase ≠ 3 → s.phase ≠ 6 → exec i s = .refused .unsolicitedFrame) ∧
    (∀ h k, s.pending = some (.receive h k) → s.rxBuf.wf = true → bs.length ≤ s.cfg.rxMax → i.wellFormed = false →
      exec i s = .fault .frameClassMismatch)

/-! ### Errors, discards and terminal phases -/

/-- R140, R142: fatal entry writes the code and the status, emits one ERROR record, and enters FATAL; nothing else
changes, and from there on nothing changes and nothing is put out, for any number of steps, until reset is asserted.
That an answer passes in FATAL without effect is the model's choice (log 8), and so is a release without an assertion
(log 7). -/
def Obligations.FatalEntryReportsOnce : Prop :=
  (∀ s : State,
    (let after (c : BitVec 3) := { s with
      errCode := c, exitStatus := 1, trace := s.trace ++ [.diag ⟨.error, 0, .errCode c⟩], phase := 9 }
     exec (.fatal .attachFail) s = .next (after 1) ∧ exec (.fatal .queryFail) s = .next (after 2) ∧
     exec (.fatal .sendFail) s = .next (after 3) ∧ exec (.fatal .recvFail) s = .next (after 4))) ∧
  ∀ (t : State) (n : Nat), t.phase = 9 → noResetAsserted t.env = true →
    ∃ e p, run n t = .next { t with env := e, pins := p }

/-- R143: a discard changes no register and puts nothing out, and the engine that discarded issues a new RECEIVE in its
next step. The label `l` is the model's own (R144, log 13), and the statement holds whatever it is. -/
def Obligations.DiscardChangesNothingAndListensAgain : Prop :=
  ∀ (s : State) (r : DiscardReason), ∃ l,
    exec (.discard r) s = .next { s with discardLabel := l } ∧
    (s.phase = 3 ∨ s.phase = 6 → s.pending = none → s.env = [] →
      step { s with discardLabel := l } = .next { s with
        discardLabel := l, trace := s.trace ++ [.command (.receive s.gwHandle s.cfg.rxMax)],
        pending := some (.receive s.gwHandle s.cfg.rxMax) })

/-- R136, R140, R160: the phases DONE, FATAL and RESET perform nothing: no command, no record, no register changes; an
input that comes meanwhile passes. -/
def Obligations.IdlePhasesPerformNothing : Prop :=
  ∀ (s : State) (i : Instr), i ∈ [.phaseReset, .phaseDone, .phaseFatal] →
    (s.env = [] → exec i s = .next s) ∧
    (∀ r rest, s.env = .answer r :: rest → exec i s = .next { s with env := rest }) ∧
    (∀ rest, s.env = .quiet :: rest → exec i s = .next { s with env := rest })

/-- R147, R155: DONE and FATAL keep every register until reset is asserted, for any number of steps and any inputs. That an
answer passes without effect is the model's choice (log 8), and so is a release without an assertion (log 7). -/
def Obligations.TerminalPhasesLastUntilReset : Prop :=
  ∀ (n : Nat) (s : State), s.phase = 8 ∨ s.phase = 9 → noResetAsserted s.env = true →
    ∃ e p, run n s = .next { s with env := e, pins := p }

/-- R30, R140, R142: outside reset `ERR_CODE` changes only by fatal entry: status 1, phase FATAL, a code of R141, and the
ERROR record last in the trace. -/
def Obligations.ErrorCodeChangesOnlyByFatalEntry : Prop :=
  ∀ (i : Instr) (s t : State), i ≠ .resetRelease → exec i s = .next t → t.errCode ≠ s.errCode →
    t.phase = 9 ∧ t.exitStatus = 1 ∧ 1 ≤ t.errCode.toNat ∧ t.errCode.toNat ≤ 4 ∧
      t.trace.getLast? = some (errorRecord t.errCode)

/-! ### Reset and configuration -/

/-- R160: reset asserted in any phase abandons the pending command and holds the block in RESET, where it issues nothing,
emits nothing and takes no answer. That the registers have their reset values already while reset is asserted is log 9, and
that the trace stays is the model's choice (log 14). -/
def Obligations.ResetAssertionAbandonsEverything : Prop :=
  ∀ (s : State) (rest : List EnvEvent),
    (s.env = .assertReset :: rest → ∃ t, step s = .next t ∧ t.phase = 0 ∧ t.pending = none ∧ t.trace = s.trace ∧
      t.env = rest ∧ t.errCode = 0 ∧ t.exitStatus = 0 ∧ t.exchCnt = 0 ∧ t.resultValid = false) ∧
    (s.phase = 0 →
      (s.env = [] → step s = .next s) ∧
      (∀ r, s.env = .answer r :: rest → step s = .next { s with env := rest }) ∧
      (s.env = .quiet :: rest → step s = .next { s with env := rest }))

/-- R161, R167: release of reset captures the parameters and starts at ATTACH with the values R38 gives; a configuration
with `P_RX_MAX < 42` is refused. That `P_RX_MAX` is captured with the others is read from R8 and R164 (log 10), and that the
trace stays is the model's choice (log 14). -/
def Obligations.ResetReleaseCapturesParameters : Prop :=
  ∀ s : State,
    (42 ≤ s.pins.rxMax → ∃ t, exec .resetRelease s = .next t ∧ t.cfg = s.pins ∧ t.errCode = 0 ∧ t.exitStatus = 0 ∧
      t.exchCnt = 0 ∧ t.resultValid = false ∧ t.pending = none ∧ t.phase = 1 ∧ t.trace = s.trace ∧ t.env = s.env ∧
      t.pins = s.pins) ∧
    (s.pins.rxMax < 42 → exec .resetRelease s = .refused .rxMaxBelow42) ∧
    (∀ rest, s.phase = 0 → s.env = .releaseReset :: rest →
      step s = exec .resetRelease { s with env := rest })

/-- R38: the values after reset that the spec gives, for every value of the parameters, and that State.reset is the state
after reset with the parameters of Config. -/
def Obligations.ResetStateHoldsTheGivenValues : Prop :=
  (∀ p : Params,
    (State.resetWith p).phase = 1 ∧ (State.resetWith p).errCode = 0 ∧ (State.resetWith p).exitStatus = 0 ∧
    (State.resetWith p).exchCnt = 0 ∧ (State.resetWith p).resultValid = false ∧
    (State.resetWith p).pending = none ∧ (State.resetWith p).cfg = p) ∧
  State.reset = State.resetWith Config.params ∧ 42 ≤ Config.params.rxMax ∧
  Config.params.respOpcodeFilter = false ∧ Config.params.respTpaFilter = false ∧ Config.params.reqMatch = false

/-- R164, R26: the parameter inputs are sampled at release only: in a step that is not a release, a block with other values
on them does exactly the same. -/
def Obligations.ParametersAreSampledOnlyAtRelease : Prop :=
  ∀ (s : State) (p : Params), engineTurn s = true ∨ (∃ rest, s.env = .assertReset :: rest) →
    (∀ t, step s = .next t → step { s with pins := p } = .next { t with pins := p }) ∧
    (∀ f, step s = .fault f → step { s with pins := p } = .fault f) ∧
    (∀ r, step s = .refused r → step { s with pins := p } = .refused r)

/-- R162: after release the block goes through ATTACH and QUERY into the chosen engine, with the handle and the
address it was given. That a pending command is not put out again is read from R36 and R101 (log 6). -/
def Obligations.BootReachesTheChosenEngine : Prop :=
  ∀ (s : State) (h : Handle) (a : HwAddr) (rest : List EnvEvent), s.phase = 1 → callable (.attach s.cfg.devName) s →
    s.env = .answer (.ok (.handle h)) :: .answer (.ok (.mac a)) :: rest →
    run 2 s = .next { s with
      env := rest, pending := none, gwHandle := h, localMac := a,
      trace := s.trace ++ issued (.attach s.cfg.devName) s ++ [.command (.queryMac h)],
      phase := if s.cfg.mode = .respond then 3 else 5 }

/-! ### The whole machine -/

/-- A step runs the operation that `PHASE` decodes to; phases 10 to 15 are stuck (R72, R29). -/
def Obligations.StepPerformsTheSelectedOperation : Prop :=
  ∀ s : State, engineTurn s = true →
    (∀ i, decode (.phaseCode s.phase) = .ok i → step s = exec i s) ∧
    (10 ≤ s.phase.toNat → step s = .fault .stuckPhase)

/-- An edge of the reset input and a change of the parameter inputs are steps of their own; a release where reset is not
asserted changes nothing (log 7). -/
def Obligations.InputEdgesAreStepsOfTheirOwn : Prop :=
  ∀ (s : State) (rest : List EnvEvent),
    (∀ p, s.env = .setParams p :: rest → step s = .next { s with pins := p, env := rest }) ∧
    (s.phase ≠ 0 → s.env = .releaseReset :: rest → step s = .next { s with env := rest })

/-- In a phase that waits for a frame, the step that takes the frame is the frame's own instruction: the sequence is
decoded by R66, and the step is exec of what it decodes to. -/
def Obligations.StepRunsTheReceivedFrame : Prop :=
  ∀ (s : State) (h : Handle) (k : Nat) (bs : List Byte) (rest : List EnvEvent) (i : Instr),
    s.phase = 3 ∨ s.phase = 6 → s.rxBuf.wf = true → s.pending = some (.receive h k) →
    s.env = .answer (.ok (.bytes bs)) :: rest → decode (.frame bs) = .ok i →
    step s = exec i { s with env := rest }

/-- Every step from a state that meets the invariant leads to one that meets it. -/
def Obligations.StepKeepsTheInvariant : Prop := ∀ s t : State, Inv s → step s = .next t → Inv t

/-- The state after reset meets the invariant, whatever the parameters that a model accepts. What it says of `RX_LEN` and the
buffers rests on the model's values for what R38 leaves unspecified (log 2). -/
def Obligations.ResetMeetsTheInvariant : Prop :=
  Inv State.reset ∧ ∀ p : Params, 42 ≤ p.rxMax → Inv (State.resetWith p)

/-- U1, R45, R110: while the environment keeps its contract the machine never stops: no read past the length, no stuck
phase, no refusal. -/
def Obligations.ContractKeepingRunsNeverStop : Prop :=
  ∀ s : State, Inv s → contractKept s → ∃ t, step s = .next t

/-- U1, U15: whatever the environment does, a run's only fault is a response of another command's kind, and its only
refusals are an answer that is too long and a configuration with `P_RX_MAX < 42`. -/
def Obligations.OnlyTheEnvironmentStopsARun : Prop :=
  ∀ s : State, Inv s →
    (∀ f, step s = .fault f → f = .badResponse) ∧
    (∀ r, step s = .refused r → r = .answerTooLong ∨ r = .rxMaxBelow42)

/-- What each of the 37 instructions leaves unchanged: every piece of state outside `mayWrite`, every byte of the two spaces
included. `mayWrite` is from the rules' "Operands" lines, with these choices of the model: where GW_ATTACH, GW_QUERY_MAC and
GW_DETACH run alone end (log 29; R109 writes `EXIT_STATUS` and `PHASE` in its phase), that RESET_RELEASE keeps the trace
(log 14), and which rows write the model's own fields (log 5, log 8, log 12, log 13, log 17, log 23). -/
def Obligations.EveryInstructionKeepsItsFrame : Prop :=
  ∀ (i : Instr) (s t : State) (r : Reg), exec i s = .next t → r ∉ mayWrite i → sameReg s t r

/-- What the storing instructions leave unchanged in memory: RECEIVE and the frames store from byte 0 of `RX_BUF` on as
many bytes as the sequence has, ENCODE and SEND the bytes 0 to 41 of `TX_BUF`; every byte outside reads as before. That
bytes above the sequence stay in `RX_BUF` is the model's choice (log 4). -/
def Obligations.StoresStayInsideTheirBytes : Prop :=
  ∀ (i : Instr) (s t : State), i ≠ .resetRelease → s.rxBuf.wf = true → s.txBuf.wf = true → exec i s = .next t →
    (∀ a, 42 ≤ a → byteAt t.txBuf a = byteAt s.txBuf a) ∧
    (∀ a, t.rxLen ≤ a → byteAt t.rxBuf a = byteAt s.rxBuf a) ∧ t.rxBuf.wf = true ∧ t.txBuf.wf = true

/-- R26, R27, R28: outside RESET_RELEASE no instruction writes the configuration; `LOCAL_MAC` is written by the query and
`GW_HANDLE` by the attach only, and not while another phase runs. -/
def Obligations.IdentityIsReadOnlyInTheEngines : Prop :=
  ∀ s t : State, engineTurn s = true → step s = .next t →
    t.cfg = s.cfg ∧ (s.phase ≠ 1 → t.gwHandle = s.gwHandle) ∧ (s.phase ≠ 2 → t.localMac = s.localMac)

/-- R54, R101, R145: the outputs of a step follow those before it, at most one of them is a command, and none is while a
command is pending. That the outputs stay over a reset is the model's choice (log 14). -/
def Obligations.AtMostOneCommandPerStep : Prop :=
  ∀ s t : State, step s = .next t → ∃ out, t.trace = s.trace ++ out ∧ commandCount out ≤ 1 ∧
    (s.pending ≠ none → commandCount out = 0)

/-- R25: no later behaviour depends on what an earlier exchange left in `REQ`, `TX` and the buffers: two listening
responders, or two requesters about to send, that differ only there put out the same and go to the same phase, and on an
accepted frame agree on `REQ` and `TX` too. -/
def Obligations.NoFrameStateBetweenExchanges : Prop :=
  ∀ (s : State) (q x : Frame) (rx tx : Memory) (n : Nat) (t t' : State),
    s.rxBuf.wf = true → s.txBuf.wf = true → rx.wf = true → tx.wf = true →
    s.phase = 3 ∨ (s.phase = 5 ∧ s.pending = none) → engineTurn s = true →
    step s = .next t → step { s with req := q, tx := x, rxBuf := rx, rxLen := n, txBuf := tx } = .next t' →
    t'.trace = t.trace ∧ t'.phase = t.phase ∧ t'.exchCnt = t.exchCnt ∧ t'.pending = t.pending ∧ t'.env = t.env ∧
      (t.phase = 4 → t'.req = t.req ∧ t'.tx = t.tx) ∧ (s.phase = 5 → t'.tx = t.tx)
end

