-- ==== Sys2Proof/Laws/Bytes.lean ====
section
/-! SUPPORT. Byte order: splitting a value and reading it back agree in both directions, and so do the Frame record and
its wire image. -/

namespace Sys2Proof.Machine

@[simp] theorem beBytes_length (n v : Nat) : (beBytes n v).length = n := by
  induction n with
  | zero => rfl
  | succ n ih => simp [beBytes, ih]

theorem beNat_lt (bs : List Byte) : beNat bs < 256 ^ bs.length := by
  induction bs with
  | nil => simp [beNat]
  | cons b bs ih =>
    simp only [beNat, List.length_cons, pow_succ]
    have hb : b.toNat < 256 := b.isLt
    nlinarith [Nat.mul_le_mul_right (256 ^ bs.length) (Nat.le_of_lt_succ hb)]

theorem beNat_beBytes (n v : Nat) : beNat (beBytes n v) = v % 256 ^ n := by
  induction n with
  | zero => simp [beBytes, beNat, Nat.mod_one]
  | succ n ih =>
    simp only [beBytes, beNat, beBytes_length, ih, BitVec.toNat_ofNat]
    rw [pow_succ 256 n, Nat.mod_mul, show (2 : Nat) ^ 8 = 256 from rfl]
    ring

theorem beBytes_congr (n v w : Nat) (h : v % 256 ^ n = w % 256 ^ n) : beBytes n v = beBytes n w := by
  induction n generalizing v w with
  | zero => rfl
  | succ n ih =>
    have hlow : v % 256 ^ n = w % 256 ^ n := by
      have := congrArg (· % 256 ^ n) h
      simpa [pow_succ, Nat.mod_mul_right_mod] using this
    have hhigh : v / 256 ^ n % 256 = w / 256 ^ n % 256 := by
      rw [pow_succ, Nat.mod_mul, Nat.mod_mul, hlow] at h
      have hp : 0 < 256 ^ n := by positivity
      exact Nat.eq_of_mul_eq_mul_left hp (by omega)
    simp only [beBytes, ih v w hlow, List.cons.injEq, and_true]
    apply BitVec.eq_of_toNat_eq
    simpa using hhigh

theorem beBytes_beNat (bs : List Byte) : beBytes bs.length (beNat bs) = bs := by
  induction bs with
  | nil => rfl
  | cons b bs ih =>
    have hlt := beNat_lt bs
    have hp : 0 < 256 ^ bs.length := by positivity
    have hdiv : (b.toNat * 256 ^ bs.length + beNat bs) / 256 ^ bs.length = b.toNat := by
      rw [Nat.mul_comm, Nat.mul_add_div hp, Nat.div_eq_of_lt hlt, Nat.add_zero]
    have htail : beBytes bs.length (b.toNat * 256 ^ bs.length + beNat bs) = bs := by
      rw [beBytes_congr bs.length _ (beNat bs) (by simp), ih]
    simp [beBytes, beNat, hdiv, htail]

/-- A field read from a sequence that continues with that field's bytes. -/
theorem fieldAt_append (a b c : List Byte) : fieldAt (a ++ (b ++ c)) a.length b.length = beNat b := by
  simp [fieldAt]

theorem bytesOfFrame_length (f : Frame) : (bytesOfFrame f).length = 42 := by
  simp [bytesOfFrame]

/-- `n` bytes of a value that fits in them read back as the value. -/
theorem ofNat_beNat_beBytes {w : Nat} (n : Nat) (h : 256 ^ n = 2 ^ w) (v : BitVec w) :
    BitVec.ofNat w (beNat (beBytes n v.toNat)) = v := by
  apply BitVec.eq_of_toNat_eq
  rw [BitVec.toNat_ofNat, beNat_beBytes, h, Nat.mod_mod, Nat.mod_eq_of_lt v.isLt]

/-- The layout of R63 read back: a sequence that starts with a frame's image holds that frame. -/
theorem frameOfBytes_bytesOfFrame (f : Frame) (t : List Byte) : frameOfBytes (bytesOfFrame f ++ t) = f := by
  have h (off n : Nat) (a b c : List Byte) (he : bytesOfFrame f ++ t = a ++ (b ++ c))
      (ha : a.length = off) (hb : b.length = n) : fieldAt (bytesOfFrame f ++ t) off n = beNat b := by
    rw [he, ← ha, ← hb, fieldAt_append]
  simp only [frameOfBytes]
  rw [h 0 6 [] (beBytes 6 f.ethDst.toNat) _ (by simp only [bytesOfFrame, List.append_assoc, List.nil_append]; rfl)
      (by simp) (by simp),
    h 6 6 (beBytes 6 f.ethDst.toNat) (beBytes 6 f.ethSrc.toNat) _
      (by simp only [bytesOfFrame, List.append_assoc]; rfl) (by simp) (by simp),
    h 12 2 (beBytes 6 f.ethDst.toNat ++ beBytes 6 f.ethSrc.toNat) (beBytes 2 f.ethertype.toNat) _
      (by simp only [bytesOfFrame, List.append_assoc]; rfl) (by simp) (by simp),
    h 14 2 (beBytes 6 f.ethDst.toNat ++ beBytes 6 f.ethSrc.toNat ++ beBytes 2 f.ethertype.toNat)
      (beBytes 2 f.htype.toNat) _ (by simp only [bytesOfFrame, List.append_assoc]; rfl) (by simp) (by simp),
    h 16 2 (beBytes 6 f.ethDst.toNat ++ beBytes 6 f.ethSrc.toNat ++ beBytes 2 f.ethertype.toNat ++
      beBytes 2 f.htype.toNat) (beBytes 2 f.ptype.toNat) _
      (by simp only [bytesOfFrame, List.append_assoc]; rfl) (by simp) (by simp),
    h 18 1 (beBytes 6 f.ethDst.toNat ++ beBytes 6 f.ethSrc.toNat ++ beBytes 2 f.ethertype.toNat ++
      beBytes 2 f.htype.toNat ++ beBytes 2 f.ptype.toNat) (beBytes 1 f.hlen.toNat) _
      (by simp only [bytesOfFrame, List.append_assoc]; rfl) (by simp) (by simp),
    h 19 1 (beBytes 6 f.ethDst.toNat ++ beBytes 6 f.ethSrc.toNat ++ beBytes 2 f.ethertype.toNat ++
      beBytes 2 f.htype.toNat ++ beBytes 2 f.ptype.toNat ++ beBytes 1 f.hlen.toNat) (beBytes 1 f.plen.toNat) _
      (by simp only [bytesOfFrame, List.append_assoc]; rfl) (by simp) (by simp),
    h 20 2 (beBytes 6 f.ethDst.toNat ++ beBytes 6 f.ethSrc.toNat ++ beBytes 2 f.ethertype.toNat ++
      beBytes 2 f.htype.toNat ++ beBytes 2 f.ptype.toNat ++ beBytes 1 f.hlen.toNat ++ beBytes 1 f.plen.toNat)
      (beBytes 2 f.oper.toNat) _ (by simp only [bytesOfFrame, List.append_assoc]; rfl) (by simp) (by simp),
    h 22 6 (beBytes 6 f.ethDst.toNat ++ beBytes 6 f.ethSrc.toNat ++ beBytes 2 f.ethertype.toNat ++
      beBytes 2 f.htype.toNat ++ beBytes 2 f.ptype.toNat ++ beBytes 1 f.hlen.toNat ++ beBytes 1 f.plen.toNat ++
      beBytes 2 f.oper.toNat) (beBytes 6 f.sha.toNat) _
      (by simp only [bytesOfFrame, List.append_assoc]; rfl) (by simp) (by simp),
    h 28 4 (beBytes 6 f.ethDst.toNat ++ beBytes 6 f.ethSrc.toNat ++ beBytes 2 f.ethertype.toNat ++
      beBytes 2 f.htype.toNat ++ beBytes 2 f.ptype.toNat ++ beBytes 1 f.hlen.toNat ++ beBytes 1 f.plen.toNat ++
      beBytes 2 f.oper.toNat ++ beBytes 6 f.sha.toNat) (beBytes 4 f.spa.toNat) _
      (by simp only [bytesOfFrame, List.append_assoc]; rfl) (by simp) (by simp),
    h 32 6 (beBytes 6 f.ethDst.toNat ++ beBytes 6 f.ethSrc.toNat ++ beBytes 2 f.ethertype.toNat ++
      beBytes 2 f.htype.toNat ++ beBytes 2 f.ptype.toNat ++ beBytes 1 f.hlen.toNat ++ beBytes 1 f.plen.toNat ++
      beBytes 2 f.oper.toNat ++ beBytes 6 f.sha.toNat ++ beBytes 4 f.spa.toNat) (beBytes 6 f.tha.toNat) _
      (by simp only [bytesOfFrame, List.append_assoc]; rfl) (by simp) (by simp),
    h 38 4 (beBytes 6 f.ethDst.toNat ++ beBytes 6 f.ethSrc.toNat ++ beBytes 2 f.ethertype.toNat ++
      beBytes 2 f.htype.toNat ++ beBytes 2 f.ptype.toNat ++ beBytes 1 f.hlen.toNat ++ beBytes 1 f.plen.toNat ++
      beBytes 2 f.oper.toNat ++ beBytes 6 f.sha.toNat ++ beBytes 4 f.spa.toNat ++ beBytes 6 f.tha.toNat)
      (beBytes 4 f.tpa.toNat) t
      (by simp only [bytesOfFrame, List.append_assoc]) (by simp) (by simp)]
  simp only [ofNat_beNat_beBytes 6 (w := 48) (by norm_num), ofNat_beNat_beBytes 2 (w := 16) (by norm_num),
    ofNat_beNat_beBytes 1 (w := 8) (by norm_num), ofNat_beNat_beBytes 4 (w := 32) (by norm_num)]

/-- A field's value split again gives the field's bytes. -/
theorem beBytes_fieldAt {w : Nat} (bs : List Byte) (off n : Nat) (h : 256 ^ n = 2 ^ w) (hl : off + n ≤ bs.length) :
    beBytes n (BitVec.ofNat w (fieldAt bs off n)).toNat = (bs.drop off).take n := by
  have hlen : ((bs.drop off).take n).length = n := by simp; omega
  have hlt := beNat_lt ((bs.drop off).take n)
  rw [hlen, h] at hlt
  rw [BitVec.toNat_ofNat, fieldAt, Nat.mod_eq_of_lt hlt]
  conv_lhs => rw [← hlen]
  rw [hlen]
  have := beBytes_beNat ((bs.drop off).take n)
  rwa [hlen] at this

/-- The layout of R63 written back: the image of a sequence's frame is the sequence's first 42 bytes. -/
theorem bytesOfFrame_frameOfBytes (bs : List Byte) (hl : 42 ≤ bs.length) :
    bytesOfFrame (frameOfBytes bs) = bs.take 42 := by
  have hj (a b : Nat) : bs.take a ++ (bs.drop a).take b = bs.take (a + b) := (List.take_add ..).symm
  simp only [bytesOfFrame, frameOfBytes]
  rw [beBytes_fieldAt (w := 48) bs 0 6 (by norm_num) (by omega), beBytes_fieldAt (w := 48) bs 6 6 (by norm_num) (by omega),
    beBytes_fieldAt (w := 16) bs 12 2 (by norm_num) (by omega), beBytes_fieldAt (w := 16) bs 14 2 (by norm_num) (by omega),
    beBytes_fieldAt (w := 16) bs 16 2 (by norm_num) (by omega), beBytes_fieldAt (w := 8) bs 18 1 (by norm_num) (by omega),
    beBytes_fieldAt (w := 8) bs 19 1 (by norm_num) (by omega), beBytes_fieldAt (w := 16) bs 20 2 (by norm_num) (by omega),
    beBytes_fieldAt (w := 48) bs 22 6 (by norm_num) (by omega), beBytes_fieldAt (w := 32) bs 28 4 (by norm_num) (by omega),
    beBytes_fieldAt (w := 48) bs 32 6 (by norm_num) (by omega), beBytes_fieldAt (w := 32) bs 38 4 (by norm_num) (by omega)]
  rw [List.drop_zero, hj 6 6, hj 12 2, hj 14 2, hj 16 2, hj 18 1, hj 19 1, hj 20 2, hj 22 6, hj 28 4, hj 32 6, hj 38 4]

end Sys2Proof.Machine
end

