-- ==== Sys2Proof/Laws/Memory.lean ====
section
/-! SUPPORT. The two byte spaces: a read after a write, and the canonical form, which every write keeps. -/

namespace Sys2Proof.Machine

@[simp] theorem byteAt_nil (a : Nat) : byteAt [] a = unlistedByte := rfl

theorem byteAt_consCell (m : Memory) (a : Nat) (b : Byte) (c : Nat) (h : b = unlistedByte → byteAt m a = unlistedByte) :
    byteAt (consCell a b m) c = if c = a then b else byteAt m c := by
  unfold consCell
  split
  · rename_i hb
    split
    · rename_i hc
      rw [hc, h hb, hb]
    · rfl
  · rfl

/-- Every address listed in a canonical memory is above the first one. -/
theorem wf_cons {k : Nat} {v : Byte} {m : Memory} :
    Memory.wf ((k, v) :: m) = true ↔ v ≠ unlistedByte ∧ (∀ c ∈ m, k < c.1) ∧ Memory.wf m = true := by
  simp [Memory.wf, and_assoc]

theorem byteAt_of_forall_ne (m : Memory) (a : Nat) (h : ∀ c ∈ m, c.1 ≠ a) : byteAt m a = unlistedByte := by
  induction m with
  | nil => rfl
  | cons c m ih =>
    obtain ⟨k, v⟩ := c
    simp only [List.mem_cons, forall_eq_or_imp] at h
    simp only [byteAt, if_neg (Ne.symm h.1)]
    exact ih h.2

/-- Read after write, both places, in a canonical memory. -/
theorem byteAt_setByte (m : Memory) (hm : m.wf = true) (a : Nat) (b : Byte) (c : Nat) :
    byteAt (setByte m a b) c = if c = a then b else byteAt m c := by
  induction m with
  | nil => exact byteAt_consCell [] a b c (fun _ => rfl)
  | cons x m ih =>
    obtain ⟨k, v⟩ := x
    obtain ⟨-, hk, hm'⟩ := wf_cons.1 hm
    unfold setByte
    split
    · rename_i hak
      refine byteAt_consCell _ a b c (fun _ => byteAt_of_forall_ne _ a ?_)
      simp only [List.mem_cons, forall_eq_or_imp]
      exact ⟨by omega, fun y hy => by have := hk y hy; omega⟩
    · split
      · rename_i hak
        subst hak
        rw [byteAt_consCell m a b c (fun _ => byteAt_of_forall_ne m a fun y hy => by have := hk y hy; omega)]
        simp only [byteAt]
        split <;> rfl
      · simp only [byteAt, ih hm']
        split
        · rename_i h1 h2 h3
          subst h3
          rw [if_neg (by omega)]
        · rfl

theorem mem_consCell {m : Memory} {a : Nat} {b : Byte} {c : Host.Cell} (h : c ∈ consCell a b m) :
    c.1 = a ∨ c ∈ m := by
  unfold consCell at h
  split at h
  · exact .inr h
  · rcases List.mem_cons.1 h with rfl | h
    · exact .inl rfl
    · exact .inr h

theorem mem_setByte {m : Memory} {a : Nat} {b : Byte} {c : Host.Cell} (h : c ∈ setByte m a b) :
    c.1 = a ∨ c ∈ m := by
  induction m with
  | nil => exact mem_consCell h
  | cons x m ih =>
    obtain ⟨k, v⟩ := x
    unfold setByte at h
    split at h
    · exact mem_consCell h
    · split at h
      · exact (mem_consCell h).imp id (List.mem_cons_of_mem _)
      · rcases List.mem_cons.1 h with rfl | h
        · exact .inr List.mem_cons_self
        · exact (ih h).imp id (List.mem_cons_of_mem _)

theorem wf_consCell {m : Memory} {a : Nat} {b : Byte} (hm : m.wf = true) (ha : ∀ c ∈ m, a < c.1) :
    (consCell a b m).wf = true := by
  unfold consCell
  split
  · exact hm
  · exact wf_cons.2 ⟨‹_›, ha, hm⟩

/-- Writing a byte keeps the canonical form. -/
theorem wf_setByte {m : Memory} (hm : m.wf = true) (a : Nat) (b : Byte) : (setByte m a b).wf = true := by
  induction m with
  | nil => exact wf_consCell rfl (by simp)
  | cons x m ih =>
    obtain ⟨k, v⟩ := x
    obtain ⟨hv, hk, hm'⟩ := wf_cons.1 hm
    unfold setByte
    split
    · refine wf_consCell hm ?_
      simp only [List.mem_cons, forall_eq_or_imp]
      exact ⟨by omega, fun y hy => by have := hk y hy; omega⟩
    · split
      · exact wf_consCell hm' fun y hy => by have := hk y hy; omega
      · refine wf_cons.2 ⟨hv, fun y hy => ?_, ih hm'⟩
        rcases mem_setByte hy with h | h
        · omega
        · exact hk y h

/-- Writing a byte sequence keeps the canonical form. -/
theorem wf_setBytes {m : Memory} (hm : m.wf = true) (a : Nat) (bs : List Byte) : (setBytes m a bs).wf = true := by
  induction bs generalizing m a with
  | nil => exact hm
  | cons b bs ih => exact ih (wf_setByte hm a b) (a + 1)

theorem mem_setBytes {m : Memory} {a : Nat} {bs : List Byte} {c : Host.Cell} (h : c ∈ setBytes m a bs) :
    (a ≤ c.1 ∧ c.1 < a + bs.length) ∨ c ∈ m := by
  induction bs generalizing m a with
  | nil => exact .inr h
  | cons b bs ih =>
    rcases ih h with h | h
    · exact .inl ⟨by omega, by simp only [List.length_cons]; omega⟩
    · rcases mem_setByte h with h | h
      · exact .inl ⟨by omega, by simp only [List.length_cons]; omega⟩
      · exact .inr h

/-- Read after a write of a byte sequence: the bytes written, and every other byte as before. -/
theorem byteAt_setBytes {m : Memory} (hm : m.wf = true) (a : Nat) (bs : List Byte) (c : Nat) :
    byteAt (setBytes m a bs) c =
      if h : a ≤ c ∧ c < a + bs.length then bs[c - a]'(by omega) else byteAt m c := by
  induction bs generalizing m a with
  | nil => simp [setBytes]
  | cons b bs ih =>
    simp only [setBytes, ih (wf_setByte hm a b), byteAt_setByte m hm]
    by_cases hc : c = a
    · subst hc
      rw [dif_neg (by omega), if_pos rfl, dif_pos (by simp)]
      simp
    · by_cases hr : a + 1 ≤ c ∧ c < a + 1 + bs.length
      · rw [dif_pos hr, dif_pos ⟨by omega, by simp only [List.length_cons]; omega⟩]
        have : c - a = (c - (a + 1)) + 1 := by omega
        simp [this]
      · rw [dif_neg hr, if_neg hc, dif_neg (by simp only [List.length_cons]; omega)]

@[simp] theorem bytesFrom_length (m : Memory) (a n : Nat) : (bytesFrom m a n).length = n := by simp [bytesFrom]

@[simp] theorem bytesFrom_getElem (m : Memory) (a n k : Nat) (h : k < (bytesFrom m a n).length) :
    (bytesFrom m a n)[k] = byteAt m (a + k) := by simp [bytesFrom]

/-- The bytes just written read back as written. -/
theorem bytesFrom_setBytes {m : Memory} (hm : m.wf = true) (a : Nat) (bs : List Byte) :
    bytesFrom (setBytes m a bs) a bs.length = bs := by
  apply List.ext_getElem (by simp)
  intro k h1 h2
  rw [bytesFrom_getElem, byteAt_setBytes hm, dif_pos (by omega)]
  simp

/-- A read that lies inside a longer one. -/
theorem bytesFrom_sub (m : Memory) (a n off k : Nat) (h : off + k ≤ n) :
    bytesFrom m (a + off) k = ((bytesFrom m a n).drop off).take k := by
  apply List.ext_getElem
  · simp; omega
  intro i h1 h2
  simp [Nat.add_assoc]

/-- Two writes one after the other are one write of both sequences. -/
theorem setBytes_append (m : Memory) (a : Nat) (bs cs : List Byte) :
    setBytes m a (bs ++ cs) = setBytes (setBytes m a bs) (a + bs.length) cs := by
  induction bs generalizing m a with
  | nil => simp [setBytes]
  | cons b bs ih => simp only [List.cons_append, setBytes, ih, List.length_cons]; congr 1; omega

/-- The memory after reset is canonical. -/
theorem reset_memory_wf : State.reset.rxBuf.wf = true ∧ State.reset.txBuf.wf = true := ⟨rfl, rfl⟩

end Sys2Proof.Machine
end

