-- ==== Sys2Proof/Laws/Operands.lean ====
section
/-! SUPPORT. What MemRead, MemWrite, CLASSIFY, DECODE and ENCODE answer, said once: callers cite these and unfold none
of them. -/

namespace Sys2Proof.Machine

@[simp] theorem received_length (s : State) : (received s).length = s.rxLen := by simp [received]

/-- MemRead inside the received sequence is the field of the sequence. -/
theorem memRead_eq (addr n : Nat) (s : State) :
    memRead addr n s = if addr + n ≤ s.rxLen then .ok (fieldAt (received s) addr n) else .error .readBeyondLength := by
  unfold memRead
  split
  · rename_i h
    have := bytesFrom_sub s.rxBuf 0 s.rxLen addr n h
    rw [Nat.zero_add] at this
    rw [this]; rfl
  · rfl

/-- CLASSIFY as a function of the received sequence (R80). -/
def classOfBytes (bs : List Byte) : RxClass :=
  if bs.length < 14 then .truncated
  else if !hasArpEthertype bs then .notArp
  else if bs.length < 42 then .truncated
  else .arp

/-- R80: classification never faults. -/
theorem classifyRx_eq (s : State) : classifyRx s = .ok (classOfBytes (received s)) := by
  unfold classifyRx classOfBytes hasArpEthertype
  rw [memRead_eq, received_length]
  split
  · rfl
  · rw [if_pos (by omega)]
    simp only [Bool.not_eq_true', beq_eq_false_iff_ne]
    split
    · rfl
    · split <;> rfl

theorem classOfBytes_arp {bs : List Byte} (h : classOfBytes bs = .arp) :
    42 ≤ bs.length ∧ hasArpEthertype bs = true := by
  unfold classOfBytes at h
  split at h
  · cases h
  · split at h
    · cases h
    · split at h
      · cases h
      · simp_all

theorem readFrame_eq (s : State) (h : 42 ≤ s.rxLen) : readFrame s = .ok (frameOfBytes (received s)) := by
  have hr (addr n : Nat) (hb : addr + n ≤ 42) : memRead addr n s = .ok (fieldAt (received s) addr n) := by
    rw [memRead_eq, if_pos (by omega)]
  simp only [readFrame]
  rw [hr 0 6 (by decide), hr 6 6 (by decide), hr 12 2 (by decide), hr 14 2 (by decide), hr 16 2 (by decide),
    hr 18 1 (by decide), hr 19 1 (by decide), hr 20 2 (by decide), hr 22 6 (by decide), hr 28 4 (by decide),
    hr 32 6 (by decide), hr 38 4 (by decide)]
  rfl

/-- DECODE (R82): the frame of the received sequence if it is classified ARP, and a fault otherwise. -/
theorem decodeRx_eq (s : State) :
    decodeRx s = if classOfBytes (received s) = .arp then .ok (frameOfBytes (received s)) else .error .decodeNotArp := by
  unfold decodeRx
  rw [classifyRx_eq]
  show (if classOfBytes (received s) = .arp then readFrame s else .error .decodeNotArp) = _
  split
  · rename_i h
    have := (classOfBytes_arp h).1
    rw [received_length] at this
    exact readFrame_eq s this
  · rfl

/-- The frame class of R66 as a function of the received sequence. -/
def frameClassOfBytes (bs : List Byte) : FrameClass :=
  match classOfBytes bs with
  | .truncated => .truncated
  | .notArp => .notArp
  | .arp =>
    if (frameOfBytes bs).oper = Config.arpOpRequest then .arpRequest
    else if (frameOfBytes bs).oper = Config.arpOpReply then .arpReply
    else .arpOther

theorem fieldAt_lt (bs : List Byte) (off n : Nat) : fieldAt bs off n < 256 ^ n := by
  have h := beNat_lt ((bs.drop off).take n)
  have hl : ((bs.drop off).take n).length ≤ n := by simp
  exact lt_of_lt_of_le h (Nat.pow_le_pow_right (by decide) hl)

theorem ofNat16_fieldAt_eq (bs : List Byte) (off : Nat) (v : BitVec 16) :
    BitVec.ofNat 16 (fieldAt bs off 2) = v ↔ fieldAt bs off 2 = v.toNat := by
  have h := fieldAt_lt bs off 2
  constructor
  · rintro rfl
    rw [BitVec.toNat_ofNat, Nat.mod_eq_of_lt (by omega)]
  · intro h'
    rw [h']
    simp

theorem hasArpEthertype_iff (bs : List Byte) :
    hasArpEthertype bs = true ↔ (frameOfBytes bs).ethertype = Config.ethPArp := by
  simp only [hasArpEthertype, beq_iff_eq, frameOfBytes, ofNat16_fieldAt_eq]

theorem frameClassRx_eq (s : State) : frameClassRx s = .ok (frameClassOfBytes (received s)) := by
  unfold frameClassRx frameClassOfBytes
  rw [classifyRx_eq]
  cases hc : classOfBytes (received s) with
  | truncated => rfl
  | notArp => rfl
  | arp =>
    have := (classOfBytes_arp hc).1
    rw [received_length] at this
    simp only [memRead_eq, if_pos (show 20 + 2 ≤ s.rxLen by omega), frameOfBytes, ofNat16_fieldAt_eq]
    split
    · rfl
    · split <;> rfl

/-- ENCODE (R84): every Frame record encodes, as one write of its 42-byte image. -/
theorem encodeFrameTx_eq (f : Frame) (s : State) :
    encodeFrameTx f s = .ok { s with txBuf := setBytes s.txBuf 0 (bytesOfFrame f) } := by
  have hw (addr n v : Nat) (t : State) (h : addr + n ≤ 42) :
      memWrite addr n v t = .ok { t with txBuf := setBytes t.txBuf addr (beBytes n v) } := if_pos h
  simp only [encodeFrameTx, bytesOfFrame, setBytes_append, List.length_append, beBytes_length, Nat.zero_add,
    Nat.reduceAdd, bind, Except.bind, hw, Nat.reduceLeDiff]

/-- The received sequence after a delivery. -/
theorem received_deliver (s : State) (h : s.rxBuf.wf = true) (bs : List Byte) : received (s.deliver bs) = bs :=
  bytesFrom_setBytes h 0 bs

/-- The transmitted image after ENCODE. -/
theorem txImage_encode (s : State) (h : s.txBuf.wf = true) (f : Frame) :
    txImage { s with txBuf := setBytes s.txBuf 0 (bytesOfFrame f) } = bytesOfFrame f := by
  have hr := bytesFrom_setBytes h 0 (bytesOfFrame f)
  rw [bytesOfFrame_length] at hr
  simpa only [txImage] using hr

end Sys2Proof.Machine
end

