-- ==== Sys2Proof/Laws/WireImage.lean ====
section
/-! SUPPORT. The frame value of R63 and the wire image agree, and what a write of a byte sequence stores. -/

namespace Sys2Proof.Machine


/-- The bytes of a value put together from two parts are the bytes of the parts. -/
theorem beBytes_append (n m a b : Nat) (h : b < 256 ^ m) :
    beBytes (n + m) (a * 256 ^ m + b) = beBytes n a ++ beBytes m b := by
  induction n generalizing a with
  | zero =>
    simp only [Nat.zero_add, beBytes, List.nil_append]
    exact beBytes_congr _ _ _ (by simp)
  | succ n ih =>
    have hp : 0 < 256 ^ m := by positivity
    have hd : (a * 256 ^ m + b) / 256 ^ (n + m) = a / 256 ^ n := by
      rw [Nat.add_comm n m, pow_add, ← Nat.div_div_eq_div_mul, Nat.mul_comm a, Nat.mul_add_div hp,
        Nat.div_eq_of_lt h, Nat.add_zero]
    rw [Nat.add_right_comm]
    simp only [beBytes, hd, ih, List.cons_append]

theorem toNat_append_eq_add {w v : Nat} (a : BitVec w) (b : BitVec v) : (a ++ b).toNat = a.toNat * 2 ^ v + b.toNat := by
  rw [BitVec.toNat_append, Nat.shiftLeft_eq, Nat.mul_comm, Nat.two_pow_add_eq_or_of_lt b.isLt]

theorem beBytes_bitvec_append {w v n m : Nat} (a : BitVec w) (b : BitVec v) (h : 256 ^ m = 2 ^ v) :
    beBytes (n + m) (a ++ b).toNat = beBytes n a.toNat ++ beBytes m b.toNat := by
  rw [toNat_append_eq_add, ← h, beBytes_append]
  rw [h]; exact b.isLt

/-- The wire image is the 42 bytes of the frame value of R63. -/
theorem bytesOfFrame_eq_beBytes (f : Frame) : bytesOfFrame f = beBytes 42 (frameValue f).toNat := by
  unfold bytesOfFrame frameValue
  rw [← beBytes_bitvec_append f.ethDst f.ethSrc (by norm_num), ← beBytes_bitvec_append _ f.ethertype (by norm_num),
    ← beBytes_bitvec_append _ f.htype (by norm_num), ← beBytes_bitvec_append _ f.ptype (by norm_num),
    ← beBytes_bitvec_append _ f.hlen (by norm_num), ← beBytes_bitvec_append _ f.plen (by norm_num),
    ← beBytes_bitvec_append _ f.oper (by norm_num), ← beBytes_bitvec_append _ f.sha (by norm_num),
    ← beBytes_bitvec_append _ f.spa (by norm_num), ← beBytes_bitvec_append _ f.tha (by norm_num),
    ← beBytes_bitvec_append _ f.tpa (by norm_num)]

theorem beBytes_getElem (n v k : Nat) (h : k < (beBytes n v).length) :
    (beBytes n v)[k] = BitVec.ofNat 8 (v / 256 ^ (n - 1 - k)) := by
  induction n generalizing k with
  | zero => simp [beBytes] at h
  | succ n ih =>
    cases k with
    | zero => simp [beBytes]
    | succ k =>
      simp only [beBytes, List.getElem_cons_succ]
      rw [ih k (by simpa [beBytes] using h)]
      congr 3; omega

/-- Byte `k` of the frame value of R63 is byte `k` of the wire image. -/
theorem wireImage_eq (f : Frame) : wireImage f = bytesOfFrame f := by
  rw [bytesOfFrame_eq_beBytes]
  apply List.ext_getElem (by simp [wireImage])
  intro k h1 h2
  rw [beBytes_getElem]
  simp only [wireImage, List.getElem_map, List.getElem_range, frameByte]
  apply BitVec.eq_of_toNat_eq
  simp [BitVec.extractLsb'_toNat, Nat.shiftRight_eq_div_pow, pow_mul]

/-- What delivering a sequence, or encoding a frame, stores. -/
theorem stored_setBytes {m : Memory} (hm : m.wf = true) (bs : List Byte) : Stored m bs (setBytes m 0 bs) := by
  constructor
  · intro k hk
    rw [byteAt_setBytes hm, dif_pos (by omega)]
    simp
  · intro a ha
    rw [byteAt_setBytes hm, dif_neg (by omega)]

/-- A two-byte field, byte by byte. -/
theorem fieldAt_two (bs : List Byte) (off : Nat) (h : off + 2 ≤ bs.length) (a b : Byte) :
    fieldAt bs off 2 = a.toNat * 256 + b.toNat ↔ bs[off]? = some a ∧ bs[off + 1]? = some b := by
  have hd : (bs.drop off).take 2 = [bs[off], bs[off + 1]] := by
    rw [List.drop_eq_getElem_cons (i := off) (by omega), List.drop_eq_getElem_cons (i := off + 1) (by omega)]
    rfl
  have hx := bs[off].isLt
  have hy := bs[off + 1].isLt
  have ha := a.isLt
  have hb := b.isLt
  rw [List.getElem?_eq_getElem (by omega), List.getElem?_eq_getElem (by omega), fieldAt, hd]
  simp only [beNat, List.length_cons, List.length_nil, Option.some.injEq, BitVec.toNat_eq]
  omega

/-- R66: `ET = 0x0806`, byte by byte. -/
theorem hasArpEthertype_bytes (bs : List Byte) (h : 14 ≤ bs.length) :
    hasArpEthertype bs = true ↔ arpEthertypeBytes bs := by
  have := fieldAt_two bs 12 (by omega) 0x08 0x06
  simp only [hasArpEthertype, beq_iff_eq, arpEthertypeBytes]
  exact this

/-- A sequence with these two bytes has them. -/
theorem length_of_arpEthertypeBytes {bs : List Byte} (h : arpEthertypeBytes bs) : 14 ≤ bs.length := by
  have := (List.getElem?_eq_some_iff.1 h.2).1
  omega

end Sys2Proof.Machine
end

