-- ==== Sys2Proof/Laws/Classes.lean ====
section
/-! SUPPORT. The frame classes of R66 and R80 as conditions on the received bytes, and the record a sequence holds. -/

namespace Sys2Proof.Machine

/-- R80: a sequence is classified ARP exactly by its length and its ethertype bytes. -/
theorem classOfBytes_eq_arp (bs : List Byte) : classOfBytes bs = .arp ↔ 42 ≤ bs.length ∧ arpEthertypeBytes bs := by
  constructor
  · intro h
    obtain ⟨h1, h2⟩ := classOfBytes_arp h
    exact ⟨h1, (hasArpEthertype_bytes bs (by omega)).1 h2⟩
  · rintro ⟨h1, h2⟩
    have := (hasArpEthertype_bytes bs (by omega)).2 h2
    unfold classOfBytes
    rw [if_neg (by omega), this, if_neg (by decide), if_neg (by omega)]

theorem classOfBytes_eq_truncated (bs : List Byte) :
    classOfBytes bs = .truncated ↔ bs.length < 14 ∨ (arpEthertypeBytes bs ∧ bs.length < 42) := by
  unfold classOfBytes
  by_cases h14 : bs.length < 14
  · simp [h14]
  · have hA := hasArpEthertype_bytes bs (by omega)
    generalize arpEthertypeBytes bs = P at *
    by_cases hP : P <;> by_cases h42 : bs.length < 42 <;> simp_all

theorem classOfBytes_eq_notArp (bs : List Byte) :
    classOfBytes bs = .notArp ↔ 14 ≤ bs.length ∧ ¬ arpEthertypeBytes bs := by
  have h1 := classOfBytes_eq_truncated bs
  have h2 := classOfBytes_eq_arp bs
  have h3 : arpEthertypeBytes bs → 14 ≤ bs.length := length_of_arpEthertypeBytes
  generalize arpEthertypeBytes bs = P at *
  cases h : classOfBytes bs with
  | truncated =>
    have := h1.1 h
    simp only [reduceCtorEq, false_iff, not_and, not_not]
    intro h14
    exact this.elim (fun h => absurd h14 (by omega)) And.left
  | notArp =>
    have n1 := mt h1.2 (by simp [h])
    have n2 := mt h2.2 (by simp [h])
    simp only [true_iff]
    by_cases hP : P
    · exact absurd ⟨Nat.le_of_not_lt fun h42 => n1 (.inr ⟨hP, h42⟩), hP⟩ n2
    · exact ⟨Nat.le_of_not_lt fun h14 => n1 (.inl h14), hP⟩
  | arp => simp [(h2.1 h).2]

/-- The record of a sequence is the one whose wire image its first 42 bytes are. -/
theorem holdsFrame_iff (bs : List Byte) (h : 42 ≤ bs.length) (f : Frame) : holdsFrame bs f ↔ f = frameOfBytes bs := by
  unfold holdsFrame
  rw [wireImage_eq]
  constructor
  · intro h'
    have := List.take_append_drop 42 bs
    rw [h'] at this
    rw [← this, frameOfBytes_bytesOfFrame]
  · rintro rfl
    exact (bytesOfFrame_frameOfBytes bs h).symm

/-- The opcode of a sequence, byte by byte. -/
theorem oper_eq_iff (bs : List Byte) (h : 42 ≤ bs.length) (v : BitVec 16) (a b : Byte)
    (hv : v.toNat = a.toNat * 256 + b.toNat) :
    (frameOfBytes bs).oper = v ↔ bs[20]? = some a ∧ bs[21]? = some b := by
  simp only [frameOfBytes]
  rw [ofNat16_fieldAt_eq, hv]
  exact fieldAt_two bs 20 (by omega) a b

/-- R66: the wire image of an ARP record, with any trailing bytes, decodes by its opcode. -/
theorem decodeFrame_bytesOfFrame (f : Frame) (t : List Byte) (h : f.ethertype = Config.ethPArp) :
    decodeFrame (bytesOfFrame f ++ t) =
      if f.oper = Config.arpOpRequest then .arpRequest f t
      else if f.oper = Config.arpOpReply then .arpReply f t
      else .arpOther f t := by
  have hl : (bytesOfFrame f ++ t).length = 42 + t.length := by simp [bytesOfFrame_length]
  have hA : hasArpEthertype (bytesOfFrame f ++ t) = true := by rw [hasArpEthertype_iff, frameOfBytes_bytesOfFrame, h]
  have hd : (bytesOfFrame f ++ t).drop 42 = t := by
    have := List.drop_left (l₁ := bytesOfFrame f) (l₂ := t)
    rwa [bytesOfFrame_length] at this
  unfold decodeFrame
  rw [if_neg (by omega), hA, if_neg (by simp), if_neg (by omega), frameOfBytes_bytesOfFrame, hd]

/-- R66: the class and the bytes that a sequence decodes to. -/
theorem decodeFrame_spec (bs : List Byte) :
    frameBytesOf (decodeFrame bs) = some bs ∧ (decodeFrame bs).wellFormed = true := by
  have hE := hasArpEthertype_iff bs
  have ht : bs.take 42 ++ bs.drop 42 = bs := List.take_append_drop ..
  unfold decodeFrame
  split
  · simp_all [frameBytesOf, Instr.wellFormed]
  · split
    · simp_all [frameBytesOf, Instr.wellFormed]
    · split
      · simp_all [frameBytesOf, Instr.wellFormed]
      · have hb := bytesOfFrame_frameOfBytes bs (by omega)
        have he : (frameOfBytes bs).ethertype = Config.ethPArp := hE.1 (by simp_all)
        split
        · simp_all [frameBytesOf, Instr.wellFormed]
        · split
          · simp_all [frameBytesOf, Instr.wellFormed]
          · simp only [frameBytesOf, hb, ht, Instr.wellFormed, he, beq_self_eq_true, Bool.true_and, Bool.and_eq_true,
              bne_iff_ne, true_and]
            exact ⟨‹_›, ‹_›⟩

end Sys2Proof.Machine
end

