-- ==== Sys2Proof/Laws/State.lean ====
section
/-! SUPPORT. One lemma per field per named update of State, true by rfl, so that no later proof unfolds an update. -/

namespace Sys2Proof.Machine

variable (s : State)

@[simp] theorem setPhase_cfg (p : Phase) : (s.setPhase p).cfg = s.cfg := rfl
@[simp] theorem setPhase_localMac (p : Phase) : (s.setPhase p).localMac = s.localMac := rfl
@[simp] theorem setPhase_gwHandle (p : Phase) : (s.setPhase p).gwHandle = s.gwHandle := rfl
@[simp] theorem setPhase_phase (p : Phase) : (s.setPhase p).phase = phaseCode p := rfl
@[simp] theorem setPhase_errCode (p : Phase) : (s.setPhase p).errCode = s.errCode := rfl
@[simp] theorem setPhase_exitStatus (p : Phase) : (s.setPhase p).exitStatus = s.exitStatus := rfl
@[simp] theorem setPhase_exchCnt (p : Phase) : (s.setPhase p).exchCnt = s.exchCnt := rfl
@[simp] theorem setPhase_req (p : Phase) : (s.setPhase p).req = s.req := rfl
@[simp] theorem setPhase_tx (p : Phase) : (s.setPhase p).tx = s.tx := rfl
@[simp] theorem setPhase_result (p : Phase) : (s.setPhase p).result = s.result := rfl
@[simp] theorem setPhase_resultValid (p : Phase) : (s.setPhase p).resultValid = s.resultValid := rfl
@[simp] theorem setPhase_rxBuf (p : Phase) : (s.setPhase p).rxBuf = s.rxBuf := rfl
@[simp] theorem setPhase_rxLen (p : Phase) : (s.setPhase p).rxLen = s.rxLen := rfl
@[simp] theorem setPhase_txBuf (p : Phase) : (s.setPhase p).txBuf = s.txBuf := rfl
@[simp] theorem setPhase_pending (p : Phase) : (s.setPhase p).pending = s.pending := rfl
@[simp] theorem setPhase_pins (p : Phase) : (s.setPhase p).pins = s.pins := rfl
@[simp] theorem setPhase_env (p : Phase) : (s.setPhase p).env = s.env := rfl
@[simp] theorem setPhase_trace (p : Phase) : (s.setPhase p).trace = s.trace := rfl
@[simp] theorem setPhase_wires (p : Phase) : (s.setPhase p).wires = s.wires := rfl
@[simp] theorem setPhase_discardLabel (p : Phase) : (s.setPhase p).discardLabel = s.discardLabel := rfl
@[simp] theorem setPhase_unreadableReads (p : Phase) : (s.setPhase p).unreadableReads = s.unreadableReads := rfl

@[simp] theorem emit_cfg (o : Output) : (s.emit o).cfg = s.cfg := rfl
@[simp] theorem emit_localMac (o : Output) : (s.emit o).localMac = s.localMac := rfl
@[simp] theorem emit_gwHandle (o : Output) : (s.emit o).gwHandle = s.gwHandle := rfl
@[simp] theorem emit_phase (o : Output) : (s.emit o).phase = s.phase := rfl
@[simp] theorem emit_errCode (o : Output) : (s.emit o).errCode = s.errCode := rfl
@[simp] theorem emit_exitStatus (o : Output) : (s.emit o).exitStatus = s.exitStatus := rfl
@[simp] theorem emit_exchCnt (o : Output) : (s.emit o).exchCnt = s.exchCnt := rfl
@[simp] theorem emit_req (o : Output) : (s.emit o).req = s.req := rfl
@[simp] theorem emit_tx (o : Output) : (s.emit o).tx = s.tx := rfl
@[simp] theorem emit_result (o : Output) : (s.emit o).result = s.result := rfl
@[simp] theorem emit_resultValid (o : Output) : (s.emit o).resultValid = s.resultValid := rfl
@[simp] theorem emit_rxBuf (o : Output) : (s.emit o).rxBuf = s.rxBuf := rfl
@[simp] theorem emit_rxLen (o : Output) : (s.emit o).rxLen = s.rxLen := rfl
@[simp] theorem emit_txBuf (o : Output) : (s.emit o).txBuf = s.txBuf := rfl
@[simp] theorem emit_pending (o : Output) : (s.emit o).pending = s.pending := rfl
@[simp] theorem emit_pins (o : Output) : (s.emit o).pins = s.pins := rfl
@[simp] theorem emit_env (o : Output) : (s.emit o).env = s.env := rfl
@[simp] theorem emit_trace (o : Output) : (s.emit o).trace = s.trace ++ [o] := rfl
@[simp] theorem emit_wires (o : Output) : (s.emit o).wires = s.wires := rfl
@[simp] theorem emit_discardLabel (o : Output) : (s.emit o).discardLabel = s.discardLabel := rfl
@[simp] theorem emit_unreadableReads (o : Output) : (s.emit o).unreadableReads = s.unreadableReads := rfl

@[simp] theorem raiseFatal_cfg (c : FatalCode) : (s.raiseFatal c).cfg = s.cfg := rfl
@[simp] theorem raiseFatal_localMac (c : FatalCode) : (s.raiseFatal c).localMac = s.localMac := rfl
@[simp] theorem raiseFatal_gwHandle (c : FatalCode) : (s.raiseFatal c).gwHandle = s.gwHandle := rfl
@[simp] theorem raiseFatal_phase (c : FatalCode) : (s.raiseFatal c).phase = phaseCode .fatal := rfl
@[simp] theorem raiseFatal_errCode (c : FatalCode) : (s.raiseFatal c).errCode = fatalCode c := rfl
@[simp] theorem raiseFatal_exitStatus (c : FatalCode) : (s.raiseFatal c).exitStatus = 1 := rfl
@[simp] theorem raiseFatal_exchCnt (c : FatalCode) : (s.raiseFatal c).exchCnt = s.exchCnt := rfl
@[simp] theorem raiseFatal_req (c : FatalCode) : (s.raiseFatal c).req = s.req := rfl
@[simp] theorem raiseFatal_tx (c : FatalCode) : (s.raiseFatal c).tx = s.tx := rfl
@[simp] theorem raiseFatal_result (c : FatalCode) : (s.raiseFatal c).result = s.result := rfl
@[simp] theorem raiseFatal_resultValid (c : FatalCode) : (s.raiseFatal c).resultValid = s.resultValid := rfl
@[simp] theorem raiseFatal_rxBuf (c : FatalCode) : (s.raiseFatal c).rxBuf = s.rxBuf := rfl
@[simp] theorem raiseFatal_rxLen (c : FatalCode) : (s.raiseFatal c).rxLen = s.rxLen := rfl
@[simp] theorem raiseFatal_txBuf (c : FatalCode) : (s.raiseFatal c).txBuf = s.txBuf := rfl
@[simp] theorem raiseFatal_pending (c : FatalCode) : (s.raiseFatal c).pending = s.pending := rfl
@[simp] theorem raiseFatal_pins (c : FatalCode) : (s.raiseFatal c).pins = s.pins := rfl
@[simp] theorem raiseFatal_env (c : FatalCode) : (s.raiseFatal c).env = s.env := rfl
@[simp] theorem raiseFatal_trace (c : FatalCode) : (s.raiseFatal c).trace = s.trace ++ [.diag { kind := .error, label := 0, payload := .errCode (fatalCode c) }] := rfl
@[simp] theorem raiseFatal_wires (c : FatalCode) : (s.raiseFatal c).wires = s.wires := rfl
@[simp] theorem raiseFatal_discardLabel (c : FatalCode) : (s.raiseFatal c).discardLabel = s.discardLabel := rfl
@[simp] theorem raiseFatal_unreadableReads (c : FatalCode) : (s.raiseFatal c).unreadableReads = s.unreadableReads := rfl

@[simp] theorem discard_cfg (r : DiscardReason) : (s.discard r).cfg = s.cfg := rfl
@[simp] theorem discard_localMac (r : DiscardReason) : (s.discard r).localMac = s.localMac := rfl
@[simp] theorem discard_gwHandle (r : DiscardReason) : (s.discard r).gwHandle = s.gwHandle := rfl
@[simp] theorem discard_phase (r : DiscardReason) : (s.discard r).phase = s.phase := rfl
@[simp] theorem discard_errCode (r : DiscardReason) : (s.discard r).errCode = s.errCode := rfl
@[simp] theorem discard_exitStatus (r : DiscardReason) : (s.discard r).exitStatus = s.exitStatus := rfl
@[simp] theorem discard_exchCnt (r : DiscardReason) : (s.discard r).exchCnt = s.exchCnt := rfl
@[simp] theorem discard_req (r : DiscardReason) : (s.discard r).req = s.req := rfl
@[simp] theorem discard_tx (r : DiscardReason) : (s.discard r).tx = s.tx := rfl
@[simp] theorem discard_result (r : DiscardReason) : (s.discard r).result = s.result := rfl
@[simp] theorem discard_resultValid (r : DiscardReason) : (s.discard r).resultValid = s.resultValid := rfl
@[simp] theorem discard_rxBuf (r : DiscardReason) : (s.discard r).rxBuf = s.rxBuf := rfl
@[simp] theorem discard_rxLen (r : DiscardReason) : (s.discard r).rxLen = s.rxLen := rfl
@[simp] theorem discard_txBuf (r : DiscardReason) : (s.discard r).txBuf = s.txBuf := rfl
@[simp] theorem discard_pending (r : DiscardReason) : (s.discard r).pending = s.pending := rfl
@[simp] theorem discard_pins (r : DiscardReason) : (s.discard r).pins = s.pins := rfl
@[simp] theorem discard_env (r : DiscardReason) : (s.discard r).env = s.env := rfl
@[simp] theorem discard_trace (r : DiscardReason) : (s.discard r).trace = s.trace := rfl
@[simp] theorem discard_wires (r : DiscardReason) : (s.discard r).wires = s.wires := rfl
@[simp] theorem discard_discardLabel (r : DiscardReason) : (s.discard r).discardLabel = some r := rfl
@[simp] theorem discard_unreadableReads (r : DiscardReason) : (s.discard r).unreadableReads = s.unreadableReads := rfl

@[simp] theorem issue_cfg (c : Command) : (s.issue c).cfg = s.cfg := rfl
@[simp] theorem issue_localMac (c : Command) : (s.issue c).localMac = s.localMac := rfl
@[simp] theorem issue_gwHandle (c : Command) : (s.issue c).gwHandle = s.gwHandle := rfl
@[simp] theorem issue_phase (c : Command) : (s.issue c).phase = s.phase := rfl
@[simp] theorem issue_errCode (c : Command) : (s.issue c).errCode = s.errCode := rfl
@[simp] theorem issue_exitStatus (c : Command) : (s.issue c).exitStatus = s.exitStatus := rfl
@[simp] theorem issue_exchCnt (c : Command) : (s.issue c).exchCnt = s.exchCnt := rfl
@[simp] theorem issue_req (c : Command) : (s.issue c).req = s.req := rfl
@[simp] theorem issue_tx (c : Command) : (s.issue c).tx = s.tx := rfl
@[simp] theorem issue_result (c : Command) : (s.issue c).result = s.result := rfl
@[simp] theorem issue_resultValid (c : Command) : (s.issue c).resultValid = s.resultValid := rfl
@[simp] theorem issue_rxBuf (c : Command) : (s.issue c).rxBuf = s.rxBuf := rfl
@[simp] theorem issue_rxLen (c : Command) : (s.issue c).rxLen = s.rxLen := rfl
@[simp] theorem issue_txBuf (c : Command) : (s.issue c).txBuf = s.txBuf := rfl
@[simp] theorem issue_pending (c : Command) : (s.issue c).pending = some c := rfl
@[simp] theorem issue_pins (c : Command) : (s.issue c).pins = s.pins := rfl
@[simp] theorem issue_env (c : Command) : (s.issue c).env = s.env := rfl
@[simp] theorem issue_trace (c : Command) : (s.issue c).trace = s.trace ++ [.command c] := rfl
@[simp] theorem issue_wires (c : Command) : (s.issue c).wires = s.wires := rfl
@[simp] theorem issue_discardLabel (c : Command) : (s.issue c).discardLabel = s.discardLabel := rfl
@[simp] theorem issue_unreadableReads (c : Command) : (s.issue c).unreadableReads = s.unreadableReads := rfl

@[simp] theorem deliver_cfg (bs : List Byte) : (s.deliver bs).cfg = s.cfg := rfl
@[simp] theorem deliver_localMac (bs : List Byte) : (s.deliver bs).localMac = s.localMac := rfl
@[simp] theorem deliver_gwHandle (bs : List Byte) : (s.deliver bs).gwHandle = s.gwHandle := rfl
@[simp] theorem deliver_phase (bs : List Byte) : (s.deliver bs).phase = s.phase := rfl
@[simp] theorem deliver_errCode (bs : List Byte) : (s.deliver bs).errCode = s.errCode := rfl
@[simp] theorem deliver_exitStatus (bs : List Byte) : (s.deliver bs).exitStatus = s.exitStatus := rfl
@[simp] theorem deliver_exchCnt (bs : List Byte) : (s.deliver bs).exchCnt = s.exchCnt := rfl
@[simp] theorem deliver_req (bs : List Byte) : (s.deliver bs).req = s.req := rfl
@[simp] theorem deliver_tx (bs : List Byte) : (s.deliver bs).tx = s.tx := rfl
@[simp] theorem deliver_result (bs : List Byte) : (s.deliver bs).result = s.result := rfl
@[simp] theorem deliver_resultValid (bs : List Byte) : (s.deliver bs).resultValid = s.resultValid := rfl
@[simp] theorem deliver_rxBuf (bs : List Byte) : (s.deliver bs).rxBuf = setBytes s.rxBuf 0 bs := rfl
@[simp] theorem deliver_rxLen (bs : List Byte) : (s.deliver bs).rxLen = bs.length := rfl
@[simp] theorem deliver_txBuf (bs : List Byte) : (s.deliver bs).txBuf = s.txBuf := rfl
@[simp] theorem deliver_pending (bs : List Byte) : (s.deliver bs).pending = s.pending := rfl
@[simp] theorem deliver_pins (bs : List Byte) : (s.deliver bs).pins = s.pins := rfl
@[simp] theorem deliver_env (bs : List Byte) : (s.deliver bs).env = s.env := rfl
@[simp] theorem deliver_trace (bs : List Byte) : (s.deliver bs).trace = s.trace := rfl
@[simp] theorem deliver_wires (bs : List Byte) : (s.deliver bs).wires = s.wires := rfl
@[simp] theorem deliver_discardLabel (bs : List Byte) : (s.deliver bs).discardLabel = s.discardLabel := rfl
@[simp] theorem deliver_unreadableReads (bs : List Byte) : (s.deliver bs).unreadableReads = s.unreadableReads := rfl

end Sys2Proof.Machine
end

