-- ==== Sys2Proof/Laws/Gateway.lean ====
section
/-! SUPPORT. What a gateway command can do in one step, said once, and the engines' handling of a received sequence as an
equation over that sequence. -/

namespace Sys2Proof.Machine

/-- What awaiting an answer can do: the answer at the head of the inputs is taken, or nothing but a quiet step passes. -/
theorem awaitAnswer_cases (s : State) :
    (∃ r rest, s.env = .answer r :: rest ∧ awaitAnswer s = .answered r { s with env := rest, pending := none }) ∨
    (∃ rest, s.env = .quiet :: rest ∧ awaitAnswer s = .suspended { s with env := rest }) ∨
    ((∀ r rest, s.env ≠ .answer r :: rest) ∧ awaitAnswer s = .suspended s) := by
  unfold awaitAnswer
  split
  · exact .inl ⟨_, _, ‹_›, rfl⟩
  · exact .inr (.inl ⟨_, ‹_›, rfl⟩)
  · rename_i h _
    exact .inr (.inr ⟨fun r rest hr => h r rest hr, rfl⟩)

/-- A command that may be called is put out unless it is pending, and its answer is awaited. -/
theorem gwCall_eq (c : Command) (s : State) (h : callable c s) :
    gwCall c s = awaitAnswer { s with trace := s.trace ++ issued c s, pending := awaited c s } := by
  unfold gwCall issued awaited
  cases hp : s.pending with
  | none => rfl
  | some c' =>
    have he : { s with trace := s.trace ++ [], pending := some c' } = s := by
      rw [List.append_nil, ← hp]
    simp only [callable, hp, Option.all_some, beq_iff_eq] at h
    simp only [he, if_pos h]

/-- While another command is pending, none is issued (R101). -/
theorem gwCall_busy (c c' : Command) (s : State) (hp : s.pending = some c') (h : commandOp c' ≠ commandOp c) :
    gwCall c s = .busy := by simp [gwCall, hp, h]

/-- The responder's handling of a received sequence (R115). -/
theorem respondToRx_eq (s : State) :
    respondToRx s =
      match classOfBytes (received s) with
      | .truncated => .next (s.discard .truncated)
      | .notArp => .next (s.discard .notArp)
      | .arp =>
        match respFilterOf s.cfg (frameOfBytes (received s)) with
        | .opcodeFiltered => .next (s.discard .opcodeFiltered)
        | .targetFiltered => .next (s.discard .targetFiltered)
        | .accept => .next (s.acceptRequest (frameOfBytes (received s))) := by
  unfold respondToRx
  rw [classifyRx_eq]
  cases h : classOfBytes (received s) <;> cases h' : respFilterOf s.cfg (frameOfBytes (received s)) <;>
    simp [orFault, decodeRx_eq, h, h']

/-- The requester's handling of a received sequence (R132). -/
theorem awaitReplyRx_eq (s : State) :
    awaitReplyRx s =
      match classOfBytes (received s) with
      | .truncated => .next (s.discard .truncated)
      | .notArp => .next (s.discard .notArp)
      | .arp =>
        match reqAcceptOf s.cfg (frameOfBytes (received s)) with
        | .unmatched => .next (s.discard .unmatched)
        | .matched => .next (s.acceptResult (frameOfBytes (received s))) := by
  unfold awaitReplyRx
  rw [classifyRx_eq]
  cases h : classOfBytes (received s) <;> cases h' : reqAcceptOf s.cfg (frameOfBytes (received s)) <;>
    simp [orFault, decodeRx_eq, h, h']

/-- SEND encodes, then issues the image (R107). -/
theorem sendTx_of_pending_none (s : State) (h : s.pending = none) :
    sendTx s = sendImage { s with txBuf := setBytes s.txBuf 0 (bytesOfFrame s.tx) } := by
  simp [sendTx, h, encodeFrameTx_eq]

theorem sendTx_of_pending (s : State) {c : Command} (h : s.pending = some c) : sendTx s = sendImage s := by
  simp [sendTx, h]

end Sys2Proof.Machine
end

