-- ==== Sys2Proof/Laws/Engines.lean ====
section
/-! SUPPORT. What `receive_rx()` and `send_tx()` answer for each input of the environment, and what the engines do with a
received sequence, said once. -/

namespace Sys2Proof.Machine

/-- The state after a received sequence is taken (R108). -/
def afterRx (s : State) (rest : List EnvEvent) (bs : List Byte) : State :=
  { s with
    env := rest, pending := none, trace := s.trace ++ issued (.receive s.gwHandle s.cfg.rxMax) s,
    rxLen := bs.length, rxBuf := setBytes s.rxBuf 0 bs }

theorem receiveRx_ok {s : State} {rest : List EnvEvent} {bs : List Byte}
    (hc : callable (.receive s.gwHandle s.cfg.rxMax) s) (he : s.env = .answer (.ok (.bytes bs)) :: rest)
    (hl : bs.length ≤ s.cfg.rxMax) : receiveRx s = .go (afterRx s rest bs) := by
  simp only [receiveRx, gwCall_eq _ _ hc, awaitAnswer, he]
  rw [if_neg (by omega)]
  rfl

theorem receiveRx_tooLong {s : State} {rest : List EnvEvent} {bs : List Byte}
    (hc : callable (.receive s.gwHandle s.cfg.rxMax) s) (he : s.env = .answer (.ok (.bytes bs)) :: rest)
    (hl : s.cfg.rxMax < bs.length) : receiveRx s = .refused .answerTooLong := by
  simp only [receiveRx, gwCall_eq _ _ hc, awaitAnswer, he]
  rw [if_pos hl]

theorem receiveRx_fail {s : State} {rest : List EnvEvent} (hc : callable (.receive s.gwHandle s.cfg.rxMax) s)
    (he : s.env = .answer .fail :: rest) :
    receiveRx s = .ended (State.raiseFatal { s with
      env := rest, pending := none, trace := s.trace ++ issued (.receive s.gwHandle s.cfg.rxMax) s } .recvFail) := by
  simp only [receiveRx, gwCall_eq _ _ hc, awaitAnswer, he]

theorem received_afterRx (s : State) (rest : List EnvEvent) (bs : List Byte) (h : s.rxBuf.wf = true) :
    received (afterRx s rest bs) = bs :=
  bytesFrom_setBytes h 0 bs

/-- The state after `TX` is encoded and its SEND is put out and answered (R107). -/
def afterSend (s : State) : State :=
  { s with
    txBuf := setBytes s.txBuf 0 (wireImage s.tx)
    trace := s.trace ++ [Output.command (.send s.gwHandle (wireImage s.tx))] }

@[simp] theorem afterSend_env (s : State) : (afterSend s).env = s.env := by simp only [afterSend]
@[simp] theorem afterSend_pending (s : State) : (afterSend s).pending = s.pending := by simp only [afterSend]

/-- What `sendImage` makes of an awaited answer. -/
def ofSendReply : Reply → Flow
  | .answered .fail s => .ended (s.raiseFatal .sendFail)
  | .answered (.ok .empty) s => .go s
  | .answered (.ok _) _ => .fault .badResponse
  | .suspended s => .ended s
  | .busy => .fault .commandWhilePending

theorem sendImage_eq (s : State) : sendImage s = ofSendReply (gwCall (.send s.gwHandle (txImage s)) s) := by
  unfold sendImage
  cases gwCall (.send s.gwHandle (txImage s)) s with
  | answered r s =>
    cases r with
    | ok v => cases v <;> rfl
    | fail => rfl
  | _ => rfl

/-- With nothing pending, `send_tx()` encodes, puts the SEND out, and waits for its answer. -/
theorem sendTx_idle (s : State) (hm : s.txBuf.wf = true) (hp : s.pending = none) :
    sendTx s = ofSendReply (awaitAnswer { afterSend s with pending := some (.send s.gwHandle (wireImage s.tx)) }) := by
  have hx := txImage_encode s hm s.tx
  rw [← wireImage_eq] at hx
  rw [sendTx_of_pending_none s hp, sendImage_eq, ← wireImage_eq, hx]
  simp only [gwCall, hp, State.issue, State.emit, afterSend]

/-- While a SEND is pending, `send_tx()` waits for its answer and nothing else. -/
theorem sendTx_waiting (s : State) {h : Handle} {bs : List Byte} (hp : s.pending = some (.send h bs)) :
    sendTx s = ofSendReply (awaitAnswer s) := by
  rw [sendTx_of_pending s hp, sendImage_eq]
  simp only [gwCall, hp, commandOp, if_true]

theorem sendTx_busy (s : State) {c : Command} (hp : s.pending = some c) (h : commandOp c ≠ 3) :
    sendTx s = .fault .commandWhilePending := by
  rw [sendTx_of_pending s hp, sendImage_eq, gwCall_busy (.send s.gwHandle (txImage s)) c s hp h]
  rfl

/-- What the waiting engine answers for a sequence (R115, R132). -/
theorem engineOnRx_respond (s : State) (h : s.phase = 3) : engineOnRx s = respondToRx s := by
  simp only [engineOnRx, h]
  rfl

theorem engineOnRx_request (s : State) (h : s.phase = 6) : engineOnRx s = awaitReplyRx s := by
  simp only [engineOnRx, h]
  rfl

/-- The frame class that an instruction of the frame table stands for. -/
def classOf : Instr → Option FrameClass
  | .truncated _ => some .truncated
  | .notArp _ => some .notArp
  | .arpRequest _ _ => some .arpRequest
  | .arpReply _ _ => some .arpReply
  | .arpOther _ _ => some .arpOther
  | _ => none

/-- Every frame-class row is the arrival of its bytes. -/
theorem exec_frame {i : Instr} {c : FrameClass} {bs : List Byte} (s : State) (hc : classOf i = some c)
    (hb : frameBytesOf i = some bs) : exec i s = frameArrives c bs s := by
  cases i <;> simp only [classOf, frameBytesOf, Option.some.injEq, reduceCtorEq] at hc hb <;> subst hc hb <;> rfl

/-- The decoder gives the class that the frame classes test. -/
theorem classOf_decodeFrame (bs : List Byte) : classOf (decodeFrame bs) = some (frameClassOfBytes bs) := by
  unfold decodeFrame frameClassOfBytes classOfBytes
  split
  · rfl
  · split
    · rfl
    · split
      · rfl
      · dsimp only
        split
        · rfl
        · split <;> rfl

/-- A frame term is its class and its bytes. -/
theorem frame_eq {i j : Instr} {c : FrameClass} {bs : List Byte} (hi : classOf i = some c) (hj : classOf j = some c)
    (bi : frameBytesOf i = some bs) (bj : frameBytesOf j = some bs) : i = j := by
  have hF (f g : Frame) (t u : List Byte) (h : bytesOfFrame f ++ t = bytesOfFrame g ++ u) : f = g ∧ t = u := by
    have hf := frameOfBytes_bytesOfFrame f t
    rw [h, frameOfBytes_bytesOfFrame] at hf
    subst hf
    exact ⟨rfl, List.append_cancel_left h⟩
  cases c <;> cases i <;> simp only [classOf, Option.some.injEq, reduceCtorEq] at hi <;> cases j <;>
    simp only [classOf, Option.some.injEq, reduceCtorEq] at hj <;>
    simp only [frameBytesOf, Option.some.injEq] at bi bj <;> rw [← bj] at bi
  · rw [bi]
  · rw [bi]
  · obtain ⟨rfl, rfl⟩ := hF _ _ _ _ bi
    rfl
  · obtain ⟨rfl, rfl⟩ := hF _ _ _ _ bi
    rfl
  · obtain ⟨rfl, rfl⟩ := hF _ _ _ _ bi
    rfl

/-- A well-formed frame term is what its bytes decode to. -/
theorem decodeFrame_of_wellFormed {i : Instr} {bs : List Byte} (hb : frameBytesOf i = some bs)
    (hw : i.wellFormed = true) : decodeFrame bs = i := by
  cases i <;> simp only [frameBytesOf, Option.some.injEq, reduceCtorEq] at hb <;> subst hb
  case truncated bs =>
    simp only [Instr.wellFormed, Bool.or_eq_true, Bool.and_eq_true, decide_eq_true_eq] at hw
    unfold decodeFrame
    split
    · rfl
    · rcases hw with h | ⟨h1, h2⟩
      · omega
      · simp [h1, h2]
  case notArp bs =>
    simp only [Instr.wellFormed, Bool.and_eq_true, Bool.not_eq_true', decide_eq_true_eq] at hw
    unfold decodeFrame
    rw [if_neg (by omega), if_pos (by simp [hw.2])]
  case arpRequest f t =>
    simp only [Instr.wellFormed, Bool.and_eq_true, beq_iff_eq] at hw
    rw [decodeFrame_bytesOfFrame _ _ hw.1, if_pos hw.2]
  case arpReply f t =>
    simp only [Instr.wellFormed, Bool.and_eq_true, beq_iff_eq] at hw
    have hn : ¬ f.oper = Config.arpOpRequest := by rw [hw.2]; decide
    rw [decodeFrame_bytesOfFrame _ _ hw.1, if_neg hn, if_pos hw.2]
  case arpOther f t =>
    simp only [Instr.wellFormed, Bool.and_eq_true, beq_iff_eq, bne_iff_ne] at hw
    rw [decodeFrame_bytesOfFrame _ _ hw.1.1, if_neg hw.1.2, if_neg hw.2]

/-- R66: a frame term is well formed exactly when its bytes are of its class. -/
theorem frameClassOfBytes_iff {i : Instr} {c : FrameClass} {bs : List Byte} (hc : classOf i = some c)
    (hb : frameBytesOf i = some bs) : frameClassOfBytes bs = c ↔ i.wellFormed = true := by
  have hd := classOf_decodeFrame bs
  have hs := decodeFrame_spec bs
  constructor
  · rintro rfl
    rw [← frame_eq hd hc hs.1 hb]
    exact hs.2
  · intro hw
    rw [decodeFrame_of_wellFormed hb hw, hc] at hd
    exact (Option.some.inj hd).symm

end Sys2Proof.Machine
end

