-- ==== Sys2Proof/Laws/Flags.lean ====
section
/-! SUPPORT. When the filters of R116 and the match of R133 give each verdict. -/

namespace Sys2Proof.Machine

theorem respFilterOf_opcodeFiltered {cfg : Params} {f : Frame} :
    respFilterOf cfg f = .opcodeFiltered ↔ cfg.respOpcodeFilter = true ∧ f.oper ≠ 1 := by
  unfold respFilterOf
  split
  · simp_all
  · split <;> simp_all

theorem respFilterOf_targetFiltered {cfg : Params} {f : Frame} :
    respFilterOf cfg f = .targetFiltered ↔
      ¬ (cfg.respOpcodeFilter = true ∧ f.oper ≠ 1) ∧ cfg.respTpaFilter = true ∧ f.tpa ≠ cfg.localIp := by
  unfold respFilterOf
  split
  · simp_all
  · split <;> simp_all

theorem respFilterOf_accept {cfg : Params} {f : Frame} :
    respFilterOf cfg f = .accept ↔
      ¬ (cfg.respOpcodeFilter = true ∧ f.oper ≠ 1) ∧ ¬ (cfg.respTpaFilter = true ∧ f.tpa ≠ cfg.localIp) := by
  unfold respFilterOf
  split
  · simp_all
  · split <;> simp_all

theorem reqAcceptOf_matched {cfg : Params} {f : Frame} :
    reqAcceptOf cfg f = .matched ↔ cfg.reqMatch = false ∨ (f.oper = 2 ∧ f.spa = cfg.targetIp) := by
  unfold reqAcceptOf
  split
  · simp_all
  · split <;> simp_all

theorem reqAcceptOf_unmatched {cfg : Params} {f : Frame} :
    reqAcceptOf cfg f = .unmatched ↔ cfg.reqMatch = true ∧ ¬ (f.oper = 2 ∧ f.spa = cfg.targetIp) := by
  unfold reqAcceptOf
  split
  · simp_all
  · split <;> simp_all

end Sys2Proof.Machine
end

