-- ==== Sys2Proof/Laws/Step.lean ====
section
/-! SUPPORT. What a step can do, said once: an input edge, or the operation of the phase. -/

namespace Sys2Proof.Machine

/-- A code names the phase it encodes, and no other (R29). -/
theorem phaseOfCode_eq_some {c : BitVec 4} {p : Phase} : phaseOfCode c = some p ↔ c = phaseCode p := by
  have h : ∀ c : BitVec 4, phaseOfCode c = some p ↔ c = phaseCode p := by cases p <;> decide
  exact h c

@[simp] theorem phaseOfCode_phaseCode (p : Phase) : phaseOfCode (phaseCode p) = some p := phaseOfCode_eq_some.2 rfl

/-- Codes 10 to 15 name no phase (R29). -/
theorem phaseOfCode_eq_none {c : BitVec 4} : phaseOfCode c = none ↔ 10 ≤ c.toNat := by
  have h : ∀ c : BitVec 4, phaseOfCode c = none ↔ 10 ≤ c.toNat := by decide
  exact h c

/-- Fetch is the decoding of `PHASE` (R72). -/
theorem fetch_eq (s : State) :
    fetch s = match phaseOfCode s.phase with
      | some p => .ok (phaseInstr p)
      | none => .error .stuckPhase := by
  simp only [fetch, Sys2Proof.decode, decodePhase]
  cases phaseOfCode s.phase <;> rfl

/-- With no edge at the head of the inputs, a step is the operation that `PHASE` selects. -/
theorem step_engine (s : State) (h : engineTurn s = true) :
    step s = match fetch s with
      | .ok i => exec i s
      | .error f => .fault f := by
  unfold step
  cases he : s.env with
  | nil => cases fetch s <;> rfl
  | cons e rest =>
    cases e with
    | answer r => cases fetch s <;> rfl
    | quiet => cases fetch s <;> rfl
    | assertReset => simp [engineTurn, he] at h
    | releaseReset => simp [engineTurn, he] at h
    | setParams p => simp [engineTurn, he] at h

theorem step_phase (s : State) (h : engineTurn s = true) (p : Phase) (hp : s.phase = phaseCode p) :
    step s = exec (phaseInstr p) s := by
  rw [step_engine s h, fetch_eq, hp, phaseOfCode_phaseCode]

theorem step_stuck (s : State) (h : engineTurn s = true) (hp : 10 ≤ s.phase.toNat) : step s = .fault .stuckPhase := by
  rw [step_engine s h, fetch_eq, phaseOfCode_eq_none.2 hp]

theorem step_assertReset (s : State) {rest : List EnvEvent} (h : s.env = .assertReset :: rest) :
    step s = .next (State.assertReset { s with env := rest }) := by simp only [step, h]

theorem step_setParams (s : State) {rest : List EnvEvent} {p : Params} (h : s.env = .setParams p :: rest) :
    step s = .next { s with pins := p, env := rest } := by simp only [step, h]

theorem step_release (s : State) {rest : List EnvEvent} (h : s.env = .releaseReset :: rest) :
    step s = if s.phase = 0 then execResetRelease { s with env := rest } else .next { s with env := rest } := by
  by_cases hp : s.phase = 0
  · have : releaseInput s = some .resetRelease := if_pos hp
    simp only [step, h, this, if_pos hp, exec]
  · have : releaseInput s = none := if_neg hp
    simp only [step, h, this, if_neg hp]

/-- The inputs of a step: one of the three edges, or none of them. -/
theorem env_cases (s : State) :
    (∃ rest, s.env = .assertReset :: rest) ∨ (∃ rest, s.env = .releaseReset :: rest) ∨
    (∃ p rest, s.env = .setParams p :: rest) ∨ engineTurn s = true := by
  unfold engineTurn
  split
  · exact .inl ⟨_, ‹_›⟩
  · exact .inr (.inl ⟨_, ‹_›⟩)
  · exact .inr (.inr (.inl ⟨_, _, ‹_›⟩))
  · exact .inr (.inr (.inr rfl))

/-- All that a step which answers a next state can have done. -/
theorem step_cases {s t : State} (h : step s = .next t) :
    (∃ rest, s.env = .assertReset :: rest ∧ t = State.assertReset { s with env := rest }) ∨
    (∃ rest, s.env = .releaseReset :: rest ∧ s.phase = 0 ∧ 42 ≤ s.pins.rxMax ∧
      t = State.setPhase { State.clearRegisters { s with env := rest } with cfg := s.pins } .attach) ∨
    (∃ rest, s.env = .releaseReset :: rest ∧ s.phase ≠ 0 ∧ t = { s with env := rest }) ∨
    (∃ p rest, s.env = .setParams p :: rest ∧ t = { s with pins := p, env := rest }) ∨
    (engineTurn s = true ∧ ∃ p, s.phase = phaseCode p ∧ exec (phaseInstr p) s = .next t) := by
  rcases env_cases s with ⟨rest, he⟩ | ⟨rest, he⟩ | ⟨p, rest, he⟩ | he
  · rw [step_assertReset s he] at h
    cases h
    exact .inl ⟨rest, he, rfl⟩
  · rw [step_release s he] at h
    split at h
    · rename_i hp
      unfold execResetRelease at h
      split at h
      · cases h
      · rename_i hx
        cases h
        exact .inr (.inl ⟨rest, he, hp, by simpa using hx, rfl⟩)
    · cases h
      exact .inr (.inr (.inl ⟨rest, he, ‹_›, rfl⟩))
  · rw [step_setParams s he] at h
    cases h
    exact .inr (.inr (.inr (.inl ⟨p, rest, he, rfl⟩)))
  · refine .inr (.inr (.inr (.inr ⟨he, ?_⟩)))
    rw [step_engine s he, fetch_eq] at h
    cases hp : phaseOfCode s.phase with
    | none => simp [hp] at h
    | some p =>
      rw [hp] at h
      exact ⟨p, phaseOfCode_eq_some.1 hp, h⟩

@[simp] theorem run_zero (s : State) : run 0 s = .next s := rfl

/-- A run is a step and the rest of the run. -/
theorem run_succ (n : Nat) (s : State) :
    run (n + 1) s = match step s with
      | .next s' => run n s'
      | .fault r => .fault r
      | .refused r => .refused r := rfl

end Sys2Proof.Machine
end

