-- ==== Sys2Proof/Laws/Inversion.lean ====
section
/-! SUPPORT. Inversion: what a gateway command and the rest of its rule can have done when they answer a next state. -/

namespace Sys2Proof.Machine

/-- The inputs after a step in which the pending command was not answered. -/
def waits (s : State) (e : List EnvEvent) : Prop :=
  s.env = .quiet :: e ∨ (e = s.env ∧ ∀ r rest, s.env ≠ .answer r :: rest)

/-- The state with command `c` put out (unless it is pending) and pending, and the inputs `e` left. -/
def calling (c : Command) (s : State) (e : List EnvEvent) : State :=
  { s with trace := s.trace ++ issued c s, pending := awaited c s, env := e }

/-- The state with command `c` put out (unless it was pending) and answered, and the inputs `e` left. -/
def called (c : Command) (s : State) (e : List EnvEvent) : State :=
  { s with trace := s.trace ++ issued c s, pending := none, env := e }

theorem callable_iff (c : Command) (s : State) :
    callable c s ↔ s.pending = none ∨ ∃ c', s.pending = some c' ∧ commandOp c' = commandOp c := by
  unfold callable
  cases s.pending <;> simp

/-- All that a gateway call can do (R101). -/
theorem gwCall_cases (c : Command) (s : State) :
    (gwCall c s = .busy ∧ ¬ callable c s) ∨
    (callable c s ∧
      ((∃ r rest, s.env = .answer r :: rest ∧ gwCall c s = .answered r (called c s rest)) ∨
       (∃ e, waits s e ∧ gwCall c s = .suspended (calling c s e)))) := by
  by_cases hc : callable c s
  · refine .inr ⟨hc, ?_⟩
    rw [gwCall_eq c s hc]
    rcases awaitAnswer_cases { s with trace := s.trace ++ issued c s, pending := awaited c s } with
      ⟨r, rest, h1, h2⟩ | ⟨rest, h1, h2⟩ | ⟨h1, h2⟩
    · exact .inl ⟨r, rest, h1, h2⟩
    · exact .inr ⟨rest, .inl h1, h2⟩
    · exact .inr ⟨s.env, .inr ⟨rfl, h1⟩, h2⟩
  · refine .inl ⟨?_, hc⟩
    unfold callable at hc
    cases hp : s.pending with
    | none => simp [hp] at hc
    | some c' =>
      simp only [hp, Option.all_some, beq_iff_eq] at hc
      simp [gwCall, hp, hc]

/-- ATTACH and the rest of its rule (R104). -/
theorem attach_next {s t : State} {k : State → Outcome} (h : (attachGw s).andThen k = .next t) :
    callable (.attach s.cfg.devName) s ∧
    ((∃ v rest, s.env = .answer (.ok (.handle v)) :: rest ∧
        k { called (.attach s.cfg.devName) s rest with gwHandle := v } = .next t) ∨
     (∃ rest, s.env = .answer .fail :: rest ∧ t = State.raiseFatal (called (.attach s.cfg.devName) s rest) .attachFail) ∨
     (∃ e, waits s e ∧ t = calling (.attach s.cfg.devName) s e)) := by
  unfold attachGw at h
  rcases gwCall_cases (.attach s.cfg.devName) s with ⟨h1, -⟩ | ⟨hc, ⟨r, rest, h1, h2⟩ | ⟨e, h1, h2⟩⟩
  · simp [h1, Flow.andThen] at h
  · refine ⟨hc, ?_⟩
    rw [h2] at h
    cases r with
    | fail =>
      simp only [Flow.andThen, Host.Outcome.next.injEq] at h
      exact .inr (.inl ⟨rest, h1, h.symm⟩)
    | ok v =>
      cases v <;> simp only [Flow.andThen, reduceCtorEq] at h
      exact .inl ⟨_, rest, h1, h⟩
  · refine ⟨hc, .inr (.inr ⟨e, h1, ?_⟩)⟩
    rw [h2] at h
    simp only [Flow.andThen, Host.Outcome.next.injEq] at h
    exact h.symm

/-- QUERY_MAC and the rest of its rule (R105). -/
theorem query_next {s t : State} {k : State → Outcome} (h : (queryMacGw s).andThen k = .next t) :
    callable (.queryMac s.gwHandle) s ∧
    ((∃ v rest, s.env = .answer (.ok (.mac v)) :: rest ∧
        k { called (.queryMac s.gwHandle) s rest with localMac := v } = .next t) ∨
     (∃ rest, s.env = .answer .fail :: rest ∧ t = State.raiseFatal (called (.queryMac s.gwHandle) s rest) .queryFail) ∨
     (∃ e, waits s e ∧ t = calling (.queryMac s.gwHandle) s e)) := by
  unfold queryMacGw at h
  rcases gwCall_cases (.queryMac s.gwHandle) s with ⟨h1, -⟩ | ⟨hc, ⟨r, rest, h1, h2⟩ | ⟨e, h1, h2⟩⟩
  · simp [h1, Flow.andThen] at h
  · refine ⟨hc, ?_⟩
    rw [h2] at h
    cases r with
    | fail =>
      simp only [Flow.andThen, Host.Outcome.next.injEq] at h
      exact .inr (.inl ⟨rest, h1, h.symm⟩)
    | ok v =>
      cases v <;> simp only [Flow.andThen, reduceCtorEq] at h
      exact .inl ⟨_, rest, h1, h⟩
  · refine ⟨hc, .inr (.inr ⟨e, h1, ?_⟩)⟩
    rw [h2] at h
    simp only [Flow.andThen, Host.Outcome.next.injEq] at h
    exact h.symm

/-- RECEIVE and the rest of its rule (R108). -/
theorem receive_next {s t : State} {k : State → Outcome} (h : (receiveRx s).andThen k = .next t) :
    callable (.receive s.gwHandle s.cfg.rxMax) s ∧
    ((∃ bs rest, s.env = .answer (.ok (.bytes bs)) :: rest ∧ bs.length ≤ s.cfg.rxMax ∧
        k (afterRx s rest bs) = .next t) ∨
     (∃ rest, s.env = .answer .fail :: rest ∧
        t = State.raiseFatal (called (.receive s.gwHandle s.cfg.rxMax) s rest) .recvFail) ∨
     (∃ e, waits s e ∧ t = calling (.receive s.gwHandle s.cfg.rxMax) s e)) := by
  rcases gwCall_cases (.receive s.gwHandle s.cfg.rxMax) s with ⟨h1, -⟩ | ⟨hc, ⟨r, rest, h1, h2⟩ | ⟨e, h1, h2⟩⟩
  · simp [receiveRx, h1, Flow.andThen] at h
  · refine ⟨hc, ?_⟩
    cases r with
    | fail =>
      rw [receiveRx_fail hc h1] at h
      simp only [Flow.andThen, Host.Outcome.next.injEq] at h
      exact .inr (.inl ⟨rest, h1, h.symm⟩)
    | ok v =>
      cases v with
      | bytes bs =>
        by_cases hl : bs.length ≤ s.cfg.rxMax
        · rw [receiveRx_ok hc h1 hl] at h
          exact .inl ⟨_, rest, h1, hl, h⟩
        · rw [receiveRx_tooLong hc h1 (by omega)] at h
          simp [Flow.andThen] at h
      | _ =>
        unfold receiveRx at h
        rw [h2] at h
        simp [Flow.andThen] at h
  · refine ⟨hc, .inr (.inr ⟨e, h1, ?_⟩)⟩
    unfold receiveRx at h
    rw [h2] at h
    simp only [Flow.andThen, Host.Outcome.next.injEq] at h
    exact h.symm

/-- DETACH and the rest of its rule (R109). -/
theorem detach_next {s t : State} {k : State → Outcome} (h : (detachGw s).andThen k = .next t) :
    callable (.detach s.gwHandle) s ∧
    ((∃ r rest, s.env = .answer r :: rest ∧ k (called (.detach s.gwHandle) s rest) = .next t) ∨
     (∃ e, waits s e ∧ t = calling (.detach s.gwHandle) s e)) := by
  unfold detachGw at h
  rcases gwCall_cases (.detach s.gwHandle) s with ⟨h1, -⟩ | ⟨hc, ⟨r, rest, h1, h2⟩ | ⟨e, h1, h2⟩⟩
  · simp [h1, Flow.andThen] at h
  · rw [h2] at h
    exact ⟨hc, .inl ⟨r, rest, h1, h⟩⟩
  · refine ⟨hc, .inr ⟨e, h1, ?_⟩⟩
    rw [h2] at h
    simp only [Flow.andThen, Host.Outcome.next.injEq] at h
    exact h.symm

/-- The state with `TX` encoded, when the SEND is to be put out; while it is pending nothing is encoded again. -/
def encodedTx (s : State) : State :=
  match s.pending with
  | none => { s with txBuf := setBytes s.txBuf 0 (bytesOfFrame s.tx) }
  | some _ => s

theorem sendTx_eq (s : State) : sendTx s = sendImage (encodedTx s) := by
  unfold encodedTx
  split
  · exact sendTx_of_pending_none s ‹_›
  · exact sendTx_of_pending s ‹_›

/-- SEND and the rest of its rule (R107). -/
theorem send_next {s t : State} {k : State → Outcome} (h : (sendTx s).andThen k = .next t) :
    callable (.send s.gwHandle (txImage (encodedTx s))) s ∧
    ((∃ rest, s.env = .answer (.ok .empty) :: rest ∧
        k (called (.send s.gwHandle (txImage (encodedTx s))) (encodedTx s) rest) = .next t) ∨
     (∃ rest, s.env = .answer .fail :: rest ∧
        t = State.raiseFatal (called (.send s.gwHandle (txImage (encodedTx s))) (encodedTx s) rest) .sendFail) ∨
     (∃ e, waits s e ∧ t = calling (.send s.gwHandle (txImage (encodedTx s))) (encodedTx s) e)) := by
  have hg : (encodedTx s).gwHandle = s.gwHandle := by unfold encodedTx; split <;> rfl
  have hp : (encodedTx s).pending = s.pending := by unfold encodedTx; split <;> rfl
  have he : (encodedTx s).env = s.env := by unfold encodedTx; split <;> rfl
  rw [sendTx_eq, sendImage_eq, hg] at h
  have hcall : callable (.send s.gwHandle (txImage (encodedTx s))) (encodedTx s) ↔
      callable (.send s.gwHandle (txImage (encodedTx s))) s := by rw [callable_iff, callable_iff, hp]
  have hw (e : List EnvEvent) : waits (encodedTx s) e ↔ waits s e := by unfold waits; rw [he]
  rcases gwCall_cases (.send s.gwHandle (txImage (encodedTx s))) (encodedTx s) with
    ⟨h1, -⟩ | ⟨hc, ⟨r, rest, h1, h2⟩ | ⟨e, h1, h2⟩⟩
  · simp [h1, ofSendReply, Flow.andThen] at h
  · rw [h2] at h
    rw [he] at h1
    refine ⟨hcall.1 hc, ?_⟩
    cases r with
    | fail =>
      simp only [ofSendReply, Flow.andThen, Host.Outcome.next.injEq] at h
      exact .inr (.inl ⟨rest, h1, h.symm⟩)
    | ok v =>
      cases v <;> simp only [ofSendReply, Flow.andThen, reduceCtorEq] at h
      exact .inl ⟨rest, h1, h⟩
  · refine ⟨hcall.1 hc, .inr (.inr ⟨e, (hw e).1 h1, ?_⟩)⟩
    rw [h2] at h
    simp only [ofSendReply, Flow.andThen, Host.Outcome.next.injEq] at h
    exact h.symm

/-- What the responder can do with a received sequence (R115). -/
theorem respondToRx_next {s t : State} (h : respondToRx s = .next t) :
    (∃ r, t = s.discard r) ∨
    (classOfBytes (received s) = .arp ∧ respFilterOf s.cfg (frameOfBytes (received s)) = .accept ∧
      t = s.acceptRequest (frameOfBytes (received s))) := by
  rw [respondToRx_eq] at h
  cases hc : classOfBytes (received s) <;> rw [hc] at h <;> dsimp only at h
  · exact .inl ⟨_, (Host.Outcome.next.inj h).symm⟩
  · exact .inl ⟨_, (Host.Outcome.next.inj h).symm⟩
  · cases hv : respFilterOf s.cfg (frameOfBytes (received s)) <;> rw [hv] at h <;> dsimp only at h
    · exact .inr ⟨rfl, rfl, (Host.Outcome.next.inj h).symm⟩
    · exact .inl ⟨_, (Host.Outcome.next.inj h).symm⟩
    · exact .inl ⟨_, (Host.Outcome.next.inj h).symm⟩

/-- What the requester can do with a received sequence (R132). -/
theorem awaitReplyRx_next {s t : State} (h : awaitReplyRx s = .next t) :
    (∃ r, t = s.discard r) ∨
    (classOfBytes (received s) = .arp ∧ reqAcceptOf s.cfg (frameOfBytes (received s)) = .matched ∧
      t = s.acceptResult (frameOfBytes (received s))) := by
  rw [awaitReplyRx_eq] at h
  cases hc : classOfBytes (received s) <;> rw [hc] at h <;> dsimp only at h
  · exact .inl ⟨_, (Host.Outcome.next.inj h).symm⟩
  · exact .inl ⟨_, (Host.Outcome.next.inj h).symm⟩
  · cases hv : reqAcceptOf s.cfg (frameOfBytes (received s)) <;> rw [hv] at h <;> dsimp only at h
    · exact .inr ⟨rfl, rfl, (Host.Outcome.next.inj h).symm⟩
    · exact .inl ⟨_, (Host.Outcome.next.inj h).symm⟩

/-- What the arrival of a frame can do (R66). -/
theorem frameArrives_next {c : FrameClass} {bs : List Byte} {s t : State} (h : frameArrives c bs s = .next t) :
    (∃ g m, s.pending = some (.receive g m)) ∧ bs.length ≤ s.cfg.rxMax ∧
    ((s.phase = 3 ∧ respondToRx (State.deliver { s with pending := none } bs) = .next t) ∨
     (s.phase = 6 ∧ awaitReplyRx (State.deliver { s with pending := none } bs) = .next t)) := by
  unfold frameArrives at h
  split at h
  · rename_i g m hp
    refine ⟨⟨g, m, hp⟩, ?_⟩
    split at h
    · cases h
    · refine ⟨by omega, ?_⟩
      rw [frameClassRx_eq] at h
      simp only [orFault] at h
      split at h
      · unfold engineOnRx at h
        simp only [deliver_phase] at h
        split at h
        · rename_i hph
          exact .inl ⟨phaseOfCode_eq_some.1 hph, h⟩
        · rename_i hph
          exact .inr ⟨phaseOfCode_eq_some.1 hph, h⟩
        · cases h
      · cases h
  · cases h

/-- A frame term that answers the pending RECEIVE goes to the waiting engine when it is well formed (R66). -/
theorem exec_frame_answer {i : Instr} {c : FrameClass} {bs : List Byte} (s : State) (hm : s.rxBuf.wf = true)
    {g : Handle} {k : Nat} (hp : s.pending = some (.receive g k)) (hl : bs.length ≤ s.cfg.rxMax)
    (hc : classOf i = some c) (hb : frameBytesOf i = some bs) :
    exec i s = if i.wellFormed = true then engineOnRx (State.deliver { s with pending := none } bs)
      else .fault .frameClassMismatch := by
  rw [exec_frame s hc hb]
  simp only [frameArrives, hp]
  rw [if_neg (by omega), frameClassRx_eq, received_deliver _ (by simpa using hm)]
  simp only [orFault]
  by_cases hw : i.wellFormed = true
  · rw [if_pos ((frameClassOfBytes_iff hc hb).2 hw), if_pos hw]
  · rw [if_neg (mt (frameClassOfBytes_iff hc hb).1 hw), if_neg hw]

end Sys2Proof.Machine
end

