-- ==== Sys2Proof/Laws/PerInstr.lean ====
section
/-! SUPPORT. Per-instruction laws: whatever word decodes to an instruction, that instruction is well formed. -/

namespace Sys2Proof.Laws.DecodedWellFormed

open Sys2Proof Sys2Proof.Machine

/-- Every word that decodes to `i` decodes to a well-formed instruction. -/
def Statement (i : Instr) : Prop := ∀ e, Sys2Proof.decode e = .ok i → i.wellFormed = true

/-- A phase code decodes to a well-formed instruction (R72). -/
theorem of_phase {c : BitVec 4} {i : Instr} (h : decodePhase c = .ok i) : i.wellFormed = true := by
  unfold decodePhase at h
  split at h
  · rename_i p _
    cases h
    cases p <;> rfl
  · cases h

/-- A gateway op decodes to a well-formed instruction (R69). -/
theorem of_gateway {c : BitVec 4} {i : Instr} (h : decodeGatewayOp c = .ok i) : i.wellFormed = true := by
  unfold decodeGatewayOp at h
  split at h <;> cases h <;> rfl

/-- A diagnostic kind decodes to a well-formed instruction (R71). -/
theorem of_diag {c : BitVec 3} {i : Instr} (h : decodeDiagKind c = .ok i) : i.wellFormed = true := by
  unfold decodeDiagKind at h
  split at h <;> cases h <;> rfl

/-- What any word decodes to is well formed. -/
theorem of_word (i : Instr) : Statement i := by
  intro e h
  cases e with
  | frame bs =>
    cases h
    exact (decodeFrame_spec bs).2
  | gatewayOp op => exact of_gateway h
  | phaseCode c => exact of_phase h
  | diagKind k => exact of_diag h

theorem truncated (b : List Byte) : Statement (.truncated b) := of_word _
theorem arpRequest (f : Frame) (t : List Byte) : Statement (.arpRequest f t) := of_word _
theorem arpReply (f : Frame) (t : List Byte) : Statement (.arpReply f t) := of_word _
theorem arpOther (f : Frame) (t : List Byte) : Statement (.arpOther f t) := of_word _
theorem notArp (b : List Byte) : Statement (.notArp b) := of_word _
theorem gwAttach : Statement .gwAttach := of_word _
theorem gwQueryMac : Statement .gwQueryMac := of_word _
theorem gwSend : Statement .gwSend := of_word _
theorem gwReceive : Statement .gwReceive := of_word _
theorem gwDetach : Statement .gwDetach := of_word _
theorem phaseAttach : Statement .phaseAttach := of_word _
theorem phaseQuery : Statement .phaseQuery := of_word _
theorem phaseRespListen : Statement .phaseRespListen := of_word _
theorem phaseRespSend : Statement .phaseRespSend := of_word _
theorem phaseReqSend : Statement .phaseReqSend := of_word _
theorem phaseReqWait : Statement .phaseReqWait := of_word _
theorem phaseDetach : Statement .phaseDetach := of_word _
theorem phaseReset : Statement .phaseReset := of_word _
theorem phaseDone : Statement .phaseDone := of_word _
theorem phaseFatal : Statement .phaseFatal := of_word _
theorem classify : Statement .classify := of_word _
theorem decode : Statement .decode := of_word _
theorem encode : Statement .encode := of_word _
theorem diag (r : DiagRecord) : Statement (.diag r) := of_word _
theorem respFilter (f : Frame) : Statement (.respFilter f) := of_word _
theorem buildReply : Statement .buildReply := of_word _
theorem countExchange : Statement .countExchange := of_word _
theorem buildRequest : Statement .buildRequest := of_word _
theorem reqAccept (f : Frame) : Statement (.reqAccept f) := of_word _
theorem fatal (c : FatalCode) : Statement (.fatal c) := of_word _
theorem discard (r : DiscardReason) : Statement (.discard r) := of_word _
theorem resetRelease : Statement .resetRelease := of_word _
theorem diagRespRx : Statement .diagRespRx := of_word _
theorem diagRespTx : Statement .diagRespTx := of_word _
theorem diagReqTx : Statement .diagReqTx := of_word _
theorem diagReqRx : Statement .diagReqRx := of_word _
theorem diagError : Statement .diagError := of_word _

end Sys2Proof.Laws.DecodedWellFormed
end

