-- ==== Sys2Proof/Machine/Script.lean ====
section
/-! DEFINITION. Transaction scripts (R73, R74): the block's "programs", as lists of lines, and when one is correct. -/

namespace Sys2Proof.Machine

/-- One `NAME=value` of a `=` line: a register of 10_state.md. -/
inductive RegCheck where
  | cfg (v : Params)
  | gwHandle (v : Handle)
  | req (v : Frame)
  | tx (v : Frame)
  | phase (v : BitVec 4)
  | errCode (v : BitVec 3)
  | exitStatus (v : BitVec 8)
  | exchCnt (v : BitVec 32)
  | localMac (v : HwAddr)
  | resultValid (v : Bool)
  | result (v : Frame)
  deriving DecidableEq, Repr

/-- The register has that value. `RESULT` is unreadable while `RESULT_VALID = 0` (R24): no assertion on it holds then. -/
def RegCheck.holds (s : State) : RegCheck → Bool
  | .cfg v => s.cfg == v
  | .gwHandle v => s.gwHandle == v
  | .req v => s.req == v
  | .tx v => s.tx == v
  | .phase v => s.phase == v
  | .errCode v => s.errCode == v
  | .exitStatus v => s.exitStatus == v
  | .exchCnt v => s.exchCnt == v
  | .localMac v => s.localMac == v
  | .resultValid v => s.resultValid == v
  | .result v => s.resultValid && s.result == v

/-- The line forms of R73: `cfg`, `reset`, `>` (a command or a record), `<` with an answer, `< (none)`, and `=`. -/
inductive ScriptLine where
  | cfg (p : Params)
  | reset
  | output (o : Output)
  | answer (r : Response)
  | noAnswer
  | check (rs : List RegCheck)
  deriving DecidableEq, Repr

/-- Where a script stands: the block, and the outputs it has put out that no line has named yet. -/
structure ScriptPoint where
  block  : State
  unread : List Output
  deriving DecidableEq, Repr

/-- One step of the block on the inputs `es`; none where the model stops. -/
def ScriptPoint.advance (es : List EnvEvent) (p : ScriptPoint) : Option ScriptPoint :=
  match step { p.block with env := es } with
  | .next t =>
    some { block := { t with env := [] }, unread := p.unread ++ t.trace.drop p.block.trace.length }
  | .fault _ => none
  | .refused _ => none

/-- The next output is `o`. -/
def ScriptPoint.take (o : Output) (p : ScriptPoint) : Option ScriptPoint :=
  match p.unread with
  | [] => none
  | o' :: rest => if o' = o then some { p with unread := rest } else none

/-- One line (R73). An answer goes to the command just above it; a reset is its assertion, then its release. -/
def ScriptPoint.line (p : ScriptPoint) : ScriptLine → Option ScriptPoint
  | .cfg q => p.advance [.setParams q]
  | .reset => (p.advance [.assertReset]).bind (ScriptPoint.advance [.releaseReset])
  | .output o => if p.unread = [] then (p.advance []).bind (ScriptPoint.take o) else p.take o
  | .answer r => if p.unread = [] ∧ p.block.pending ≠ none then p.advance [.answer r] else none
  | .noAnswer => if p.unread = [] ∧ p.block.pending ≠ none then p.advance [.quiet] else none
  | .check rs => if rs.all (RegCheck.holds p.block) then some p else none

/-- A script read top to bottom. -/
def ScriptPoint.run (p : ScriptPoint) : List ScriptLine → Option ScriptPoint
  | [] => some p
  | l :: ls => (p.line l).bind fun q => ScriptPoint.run q ls

/-- R73: the block's outputs, in order, are exactly the `>` lines, and every `=` assertion holds. -/
def scriptCorrect (s : State) (ls : List ScriptLine) : Bool :=
  match ScriptPoint.run { block := s, unread := [] } ls with
  | some p => p.unread == []
  | none => false

/-- R74: the frame shorthand; the five fields that it need not give have these values. -/
def arpShorthand (ethDst ethSrc : HwAddr) (oper : BitVec 16) (sha : HwAddr) (spa : ProtoAddr) (tha : HwAddr)
    (tpa : ProtoAddr) (ethertype : BitVec 16 := 0x0806) (htype : BitVec 16 := 0x0001) (ptype : BitVec 16 := 0x0800)
    (hlen : BitVec 8 := 6) (plen : BitVec 8 := 4) : Frame :=
  { ethDst := ethDst, ethSrc := ethSrc, ethertype := ethertype, htype := htype, ptype := ptype, hlen := hlen,
    plen := plen, oper := oper, sha := sha, spa := spa, tha := tha, tpa := tpa }

end Sys2Proof.Machine
end

