-- ==== Sys2Proof/Tests/Slice0.lean ====
section
/-! SUPPORT. The model's own tests, with their expected results from the tables of 30_encoding.md and the vectors of
95_test_vectors.md, and a witness for the hypotheses of each obligation. -/

namespace Sys2Proof.Tests

open Sys2Proof Sys2Proof.Machine

set_option maxRecDepth 20000

/-! ### Named values of 95_test_vectors.md -/

/-- `REQ_IN` (L1.1). -/
def reqIn : List Byte :=
  [0xFF, 0xFF, 0xFF, 0xFF, 0xFF, 0xFF, 0x11, 0x22, 0x33, 0x44, 0x55, 0x66, 0x08, 0x06] ++
  [0x00, 0x01, 0x08, 0x00, 0x06, 0x04, 0x00, 0x01, 0x11, 0x22, 0x33, 0x44, 0x55, 0x66] ++
  [0xAC, 0x10, 0x3C, 0x9D, 0x00, 0x00, 0x00, 0x00, 0x00, 0x00, 0xAC, 0x10, 0x3C, 0xFA]

/-- The record of `REQ_IN` (L2.C2). -/
def reqInFrame : Frame :=
  { ethDst := 0xFFFFFFFFFFFF, ethSrc := 0x112233445566, ethertype := 0x0806, htype := 0x0001, ptype := 0x0800,
    hlen := 0x06, plen := 0x04, oper := 0x0001, sha := 0x112233445566, spa := 0xAC103C9D,
    tha := 0x000000000000, tpa := 0xAC103CFA }

/-- `REPLY_OUT` (L1.1). -/
def replyOut : List Byte :=
  [0x11, 0x22, 0x33, 0x44, 0x55, 0x66, 0xAA, 0xBB, 0xCC, 0xDD, 0xEE, 0xFF, 0x08, 0x06] ++
  [0x00, 0x01, 0x08, 0x00, 0x06, 0x04, 0x00, 0x02, 0xAA, 0xBB, 0xCC, 0xDD, 0xEE, 0xFF] ++
  [0xAC, 0x10, 0x3C, 0xFA, 0x11, 0x22, 0x33, 0x44, 0x55, 0x66, 0xAC, 0x10, 0x3C, 0x9D]

/-- `REQUEST` (L2.Q1). -/
def requestOut : List Byte :=
  [0xFF, 0xFF, 0xFF, 0xFF, 0xFF, 0xFF, 0xAA, 0xBB, 0xCC, 0xDD, 0xEE, 0xFF, 0x08, 0x06] ++
  [0x00, 0x01, 0x08, 0x00, 0x06, 0x04, 0x00, 0x01, 0xAA, 0xBB, 0xCC, 0xDD, 0xEE, 0xFF] ++
  [0xAC, 0x10, 0x3C, 0xFA, 0xFF, 0xFF, 0xFF, 0xFF, 0xFF, 0xFF, 0xAC, 0x10, 0x3C, 0x9D]

/-- A frame of zeros but for its ethertype and opcode bytes (L2.C1). -/
def shortFrame (et op : List Byte) : List Byte :=
  List.replicate 12 0 ++ et ++ List.replicate 6 0 ++ op ++ List.replicate 20 0

/-- The parameters of the scripts P1 and P2 (`tap0` is tag 7). -/
def cfgOf (m : Mode) : Params :=
  { mode := m, devName := { tag := 7 }, localIp := 0xAC103CFA, targetIp := 0xAC103C9D, rxMax := 1514,
    respOpcodeFilter := false, respTpaFilter := false, reqMatch := false }

/-- A block of mode `m` in phase `p`, attached as `h1` with the address `LH`, with the inputs `e` to come. -/
def block (m : Mode) (p : Phase) (e : List EnvEvent) : State :=
  { State.resetWith (cfgOf m) with phase := phaseCode p, gwHandle := { tag := 1 }, localMac := 0xAABBCCDDEEFF, env := e }

/-- The same block with a RECEIVE pending. -/
def waiting (m : Mode) (p : Phase) (e : List EnvEvent) : State :=
  { block m p e with pending := some (.receive { tag := 1 } 1514) }

/-- The block after `bs` was received. -/
def holding (bs : List Byte) : State := (block .respond .respListen []).deliver bs

/-- The next state, if there is one. -/
def after : Outcome → Option State
  | .next s => some s
  | .fault _ => none
  | .refused _ => none

/-- The fault, if there is one. -/
def faultOf : Outcome → Option Fault
  | .next _ => none
  | .fault f => some f
  | .refused _ => none

/-- The refusal, if there is one. -/
def refusalOf : Outcome → Option Refusal
  | .next _ => none
  | .fault _ => none
  | .refused r => some r

/-- The answer OK with a value, as the next input. -/
def ok (v : Value) : EnvEvent := .answer (.ok v)

/-! ### Well-formedness: one ill-formed term for each check (R66, R71) -/

theorem test_wf_truncated_too_long : (Instr.truncated reqIn).wellFormed = false := by decide
theorem test_wf_truncated_not_arp : (Instr.truncated (List.replicate 20 0)).wellFormed = false := by decide
theorem test_wf_notArp_short : (Instr.notArp (List.replicate 13 0)).wellFormed = false := by decide
theorem test_wf_notArp_is_arp : (Instr.notArp reqIn).wellFormed = false := by decide
theorem test_wf_request_opcode : (Instr.arpRequest { reqInFrame with oper := 2 } []).wellFormed = false := by decide
theorem test_wf_request_ethertype :
    (Instr.arpRequest { reqInFrame with ethertype := 0x0608 } []).wellFormed = false := by decide
theorem test_wf_reply_opcode : (Instr.arpReply reqInFrame []).wellFormed = false := by decide
theorem test_wf_other_is_request : (Instr.arpOther reqInFrame []).wellFormed = false := by decide
theorem test_wf_other_is_reply : (Instr.arpOther { reqInFrame with oper := 2 } []).wellFormed = false := by decide
theorem test_wf_diag_error_label : (Instr.diag ⟨.error, 1, .errCode 1⟩).wellFormed = false := by decide
theorem test_wf_diag_error_code : (Instr.diag ⟨.error, 0, .errCode 5⟩).wellFormed = false := by decide
theorem test_wf_diag_error_none : (Instr.diag ⟨.error, 0, .errCode 0⟩).wellFormed = false := by decide
theorem test_wf_diag_reqTx_label : (Instr.diag ⟨.reqTx, 1, .frame reqInFrame⟩).wellFormed = false := by decide
theorem test_wf_diag_reqRx_label : (Instr.diag ⟨.reqRx, 1, .frame reqInFrame⟩).wellFormed = false := by decide
theorem test_wf_diag_payload : (Instr.diag ⟨.respTx, 1, .errCode 1⟩).wellFormed = false := by decide
theorem test_wf_diag_good : (Instr.diag ⟨.respRx, 1, .frame reqInFrame⟩).wellFormed = true := by decide

/-! ### Decoding: words from the tables of R66, R69, R71 and R72 -/

theorem test_decode_phase_reset : decode (.phaseCode 0b0000) = .ok .phaseReset := by decide
theorem test_decode_phase_attach : decode (.phaseCode 0b0001) = .ok .phaseAttach := by decide
theorem test_decode_phase_query : decode (.phaseCode 0b0010) = .ok .phaseQuery := by decide
theorem test_decode_phase_respListen : decode (.phaseCode 0b0011) = .ok .phaseRespListen := by decide
theorem test_decode_phase_respSend : decode (.phaseCode 0b0100) = .ok .phaseRespSend := by decide
theorem test_decode_phase_reqSend : decode (.phaseCode 0b0101) = .ok .phaseReqSend := by decide
theorem test_decode_phase_reqWait : decode (.phaseCode 0b0110) = .ok .phaseReqWait := by decide
theorem test_decode_phase_detach : decode (.phaseCode 0b0111) = .ok .phaseDetach := by decide
theorem test_decode_phase_done : decode (.phaseCode 0b1000) = .ok .phaseDone := by decide
theorem test_decode_phase_fatal : decode (.phaseCode 0b1001) = .ok .phaseFatal := by decide
theorem test_decode_phase_unused : ∀ c : BitVec 4, 10 ≤ c.toNat → decode (.phaseCode c) = .error .unenteredPhase := by
  decide
theorem test_decode_gw_attach : decode (.gatewayOp 0b0001) = .ok .gwAttach := by decide
theorem test_decode_gw_queryMac : decode (.gatewayOp 0b0010) = .ok .gwQueryMac := by decide
theorem test_decode_gw_send : decode (.gatewayOp 0b0011) = .ok .gwSend := by decide
theorem test_decode_gw_receive : decode (.gatewayOp 0b0100) = .ok .gwReceive := by decide
theorem test_decode_gw_detach : decode (.gatewayOp 0b0101) = .ok .gwDetach := by decide
theorem test_decode_gw_unused :
    ∀ c : BitVec 4, c = 0 ∨ 6 ≤ c.toNat → decode (.gatewayOp c) = .error .unusedGatewayOp := by decide
theorem test_decode_diag_respRx : decode (.diagKind 0b001) = .ok .diagRespRx := by decide
theorem test_decode_diag_respTx : decode (.diagKind 0b010) = .ok .diagRespTx := by decide
theorem test_decode_diag_reqTx : decode (.diagKind 0b011) = .ok .diagReqTx := by decide
theorem test_decode_diag_reqRx : decode (.diagKind 0b100) = .ok .diagReqRx := by decide
theorem test_decode_diag_error : decode (.diagKind 0b101) = .ok .diagError := by decide
theorem test_decode_diag_unused :
    ∀ c : BitVec 3, c = 0 ∨ 6 ≤ c.toNat → decode (.diagKind c) = .error .unusedDiagKind := by decide

/-- L2.C1 rows 1 and 2. -/
theorem test_decode_truncated_short :
    decode (.frame []) = .ok (.truncated []) ∧
    decode (.frame (reqIn.take 13)) = .ok (.truncated (reqIn.take 13)) := by decide
/-- L2.C1 rows 4 and 5. -/
theorem test_decode_truncated_arp :
    decode (.frame (reqIn.take 14)) = .ok (.truncated (reqIn.take 14)) ∧
    decode (.frame (reqIn.take 41)) = .ok (.truncated (reqIn.take 41)) := by decide
/-- L2.C1 rows 3 and 10: 14 bytes of another ethertype, and the ARP ethertype with its bytes swapped. -/
theorem test_decode_notArp :
    decode (.frame (List.replicate 12 0 ++ [0x08, 0x00])) = .ok (.notArp (List.replicate 12 0 ++ [0x08, 0x00])) ∧
    decode (.frame (shortFrame [0x06, 0x08] [0x00, 0x01])) = .ok (.notArp (shortFrame [0x06, 0x08] [0x00, 0x01])) := by
  decide
/-- L2.C2, and L2.C3's trailing bytes. -/
theorem test_decode_arpRequest :
    decode (.frame reqIn) = .ok (.arpRequest reqInFrame []) ∧
    decode (.frame (reqIn ++ List.replicate 18 0)) = .ok (.arpRequest reqInFrame (List.replicate 18 0)) := by
  decide
/-- L2.R2's input is `REPLY_OUT`'s opcode class: bytes 20 and 21 are `00 02`. -/
theorem test_decode_arpReply :
    decode (.frame replyOut) = .ok (.arpReply
      { ethDst := 0x112233445566, ethSrc := 0xAABBCCDDEEFF, ethertype := 0x0806, htype := 0x0001, ptype := 0x0800,
        hlen := 0x06, plen := 0x04, oper := 0x0002, sha := 0xAABBCCDDEEFF, spa := 0xAC103CFA,
        tha := 0x112233445566, tpa := 0xAC103C9D } []) := by decide
/-- L2.C1 rows 8 and 9: opcodes `00 00` and `FF FF`. -/
theorem test_decode_arpOther :
    decode (.frame (shortFrame [0x08, 0x06] [0x00, 0x00])) =
      .ok (.arpOther { zeroFrame with ethertype := 0x0806 } []) ∧
    decode (.frame (shortFrame [0x08, 0x06] [0xFF, 0xFF])) =
      .ok (.arpOther { zeroFrame with ethertype := 0x0806, oper := 0xFFFF } []) := by decide

/-- The table's words: K = 0x08060001 is ARP_REQUEST, K = 0x00000000 is NOT_ARP, code 6 is PHASE_REQ_WAIT, and an
unused code is rejected. -/
theorem test_decodeTableWord :
    decodeTableWord 32 0x08060001 = some (.arpRequest { zeroFrame with ethertype := 0x0806, oper := 1 } []) ∧
    decodeTableWord 32 0x00000000 = some (.notArp (List.replicate 42 0)) ∧
    decodeTableWord 8 6 = some .phaseReqWait ∧ decodeTableWord 8 10 = none := by decide

/-- The very next step after `withFetchWord` runs that instruction: an ARP reply is answered, and REQ_SEND waits. -/
theorem test_withFetchWord :
    (after (step (State.reset.withFetchWord 32 0x08060002))).map State.phase = some 4 ∧
    (after (step (State.reset.withFetchWord 8 5))).map State.phase = some 5 := by decide

/-! ### Codec (L2.C) -/

/-- L2.C1 rows 3, 5, 6, 12. -/
theorem test_classify :
    classifyRx (holding (List.replicate 12 0 ++ [0x08, 0x00])) = .ok .notArp ∧
    classifyRx (holding (reqIn.take 41)) = .ok .truncated ∧ classifyRx (holding reqIn) = .ok .arp ∧
    classifyRx (holding (reqIn ++ List.replicate 18 0)) = .ok .arp := by decide
theorem test_exec_classify :
    (after (exec .classify (holding reqIn))).map (fun s => s.wires.rxClass) = some (some .arp) := by decide
/-- L2.C2. -/
theorem test_exec_decode :
    (after (exec .decode (holding reqIn))).map (fun s => s.wires.decoded) = some (some reqInFrame) := by decide
/-- R82: a decode of a truncated sequence faults. -/
theorem test_exec_decode_fault : faultOf (exec .decode (holding (reqIn.take 41))) = some .decodeNotArp := by decide
/-- L2.C4: all zeros, and the record of L2.C2. -/
theorem test_exec_encode :
    (after (exec .encode { block .respond .respSend [] with tx := zeroFrame })).map txImage =
      some (List.replicate 42 0) ∧
    (after (exec .encode { block .respond .respSend [] with tx := reqInFrame })).map txImage = some reqIn := by
  decide
/-- R45: a read past the length faults, and one inside it is big-endian. -/
theorem test_memRead :
    memRead 12 2 (holding reqIn) = .ok 0x0806 ∧
    memRead 41 2 (holding reqIn) = .error .readBeyondLength := by decide
/-- R46: the last four bytes, and a write past the end. -/
theorem test_memWrite :
    ((memWrite 38 4 0xAC103C9D (block .respond .respSend [])).toOption.map fun s => bytesFrom s.txBuf 38 4) =
      some [0xAC, 0x10, 0x3C, 0x9D] ∧
    memWrite 39 4 0 (block .respond .respSend []) = .error .writeBeyondBuffer := by decide
/-- R85 (2): decoding then encoding `REQ_IN`, with the codec's byte helpers. -/
theorem test_bytesOfFrame : bytesOfFrame reqInFrame = reqIn ∧ frameOfBytes reqIn = reqInFrame := by decide
/-- L2.C6. -/
theorem test_exec_diag :
    (after (exec (.diag ⟨.respRx, 5, .frame reqInFrame⟩) (block .respond .respSend []))).map State.trace =
      some [.diag ⟨.respRx, 5, .frame reqInFrame⟩] := by decide

/-! ### Gateway (L2.G) -/

/-- G1. -/
theorem test_G1 :
    (after (exec .phaseAttach (block .respond .attach [ok (.handle { tag := 9 })]))).map
      (fun s => (s.gwHandle.tag, s.phase)) = some (9, 2) := by decide
/-- G2. -/
theorem test_G2 :
    (after (exec .phaseAttach (block .respond .attach [.answer .fail]))).map
      (fun s => (s.phase, s.errCode, s.exitStatus, s.trace)) =
    some (9, 1, 1, [.command (.attach { tag := 7 }), .diag ⟨.error, 0, .errCode 1⟩]) := by decide
/-- G3, in both modes. -/
theorem test_G3 :
    (after (exec .phaseQuery (block .respond .query [ok (.mac 0xAABBCCDDEEFF)]))).map
      (fun s => (s.localMac, s.phase)) = some (0xAABBCCDDEEFF, 3) ∧
    (after (exec .phaseQuery (block .request .query [ok (.mac 0xAABBCCDDEEFF)]))).map State.phase = some 5 := by
  decide
/-- G4 and G5. -/
theorem test_G4_G5 :
    (after (exec .phaseQuery (block .respond .query [.answer .fail]))).map (fun s => (s.phase, s.errCode)) = some (9, 2) ∧
    (after (exec .gwQueryMac (block .respond .query [ok (.mac 0)]))).map State.localMac = some 0 := by decide
/-- G6. -/
theorem test_G6 :
    (after (exec .phaseRespListen (block .respond .respListen [.answer .fail]))).map (fun s => (s.phase, s.errCode)) =
      some (9, 4) := by decide
/-- G7: the two records stand. -/
theorem test_G7 :
    (after (exec .phaseRespSend (block .respond .respSend [.answer .fail]))).map
      (fun s => (s.phase, s.errCode, s.trace.length)) = some (9, 3, 4) := by decide
/-- G8. -/
theorem test_G8 :
    (after (exec .phaseDetach (block .request .detach [.answer .fail]))).map (fun s => (s.phase, s.exitStatus)) =
      some (8, 0) := by decide
/-- G9: no answer. -/
theorem test_G9 :
    (after (exec .phaseReqWait (waiting .request .reqWait []))).map (fun s => (s.phase, s.trace)) = some (6, []) := by
  decide
/-- G10, with `P_RX_MAX = 42`. -/
theorem test_G10 :
    refusalOf (exec .gwReceive { block .respond .respListen [ok (.bytes (reqIn ++ [0]))] with
      cfg := { cfgOf .respond with rxMax := 42 } }) = some .answerTooLong := by decide
/-- R69: the image that a SEND of the zero record hands over, and the handle. -/
theorem test_exec_gwSend :
    (after (exec .gwSend (block .respond .respSend [ok .empty]))).map State.trace =
      some [.command (.send { tag := 1 } (List.replicate 42 0))] := by decide
theorem test_exec_gwAttach_misuse :
    faultOf (exec .gwAttach (waiting .respond .respListen [])) = some .commandWhilePending ∧
    faultOf (exec .gwAttach (block .respond .attach [ok .empty])) = some .badResponse := by decide
theorem test_exec_gwDetach :
    (after (exec .gwDetach (block .request .detach [ok .empty]))).map (fun s => (s.phase, s.trace)) =
      some (7, [.command (.detach { tag := 1 })]) := by decide

/-! ### Responder (L2.R) -/

/-- L2.R0 and L2.R2: the reply to `REQ_IN`, and to the same frame with opcode 2, is `REPLY_OUT`. -/
theorem test_R0_R2 :
    (after (exec .buildReply { block .respond .respListen [] with req := reqInFrame })).map (fun s => bytesOfFrame s.tx) =
      some replyOut ∧
    (after (exec .buildReply { block .respond .respListen [] with req := { reqInFrame with oper := 2 } })).map
      (fun s => bytesOfFrame s.tx) = some replyOut := by decide
/-- L2.R3: non-standard header fields are copied. -/
theorem test_R3 :
    (after (exec .buildReply { block .respond .respListen [] with
      req := { reqInFrame with htype := 6, hlen := 8, plen := 16, oper := 7 } })).map
      (fun s => (bytesOfFrame s.tx).drop 14 |>.take 8) = some [0x00, 0x06, 0x08, 0x00, 0x08, 0x10, 0x00, 0x02] := by
  decide
/-- L2.R6 rows 2, 3, 4, 5, 6. -/
theorem test_R6 :
    respFilterOf { cfgOf .respond with respOpcodeFilter := true } { reqInFrame with tpa := 0x0A000001 } = .accept ∧
    respFilterOf { cfgOf .respond with respOpcodeFilter := true } { reqInFrame with oper := 2 } = .opcodeFiltered ∧
    respFilterOf { cfgOf .respond with respTpaFilter := true } { reqInFrame with tpa := 0x0A000001 } = .targetFiltered ∧
    respFilterOf { cfgOf .respond with respTpaFilter := true } { reqInFrame with oper := 2 } = .accept ∧
    respFilterOf { cfgOf .respond with respOpcodeFilter := true, respTpaFilter := true }
      { reqInFrame with oper := 3, tpa := 0x0A000001 } = .opcodeFiltered := by decide
theorem test_exec_respFilter :
    (after (exec (.respFilter reqInFrame) (block .respond .respListen []))).map (fun s => s.wires.respVerdict) =
      some (some .accept) := by decide
/-- L2.R7: the wrap. -/
theorem test_R7 :
    (after (exec .countExchange { block .respond .respListen [] with exchCnt := 0xFFFFFFFF })).map State.exchCnt =
      some 0 := by decide
/-- P1: `REQ_IN` is accepted, and the 20-byte frame of another ethertype is discarded. -/
theorem test_respListen :
    (after (exec .phaseRespListen (block .respond .respListen [ok (.bytes reqIn)]))).map
      (fun s => (s.phase, s.exchCnt, bytesOfFrame s.tx)) = some (4, 1, replyOut) ∧
    (after (exec .phaseRespListen (block .respond .respListen [ok (.bytes (shortFrame [0x08, 0x00] []))]))).map
      (fun s => (s.phase, s.exchCnt, s.discardLabel)) = some (3, 0, some .notArp) := by decide
/-- P1: the reply goes out after both records. -/
theorem test_respSend :
    (after (exec .phaseRespSend { block .respond .respSend [ok .empty] with
      req := reqInFrame, tx := replyTo 0xAABBCCDDEEFF reqInFrame, exchCnt := 1 })).map
      (fun s => (s.phase, s.trace)) =
    some (3, [.diag ⟨.respRx, 1, .frame reqInFrame⟩, .diag ⟨.respTx, 1, .frame (frameOfBytes replyOut)⟩,
      .command (.send { tag := 1 } replyOut)]) := by decide
/-- The frame classes: `REQ_IN` drives the listening responder, and a truncated one is discarded. -/
theorem test_exec_arpRequest :
    (after (exec (.arpRequest reqInFrame []) (waiting .respond .respListen []))).map
      (fun s => (s.phase, s.exchCnt, s.pending)) = some (4, 1, none) := by decide
theorem test_exec_arpReply :
    (after (exec (.arpReply { reqInFrame with oper := 2 } []) { waiting .respond .respListen [] with
      cfg := { cfgOf .respond with respOpcodeFilter := true } })).map (fun s => (s.phase, s.discardLabel)) =
      some (3, some .opcodeFiltered) := by decide
theorem test_exec_arpOther :
    (after (exec (.arpOther { reqInFrame with oper := 7 } []) (waiting .respond .respListen []))).map State.phase =
      some 4 := by decide
theorem test_exec_truncated :
    (after (exec (.truncated (reqIn.take 41)) (waiting .respond .respListen []))).map
      (fun s => (s.phase, s.rxLen, s.discardLabel)) = some (3, 41, some .truncated) ∧
    faultOf (exec (.truncated reqIn) (waiting .respond .respListen [])) = some .frameClassMismatch := by decide
theorem test_exec_notArp :
    (after (exec (.notArp (shortFrame [0x86, 0xDD] [])) (waiting .request .reqWait []))).map
      (fun s => (s.phase, s.resultValid)) = some (6, false) ∧
    refusalOf (exec (.notArp (shortFrame [0x86, 0xDD] [])) (block .request .reqWait [])) = some .unsolicitedFrame := by
  decide

/-! ### Requester (L2.Q) -/

/-- L2.Q1. -/
theorem test_Q1 :
    (after (exec .buildRequest (block .request .reqSend []))).map (fun s => bytesOfFrame s.tx) = some requestOut := by
  decide
/-- L2.Q2 rows 1, 3, 4, 5. -/
theorem test_Q2 :
    reqAcceptOf (cfgOf .request) { reqInFrame with spa := 0xAC103CFA } = .matched ∧
    reqAcceptOf { cfgOf .request with reqMatch := true } { reqInFrame with oper := 2 } = .matched ∧
    reqAcceptOf { cfgOf .request with reqMatch := true } { reqInFrame with oper := 2, spa := 0x0A000001 } = .unmatched ∧
    reqAcceptOf { cfgOf .request with reqMatch := true } reqInFrame = .unmatched := by decide
theorem test_exec_reqAccept :
    (after (exec (.reqAccept reqInFrame) (block .request .reqWait []))).map (fun s => s.wires.reqVerdict) =
      some (some .matched) := by decide
/-- P2: the request goes out after its record. -/
theorem test_reqSend :
    (after (exec .phaseReqSend (block .request .reqSend [ok .empty]))).map (fun s => (s.phase, s.trace)) =
      some (6, [.diag ⟨.reqTx, 0, .frame (frameOfBytes requestOut)⟩, .command (.send { tag := 1 } requestOut)]) := by
  decide
/-- P2: the padded reply is accepted, and its padding is ignored. -/
theorem test_reqWait :
    (after (exec .phaseReqWait (block .request .reqWait [ok (.bytes (replyOut ++ List.replicate 18 0))]))).map
      (fun s => (s.phase, s.resultValid, bytesOfFrame s.result)) = some (7, true, replyOut) := by decide

/-! ### Errors, discards, reset, records -/

theorem test_exec_fatal :
    (after (exec (.fatal .recvFail) (block .request .reqWait []))).map
      (fun s => (s.phase, s.errCode, s.exitStatus, s.trace)) =
    some (9, 4, 1, [.diag ⟨.error, 0, .errCode 4⟩]) := by decide
/-- R144: the values of the labels. -/
theorem test_discard_codes :
    [DiscardReason.truncated, .notArp, .opcodeFiltered, .targetFiltered, .unmatched].map discardCode = [1, 2, 3, 4, 5] := by
  decide
theorem test_exec_discard :
    (after (exec (.discard .unmatched) (block .request .reqWait []))).map (fun s => (s.phase, s.trace)) =
      some (6, []) := by decide
/-- L2.X1. -/
theorem test_X1 :
    (after (exec .resetRelease { block .respond .fatal [] with
      phase := 0, errCode := 3, exitStatus := 1, exchCnt := 7, resultValid := true, pins := cfgOf .request })).map
      (fun s => (s.phase, s.errCode, s.exitStatus, s.exchCnt, s.resultValid, s.cfg)) =
    some (1, 0, 0, 0, false, cfgOf .request) := by decide
/-- R167. -/
theorem test_resetRelease_refused :
    refusalOf (exec .resetRelease { block .respond .reset [] with pins := { cfgOf .respond with rxMax := 41 } }) =
      some .rxMaxBelow42 := by decide
/-- L2.X2: reset asserted with a RECEIVE pending, and the late answer to it in RESET. -/
theorem test_X2 :
    (after (step { waiting .respond .respListen [.assertReset] with exchCnt := 7 })).map
      (fun s => (s.phase, s.exchCnt, s.pending)) = some (0, 0, none) ∧
    (after (step (block .respond .reset [ok (.bytes reqIn)]))).map (fun s => (s.phase, s.trace, s.env)) =
      some (0, [], []) := by decide
/-- R29: a stuck phase. -/
theorem test_stuck : faultOf (step { block .respond .reset [] with phase := 10 }) = some .stuckPhase := by decide
theorem test_exec_phaseReset :
    (after (exec .phaseReset (block .respond .reset [.answer .fail]))).map (fun s => (s.phase, s.errCode)) =
      some (0, 0) := by decide
theorem test_exec_phaseDone :
    (after (exec .phaseDone (block .request .done []))).map (fun s => (s.phase, s.trace)) = some (8, []) := by
  decide
theorem test_exec_phaseFatal :
    (after (exec .phaseFatal (block .respond .fatal []))).map (fun s => (s.phase, s.trace)) = some (9, []) := by
  decide
theorem test_exec_diagRespRx :
    (after (exec .diagRespRx { block .respond .respSend [] with exchCnt := 5, req := reqInFrame })).map State.trace =
      some [.diag ⟨.respRx, 5, .frame reqInFrame⟩] := by decide
theorem test_exec_diagRespTx :
    (after (exec .diagRespTx { block .respond .respSend [] with exchCnt := 5, tx := reqInFrame })).map State.trace =
      some [.diag ⟨.respTx, 5, .frame reqInFrame⟩] := by decide
theorem test_exec_diagReqTx :
    (after (exec .diagReqTx { block .request .reqSend [] with exchCnt := 5, tx := reqInFrame })).map State.trace =
      some [.diag ⟨.reqTx, 0, .frame reqInFrame⟩] := by decide
theorem test_exec_diagReqRx :
    (after (exec .diagReqRx { block .request .reqWait [] with result := reqInFrame, resultValid := true })).map
      State.trace = some [.diag ⟨.reqRx, 0, .frame reqInFrame⟩] ∧
    (after (exec .diagReqRx (block .request .reqWait []))).map (fun s => (s.trace.length, s.unreadableReads)) =
      some (1, 1) := by decide
theorem test_exec_diagError :
    (after (exec .diagError { block .request .fatal [] with errCode := 4 })).map State.trace =
      some [.diag ⟨.error, 0, .errCode 4⟩] ∧
    faultOf (exec .diagError { block .request .fatal [] with errCode := 5 }) = some .illegalErrCode := by decide

/-! ### Scripts (R73, R74) -/

/-- L2.G8 as a script: the lines as they should be, and one output that the block does not put out. -/
theorem test_scriptCorrect :
    scriptCorrect (block .request .detach [])
      [.output (.command (.detach { tag := 1 })), .answer .fail, .check [.phase 8, .exitStatus 0]] = true ∧
    scriptCorrect (block .request .detach []) [.output (.command (.queryMac { tag := 1 }))] = false := by decide
/-- R24: no assertion on `RESULT` holds while `RESULT_VALID = 0`, not even one on what the register holds. -/
theorem test_script_result :
    scriptCorrect (block .request .reqWait []) [.check [.result zeroFrame]] = false ∧
    scriptCorrect { block .request .detach [] with resultValid := true } [.check [.result zeroFrame]] = true := by decide
/-- L2.P3: the shorthand that expands to `REQ_IN`. -/
theorem test_arpShorthand :
    bytesOfFrame (arpShorthand 0xFFFFFFFFFFFF 0x112233445566 1 0x112233445566 0xAC103C9D 0 0xAC103CFA) = reqIn := by
  decide

/-! ### Witnesses: states and operands that meet the hypotheses of the obligations -/

theorem witness_EncodedInstructionDecodesBack :
    (Instr.arpOther { reqInFrame with oper := 0xFFFF } [0x01]).wellFormed = true ∧
    encode (.arpOther { reqInFrame with oper := 0xFFFF } [0x01]) =
      some (.frame (bytesOfFrame { reqInFrame with oper := 0xFFFF } ++ [0x01])) := by decide
/-- A read that ends with the sequence, and one that goes past it by one byte. -/
theorem witness_MemReadIsBigEndianOrFaults :
    38 + 4 ≤ (holding reqIn).rxLen ∧ (holding reqIn).rxLen < 39 + 4 := by decide
/-- A write that ends with the space, and one that goes past it by one byte. -/
theorem witness_MemWriteIsBigEndianAndLocal :
    (block .respond .respSend []).txBuf.wf = true ∧ 38 + 4 ≤ 42 ∧ 42 < 39 + 4 := by decide
theorem witness_DecodeReadsEachFieldAtItsOffset :
    (42 ≤ (holding reqIn).rxLen ∧ arpEthertypeBytes (received (holding reqIn))) ∧
    ¬ (42 ≤ (holding (reqIn.take 41)).rxLen ∧ arpEthertypeBytes (received (holding (reqIn.take 41)))) := by decide
theorem witness_TrailingBytesDoNotChangeDecode :
    42 ≤ (holding reqIn).rxLen ∧ 42 ≤ (holding (reqIn ++ [0xFF])).rxLen ∧
    ∀ k, k < 42 → byteAt (holding reqIn).rxBuf k = byteAt (holding (reqIn ++ [0xFF])).rxBuf k := by decide
theorem witness_EncodeWritesTheWireImage : (block .respond .respSend []).txBuf.wf = true := by decide
/-- The image of `REQ_IN` in both buffers, and the image of a record that is not ARP. -/
theorem witness_CodecRoundTrips :
    (let t := { block .respond .respSend [] with tx := reqInFrame }
     t.txBuf.wf = true ∧ (after (exec .encode t)).map State.txBuf = some (holding reqIn).rxBuf ∧
       42 ≤ (holding reqIn).rxLen ∧ t.tx.ethertype = 0x0806 ∧
       (after (exec .decode (holding reqIn))).map (fun s => s.wires.decoded) = some (some t.tx)) ∧
    ({ block .respond .respSend [] with tx := zeroFrame }).tx.ethertype ≠ 0x0806 := by decide
theorem witness_NumericFieldsSurviveEncoding : (block .request .reqSend []).txBuf.wf = true := by decide
/-- Both values of `RESULT_VALID`, and `ERR_CODE` on both sides of its limit. -/
theorem witness_DiagRowsCarryLabelAndPayload :
    ({ block .request .reqWait [] with resultValid := true }).resultValid = true ∧
    (block .request .reqWait []).resultValid = false ∧
    ({ block .request .fatal [] with errCode := 4 }).errCode.toNat ≤ 4 ∧
    4 < ({ block .request .fatal [] with errCode := 5 }).errCode.toNat := by decide

/-- Both answers, with the command not issued yet and with it pending. -/
theorem witness_AttachLatchesHandleOrFails :
    (let s := block .respond .attach [ok (.handle { tag := 9 })]
     callable (.attach s.cfg.devName) s ∧ s.env = [.answer (.ok (.handle { tag := 9 }))]) ∧
    (let s := { block .respond .attach [.answer .fail] with pending := some (.attach { tag := 7 }) }
     callable (.attach s.cfg.devName) s ∧ s.env = [.answer .fail]) := by decide
theorem witness_QueryStoresAddressAndSelectsEngine :
    (let s := block .respond .query [ok (.mac 0xAABBCCDDEEFF)]
     callable (.queryMac s.gwHandle) s ∧ s.env = [.answer (.ok (.mac 0xAABBCCDDEEFF))]) ∧
    (let s := { block .request .query [.answer .fail] with pending := some (.queryMac { tag := 1 }) }
     callable (.queryMac s.gwHandle) s ∧ s.env = [.answer .fail]) := by decide
/-- The four inputs, with nothing pending and with the SEND pending. -/
theorem witness_SendHandsOverTheWireImage :
    (∀ e ∈ [[], [ok .empty], [.answer .fail], [.quiet]],
      (let s := block .respond .respSend e
       s.txBuf.wf = true ∧ s.pending = none ∧ s.env = e) ∧
      (let s := { block .respond .respSend e with pending := some (.send { tag := 1 } replyOut) }
       s.txBuf.wf = true ∧ s.pending = some (.send { tag := 1 } replyOut) ∧ s.env = e)) := by decide
/-- A sequence of the full `max_size`, one that is longer by a byte, and a failure. -/
theorem witness_ReceiveFillsTheBufferOrRefuses :
    (let s := { block .respond .respListen [ok (.bytes reqIn)] with cfg := { cfgOf .respond with rxMax := 42 } }
     s.rxBuf.wf = true ∧ callable (.receive s.gwHandle s.cfg.rxMax) s ∧ s.env = [.answer (.ok (.bytes reqIn))] ∧
       reqIn.length ≤ s.cfg.rxMax) ∧
    (let s := { block .respond .respListen [ok (.bytes (reqIn ++ [0]))] with cfg := { cfgOf .respond with rxMax := 42 } }
     callable (.receive s.gwHandle s.cfg.rxMax) s ∧ s.env = [.answer (.ok (.bytes (reqIn ++ [0])))] ∧
       s.cfg.rxMax < (reqIn ++ [0]).length) ∧
    (let s := waiting .respond .respListen [.answer .fail]
     callable (.receive s.gwHandle s.cfg.rxMax) s ∧ s.env = [.answer .fail]) ∧
    (block .request .reqWait []).env = [] := by decide
theorem witness_DetachEndsWhateverTheAnswer :
    (let s := block .request .detach [.answer .fail]
     callable (.detach s.gwHandle) s ∧ s.env = [.answer .fail]) ∧
    (let s := { block .request .detach [ok .empty] with pending := some (.detach { tag := 1 }) }
     callable (.detach s.gwHandle) s ∧ s.env = [.answer (.ok .empty)]) := by decide
theorem witness_UnansweredCommandStaysPending :
    (let s := block .request .reqWait []
     callable (.receive s.gwHandle s.cfg.rxMax) s ∧ s.env = []) ∧
    (let s := waiting .request .reqWait [.quiet]
     callable (.receive s.gwHandle s.cfg.rxMax) s ∧ s.env = [.quiet]) := by decide
/-- Both waiting phases, with inputs that answer nothing, and with reset asserted. -/
theorem witness_UnansweredReceiveSuspendsForEver :
    (let s := waiting .respond .respListen [.quiet, .releaseReset, .setParams (cfgOf .request)]
     s.pending = some (.receive { tag := 1 } 1514) ∧ s.phase = 3 ∧ noAnswerNoReset s.env = true) ∧
    (let s := waiting .request .reqWait [.assertReset]
     s.pending = some (.receive { tag := 1 } 1514) ∧ s.phase = 6 ∧ s.env = [.assertReset]) := by decide
/-- Another command, and an answer of another command's kind, for each command. -/
theorem witness_GatewayMisuseFaults :
    (∀ c ∈ [Command.receive { tag := 1 } 1514, .attach { tag := 7 }],
      ({ block .respond .attach [] with pending := some c }).pending = some c) ∧
    commandOp (.receive { tag := 1 } 1514) ≠ 1 ∧ commandOp (.receive { tag := 1 } 1514) ≠ 2 ∧
    commandOp (.receive { tag := 1 } 1514) ≠ 3 ∧ commandOp (.attach { tag := 7 }) ≠ 4 ∧
    commandOp (.attach { tag := 7 }) ≠ 5 ∧
    answeredOp .empty ≠ 1 ∧ answeredOp .empty ≠ 2 ∧ answeredOp (.mac 0) ≠ 3 ∧ answeredOp .empty ≠ 4 ∧
    (block .respond .respListen [ok .empty]).pending = none ∧
    (block .respond .respListen [ok .empty]).env = [.answer (.ok .empty)] ∧
    (waiting .respond .respListen [ok .empty]).pending = some (.receive { tag := 1 } 1514) ∧
    commandOp (.receive { tag := 1 } 1514) = 4 ∧
    faultOf (exec .phaseRespListen (block .respond .respListen [ok .empty])) = some .badResponse := by decide

/-- One state and frame for each of the three verdicts. -/
theorem witness_RespFilterVerdicts :
    (let s := { block .respond .respListen [] with
       cfg := { cfgOf .respond with respOpcodeFilter := true, respTpaFilter := true } }
     (s.cfg.respOpcodeFilter = true ∧ ({ reqInFrame with oper := 2 } : Frame).oper ≠ 0x0001) ∧
     (¬ (s.cfg.respOpcodeFilter = true ∧ reqInFrame.oper ≠ 0x0001) ∧ s.cfg.respTpaFilter = true ∧
       ({ reqInFrame with tpa := 0x0A000001 } : Frame).tpa ≠ s.cfg.localIp) ∧
     ¬ (s.cfg.respTpaFilter = true ∧ reqInFrame.tpa ≠ s.cfg.localIp)) := by decide
/-- A FAIL, and one sequence of each class and verdict. -/
theorem witness_RespListenFollowsItsRule :
    (let s := { block .respond .respListen [ok (.bytes reqIn)] with
       cfg := { cfgOf .respond with respOpcodeFilter := true, respTpaFilter := true } }
     s.rxBuf.wf = true ∧ callable (.receive s.gwHandle s.cfg.rxMax) s ∧ s.env = [.answer (.ok (.bytes reqIn))] ∧
       reqIn.length ≤ s.cfg.rxMax ∧ 42 ≤ reqIn.length ∧ arpEthertypeBytes reqIn ∧ holdsFrame reqIn reqInFrame ∧
       ¬ (s.cfg.respOpcodeFilter = true ∧ reqInFrame.oper ≠ 0x0001) ∧
       ¬ (s.cfg.respTpaFilter = true ∧ reqInFrame.tpa ≠ s.cfg.localIp) ∧
       (s.cfg.respOpcodeFilter = true ∧ ({ reqInFrame with oper := 0 } : Frame).oper ≠ 0x0001) ∧
       (s.cfg.respTpaFilter = true ∧ ({ reqInFrame with tpa := 0 } : Frame).tpa ≠ s.cfg.localIp)) ∧
    (block .respond .respListen [.answer .fail]).env = [.answer .fail] ∧
    (let s := { block .respond .respListen [ok (.bytes (reqIn ++ [0]))] with cfg := { cfgOf .respond with rxMax := 42 } }
     callable (.receive s.gwHandle s.cfg.rxMax) s ∧ s.env = [.answer (.ok (.bytes (reqIn ++ [0])))] ∧
       s.cfg.rxMax < (reqIn ++ [0]).length) ∧
    (reqIn.take 13).length < 14 ∧ (arpEthertypeBytes (reqIn.take 14) ∧ (reqIn.take 14).length < 42) ∧
    (14 ≤ (List.replicate 14 (0 : Byte)).length ∧ ¬ arpEthertypeBytes (List.replicate 14 0)) := by decide
/-- The hypotheses are those of SendHandsOverTheWireImage: the four inputs, with nothing pending and with the SEND pending. -/
theorem witness_RespSendRendersThenSends :
    (∀ e ∈ [[], [ok .empty], [.answer .fail], [.quiet]],
      (let s := block .respond .respSend e
       s.txBuf.wf = true ∧ s.pending = none ∧ s.env = e ∧ (after (exec .phaseRespSend s)).isSome = true) ∧
      (let s := { block .respond .respSend e with pending := some (.send { tag := 1 } replyOut) }
       s.pending = some (.send { tag := 1 } replyOut) ∧ s.env = e ∧
         (after (exec .phaseRespSend s)).isSome = true)) := by decide

/-- A listening responder meets the invariant. -/
theorem inv_listening (e : List EnvEvent) : Inv (block .respond .respListen e) := by
  refine ⟨?_, ?_, ?_, fun c h => (nomatch h), ?_, rfl⟩ <;>
    simp [buffersOk, statusOk, modeOk, framesOk, block, State.resetWith, cfgOf, phaseCode, Memory.wf]

/-- A requester about to send meets the invariant. -/
theorem inv_requesting (e : List EnvEvent) : Inv (block .request .reqSend e) := by
  refine ⟨?_, ?_, ?_, fun c h => (nomatch h), ?_, rfl⟩ <;>
    simp [buffersOk, statusOk, modeOk, framesOk, block, State.resetWith, cfgOf, phaseCode, Memory.wf]

theorem witness_ResponderAnswersEachArpFrame :
    Inv (block .respond .respListen [.answer (.ok (.bytes reqIn)), .answer (.ok .empty)]) ∧
    Inv (block .respond .respListen [.answer (.ok (.bytes (List.replicate 14 0)))]) ∧
    (let s := block .respond .respListen [.answer (.ok (.bytes reqIn)), .answer (.ok .empty)]
     s.phase = 3 ∧ reqIn.length ≤ s.cfg.rxMax ∧ 42 ≤ reqIn.length ∧ arpEthertypeBytes reqIn ∧
       holdsFrame reqIn reqInFrame ∧ (s.cfg.respOpcodeFilter = true → reqInFrame.oper = 0x0001) ∧
       (s.cfg.respTpaFilter = true → reqInFrame.tpa = s.cfg.localIp)) ∧
    14 ≤ (List.replicate 14 (0 : Byte)).length ∧ ¬ arpEthertypeBytes (List.replicate 14 0) :=
  ⟨inv_listening _, inv_listening _, by decide⟩
theorem witness_ResponderStaysInItsLoop :
    (let s := block .respond .respSend [ok .empty]
     s.phase = 4 ∧ engineTurn s = true ∧ (after (step s)).isSome = true ∧ s.env = [.answer (.ok .empty)]) ∧
    (let s := block .respond .respListen [.answer .fail]
     s.phase = 3 ∧ engineTurn s = true ∧ (after (step s)).isSome = true) := by decide
/-- The four inputs, with nothing pending and with the SEND pending. -/
theorem witness_ReqSendBuildsRendersAndSends :
    (∀ e ∈ [[], [ok .empty], [.answer .fail], [.quiet]],
      (let s := block .request .reqSend e
       s.txBuf.wf = true ∧ s.pending = none ∧ s.env = e ∧ (after (exec .phaseReqSend s)).isSome = true) ∧
      (let s := { block .request .reqSend e with pending := some (.send { tag := 1 } requestOut) }
       s.pending = some (.send { tag := 1 } requestOut) ∧ s.env = e ∧
         (after (exec .phaseReqSend s)).isSome = true)) := by decide
theorem witness_RequestBytesAreBroadcast :
    (block .request .reqSend []).txBuf.wf = true ∧ (block .request .reqSend []).pending = none ∧
    ∀ r rest, (block .request .reqSend []).env = .answer r :: rest → r = .fail ∨ r = .ok .empty :=
  ⟨rfl, rfl, fun _ _ h => nomatch h⟩
/-- Both results, and the two reasons for a match. -/
theorem witness_ReqAcceptVerdicts :
    (cfgOf .request).reqMatch = false ∧
    (let c := { cfgOf .request with reqMatch := true }
     (({ reqInFrame with oper := 2 } : Frame).oper = 0x0002 ∧ ({ reqInFrame with oper := 2 } : Frame).spa = c.targetIp) ∧
     c.reqMatch = true ∧ ¬ (reqInFrame.oper = 0x0002 ∧ reqInFrame.spa = c.targetIp)) := by decide
theorem witness_ReqWaitFollowsItsRule :
    (let s := { block .request .reqWait [ok (.bytes reqIn)] with cfg := { cfgOf .request with reqMatch := true } }
     s.rxBuf.wf = true ∧ callable (.receive s.gwHandle s.cfg.rxMax) s ∧ s.env = [.answer (.ok (.bytes reqIn))] ∧
       reqIn.length ≤ s.cfg.rxMax ∧ 42 ≤ reqIn.length ∧ arpEthertypeBytes reqIn ∧ holdsFrame reqIn reqInFrame ∧
       (s.cfg.reqMatch = true ∧ ¬ (reqInFrame.oper = 0x0002 ∧ reqInFrame.spa = s.cfg.targetIp)) ∧
       (({ reqInFrame with oper := 2 } : Frame).oper = 0x0002 ∧
         ({ reqInFrame with oper := 2 } : Frame).spa = s.cfg.targetIp)) ∧
    (block .request .reqWait [.answer .fail]).env = [.answer .fail] ∧
    (let s := { block .request .reqWait [ok (.bytes (reqIn ++ [0]))] with cfg := { cfgOf .request with rxMax := 42 } }
     callable (.receive s.gwHandle s.cfg.rxMax) s ∧ s.env = [.answer (.ok (.bytes (reqIn ++ [0])))] ∧
       s.cfg.rxMax < (reqIn ++ [0]).length) ∧
    (reqIn.take 13).length < 14 ∧ (arpEthertypeBytes (reqIn.take 41) ∧ (reqIn.take 41).length < 42) ∧
    (14 ≤ (List.replicate 14 (0 : Byte)).length ∧ ¬ arpEthertypeBytes (List.replicate 14 0)) := by decide
/-- A requester about to send, and a waiting one whose inputs never assert reset, each with a next state. -/
theorem witness_RequestIsSentOncePerReset :
    (let s := block .request .reqSend [ok .empty]
     s.phase = 5 ∧ engineTurn s = true ∧ (after (step s)).isSome = true) ∧
    (let s := waiting .request .reqWait [ok (.bytes replyOut), ok .empty]
     s.phase = 6 ∧ noResetAsserted s.env = true ∧ (after (run 2 s)).isSome = true) := by decide
theorem witness_RequesterEndsWithTheFirstMatch :
    Inv (block .request .reqSend [.answer (.ok .empty), .answer (.ok (.bytes reqIn)), .answer .fail]) ∧
    (let s := block .request .reqSend [.answer (.ok .empty), .answer (.ok (.bytes reqIn)), .answer .fail]
     s.phase = 5 ∧ reqIn.length ≤ s.cfg.rxMax ∧ 42 ≤ reqIn.length ∧ arpEthertypeBytes reqIn ∧
       holdsFrame reqIn reqInFrame ∧
       (s.cfg.reqMatch = true → reqInFrame.oper = 0x0002 ∧ reqInFrame.spa = s.cfg.targetIp)) :=
  ⟨inv_requesting _, by decide⟩

theorem witness_UnfitSequencesAreDiscarded :
    (let s := waiting .request .reqWait []
     s.rxBuf.wf = true ∧ s.pending = some (.receive { tag := 1 } 1514) ∧ s.phase = 6 ∧
       (reqIn.take 41).length ≤ s.cfg.rxMax ∧ (Instr.truncated (reqIn.take 41)).wellFormed = true) ∧
    (let s := waiting .respond .respListen []
     s.rxBuf.wf = true ∧ s.pending = some (.receive { tag := 1 } 1514) ∧ s.phase = 3 ∧
       (List.replicate 14 (0 : Byte)).length ≤ s.cfg.rxMax ∧
       (Instr.notArp (List.replicate 14 0)).wellFormed = true) := by decide
/-- Both engines, and one frame for each verdict and each match. -/
theorem witness_ArpFramesDriveTheWaitingEngine :
    (let s := { waiting .respond .respListen [] with
       cfg := { cfgOf .respond with respOpcodeFilter := true, respTpaFilter := true } }
     (Instr.arpRequest reqInFrame []).wellFormed = true ∧ s.rxBuf.wf = true ∧
       s.pending = some (.receive { tag := 1 } 1514) ∧ 42 + ([] : List Byte).length ≤ s.cfg.rxMax ∧ s.phase = 3 ∧
       respFilterOf s.cfg reqInFrame = .accept ∧
       respFilterOf s.cfg { reqInFrame with oper := 2 } = .opcodeFiltered ∧
       respFilterOf s.cfg { reqInFrame with tpa := 0 } = .targetFiltered) ∧
    (let s := { waiting .request .reqWait [] with cfg := { cfgOf .request with reqMatch := true } }
     (Instr.arpReply { reqInFrame with oper := 2 } [0]).wellFormed = true ∧ s.rxBuf.wf = true ∧
       s.pending = some (.receive { tag := 1 } 1514) ∧ 42 + [(0 : Byte)].length ≤ s.cfg.rxMax ∧ s.phase = 6 ∧
       reqAcceptOf s.cfg { reqInFrame with oper := 2 } = .matched ∧ reqAcceptOf s.cfg reqInFrame = .unmatched) := by
  decide
theorem witness_FramesOutsideTheContractStop :
    frameBytesOf (.truncated [0]) = some [0] ∧ (block .respond .respListen []).pending = none ∧
    (let s := { waiting .respond .respListen [] with cfg := { cfgOf .respond with rxMax := 42 } }
     s.pending = some (.receive { tag := 1 } 1514) ∧ frameBytesOf (.notArp (List.replicate 43 0)) =
       some (List.replicate 43 0) ∧ s.cfg.rxMax < (List.replicate 43 (0 : Byte)).length) ∧
    (let s := waiting .respond .query []
     s.pending = some (.receive { tag := 1 } 1514) ∧ s.rxBuf.wf = true ∧ [(0 : Byte)].length ≤ s.cfg.rxMax ∧
       (Instr.truncated [0]).wellFormed = true ∧ s.phase ≠ 3 ∧ s.phase ≠ 6 ∧ (Instr.notArp [0]).wellFormed = false) := by
  decide
theorem witness_FatalEntryReportsOnce :
    (block .respond .fatal [.quiet]).phase = 9 ∧ noResetAsserted (block .respond .fatal [.quiet]).env = true := by decide
theorem witness_DiscardChangesNothingAndListensAgain :
    (block .respond .respListen []).phase = 3 ∧ (block .request .reqWait []).phase = 6 ∧
    (block .respond .respListen []).pending = none ∧ (block .respond .respListen []).env = [] := by decide
theorem witness_IdlePhasesPerformNothing :
    Instr.phaseFatal ∈ [.phaseReset, .phaseDone, .phaseFatal] ∧ (block .respond .fatal []).env = [] ∧
    (block .request .done [.answer .fail]).env = [.answer .fail] ∧ (block .request .reset [.quiet]).env = [.quiet] := by
  decide
theorem witness_TerminalPhasesLastUntilReset :
    (block .request .done [.answer .fail, .releaseReset]).phase = 8 ∧
    noResetAsserted (block .request .done [.answer .fail, .releaseReset]).env = true ∧
    (block .respond .fatal [.quiet]).phase = 9 ∧ noResetAsserted (block .respond .fatal [.quiet]).env = true := by decide
/-- An attach that fails, and the exception entry run alone. -/
theorem witness_ErrorCodeChangesOnlyByFatalEntry :
    Instr.phaseAttach ≠ .resetRelease ∧
    (after (exec .phaseAttach (block .respond .attach [.answer .fail]))).map State.errCode ≠
      some (block .respond .attach [.answer .fail]).errCode ∧
    (after (exec .phaseAttach (block .respond .attach [.answer .fail]))).isSome = true := by decide
theorem witness_ResetAssertionAbandonsEverything :
    (waiting .respond .respListen [.assertReset]).env = [.assertReset] ∧
    (block .respond .reset []).phase = 0 ∧ (block .respond .reset []).env = [] ∧
    (block .respond .reset [.answer .fail]).env = [.answer .fail] ∧
    (block .respond .reset [.quiet]).env = [.quiet] := by decide
/-- `P_RX_MAX` on both sides of its limit, and the release as the next input. -/
theorem witness_ResetReleaseCapturesParameters :
    42 ≤ ({ block .respond .reset [] with pins := { cfgOf .request with rxMax := 42 } }).pins.rxMax ∧
    ({ block .respond .reset [] with pins := { cfgOf .request with rxMax := 41 } }).pins.rxMax < 42 ∧
    (block .respond .reset [.releaseReset]).phase = 0 ∧ (block .respond .reset [.releaseReset]).env = [.releaseReset] := by
  decide
/-- A step of each outcome, and an assertion of reset. -/
theorem witness_ParametersAreSampledOnlyAtRelease :
    (let s := block .respond .attach [ok (.handle { tag := 9 })]
     engineTurn s = true ∧ (after (step s)).isSome = true) ∧
    (let s := block .respond .attach [ok .empty]
     engineTurn s = true ∧ faultOf (step s) = some .badResponse) ∧
    (let s := { block .respond .respListen [ok (.bytes (reqIn ++ [0]))] with
       cfg := { cfgOf .respond with rxMax := 42 } }
     engineTurn s = true ∧ refusalOf (step s) = some .answerTooLong) ∧
    (block .respond .query [.assertReset]).env = [.assertReset] := by decide
theorem witness_BootReachesTheChosenEngine :
    (let s := block .request .attach [.answer (.ok (.handle { tag := 9 })), .answer (.ok (.mac 0))]
     s.phase = 1 ∧ callable (.attach s.cfg.devName) s ∧
       s.env = [.answer (.ok (.handle { tag := 9 })), .answer (.ok (.mac 0))]) := by decide
theorem witness_StepPerformsTheSelectedOperation :
    engineTurn (block .respond .query []) = true ∧ decode (.phaseCode (block .respond .query []).phase) = .ok .phaseQuery ∧
    engineTurn { block .respond .query [] with phase := 10 } = true ∧
    10 ≤ ({ block .respond .query [] with phase := 10 }).phase.toNat := by decide
theorem witness_InputEdgesAreStepsOfTheirOwn :
    (block .respond .query [.setParams (cfgOf .request)]).env = [.setParams (cfgOf .request)] ∧
    (block .respond .query [.releaseReset]).phase ≠ 0 ∧
    (block .respond .query [.releaseReset]).env = [.releaseReset] := by decide
theorem witness_StepRunsTheReceivedFrame :
    (let s := waiting .request .reqWait [.answer (.ok (.bytes reqIn))]
     s.phase = 6 ∧ s.rxBuf.wf = true ∧ s.pending = some (.receive { tag := 1 } 1514) ∧
       s.env = [.answer (.ok (.bytes reqIn))] ∧ decode (.frame reqIn) = .ok (.arpRequest reqInFrame [])) := by decide
theorem witness_StepKeepsTheInvariant :
    Inv (block .respond .respListen [.answer (.ok (.bytes reqIn))]) ∧
    (after (step (block .respond .respListen [.answer (.ok (.bytes reqIn))]))).isSome = true :=
  ⟨inv_listening _, by decide⟩
theorem witness_ResetMeetsTheInvariant : 42 ≤ ({ cfgOf .respond with rxMax := 42 } : Params).rxMax := by decide
/-- A FAIL, an OK of the command's kind in three phases, no answer, and the two edges of reset. -/
theorem witness_ContractKeepingRunsNeverStop :
    (∀ e ∈ [[], [.answer .fail], [ok (.bytes reqIn)], [.assertReset], [.releaseReset]],
      Inv (block .respond .respListen e) ∧ contractKept (block .respond .respListen e)) ∧
    (∀ e ∈ [[], [.answer .fail], [ok .empty]],
      Inv (block .request .reqSend e) ∧ contractKept (block .request .reqSend e)) ∧
    contractKept (block .respond .attach [ok (.handle { tag := 9 })]) := by
  refine ⟨fun e he => ⟨inv_listening e, ?_⟩, fun e he => ⟨inv_requesting e, ?_⟩, ?_⟩
  · simp only [List.mem_cons, List.not_mem_nil, or_false] at he
    rcases he with rfl | rfl | rfl | rfl | rfl
    · exact ⟨fun _ _ h => (nomatch h), fun _ h => nomatch h⟩
    · exact ⟨fun _ _ h => by cases h; exact .inl rfl, fun _ h => nomatch h⟩
    · exact ⟨fun _ _ h => by cases h; exact .inr ⟨_, rfl, by decide⟩, fun _ h => nomatch h⟩
    · exact ⟨fun _ _ h => (nomatch h), fun _ h => nomatch h⟩
    · exact ⟨fun _ _ h => (nomatch h), fun _ _ => by decide⟩
  · simp only [List.mem_cons, List.not_mem_nil, or_false] at he
    rcases he with rfl | rfl | rfl
    · exact ⟨fun _ _ h => (nomatch h), fun _ h => nomatch h⟩
    · exact ⟨fun _ _ h => by cases h; exact .inl rfl, fun _ h => nomatch h⟩
    · exact ⟨fun _ _ h => by cases h; exact .inr rfl, fun _ h => nomatch h⟩
  · exact ⟨fun _ _ h => by cases h; exact .inr ⟨_, rfl⟩, fun _ h => nomatch h⟩
/-- A state of the invariant from which the environment stops the run with a fault, and one with a refusal. -/
theorem witness_OnlyTheEnvironmentStopsARun :
    Inv (block .respond .respListen [ok .empty]) ∧
    faultOf (step (block .respond .respListen [ok .empty])) = some .badResponse ∧
    Inv (block .respond .respListen [ok (.bytes (List.replicate 1515 0))]) ∧
    refusalOf (step (block .respond .respListen [ok (.bytes (List.replicate 1515 0))])) = some .answerTooLong :=
  ⟨inv_listening _, by decide, inv_listening _, rfl⟩
theorem witness_EveryInstructionKeepsItsFrame :
    (after (exec .phaseAttach (block .respond .attach [.answer .fail]))).isSome = true ∧
    Reg.localMac ∉ mayWrite .phaseAttach := by decide
theorem witness_StoresStayInsideTheirBytes :
    Instr.encode ≠ .resetRelease ∧ (block .respond .respSend []).rxBuf.wf = true ∧
    (block .respond .respSend []).txBuf.wf = true ∧ (after (exec .encode (block .respond .respSend []))).isSome = true ∧
    (after (exec .gwReceive (block .respond .respListen [ok (.bytes reqIn)]))).isSome = true := by decide
theorem witness_IdentityIsReadOnlyInTheEngines :
    (let s := block .respond .respListen [.answer .fail]
     engineTurn s = true ∧ (after (step s)).isSome = true ∧ s.phase ≠ 1 ∧ s.phase ≠ 2) := by decide
theorem witness_AtMostOneCommandPerStep :
    (after (step (block .respond .respListen []))).isSome = true ∧
    (waiting .respond .respListen []).pending ≠ none ∧
    (after (step (waiting .respond .respListen []))).isSome = true := by decide
theorem witness_NoFrameStateBetweenExchanges :
    (let s := block .respond .respListen [ok (.bytes reqIn)]
     let u := { s with req := reqInFrame, tx := reqInFrame, rxBuf := (holding replyOut).rxBuf, rxLen := 42 }
     s.rxBuf.wf = true ∧ s.txBuf.wf = true ∧ u.rxBuf.wf = true ∧ s.phase = 3 ∧ engineTurn s = true ∧
       (after (step s)).map State.phase = some 4 ∧ (after (step u)).map State.phase = some 4) ∧
    (let s := block .request .reqSend [ok .empty]
     s.phase = 5 ∧ s.pending = none ∧ engineTurn s = true ∧ (after (step s)).isSome = true) := by decide

end Sys2Proof.Tests
end

section
/-! The invariant of a run (O53, O52): what it says in one phase, what a transfer of `PHASE` needs, and one lemma per
shared operation; a step is then one of these. -/

namespace Sys2Proof.Machine

/-- `Inv` says nothing of the inputs, the outputs and the label of the last discard. -/
theorem Inv.surroundings {s : State} (hi : Inv s) (e : List EnvEvent) (p : Params) (o : List Output)
    (d : Option DiscardReason) : Inv { s with env := e, pins := p, trace := o, discardLabel := d } := hi

/-- Outside FATAL there is no error. -/
theorem Inv.no_error {s : State} (hi : Inv s) (h : s.phase ≠ 9) : s.errCode = 0 ∧ s.exitStatus = 0 := by
  obtain ⟨-, ⟨-, -, hfatal, hexit⟩, -⟩ := hi
  exact ⟨not_not.1 (mt hfatal.2 h), by rw [hexit, if_neg h]⟩

/-- `RESULT` is valid in DETACH and DONE only. -/
theorem Inv.result_invalid {s : State} (hi : Inv s) (h : ¬ (s.phase = 7 ∨ s.phase = 8)) : s.resultValid = false := by
  obtain ⟨-, -, -, -, ⟨hvalid, -⟩, -⟩ := hi
  exact Bool.eq_false_iff.2 (mt hvalid.1 h)

/-- With nothing pending, `TX` is encoded (R107). -/
theorem encodedTx_of_none {s : State} (h : s.pending = none) :
    encodedTx s = { s with txBuf := setBytes s.txBuf 0 (bytesOfFrame s.tx) } := by
  unfold encodedTx
  split
  · rfl
  · simp_all

/-- While a command is pending, nothing is encoded again (R101). -/
theorem encodedTx_of_some {s : State} {c : Command} (h : s.pending = some c) : encodedTx s = s := by
  simp only [encodedTx, h]

@[simp] theorem encodedTx_phase (s : State) : (encodedTx s).phase = s.phase := by unfold encodedTx; split <;> rfl
@[simp] theorem encodedTx_pending (s : State) : (encodedTx s).pending = s.pending := by unfold encodedTx; split <;> rfl
@[simp] theorem encodedTx_gwHandle (s : State) : (encodedTx s).gwHandle = s.gwHandle := by
  unfold encodedTx; split <;> rfl
@[simp] theorem encodedTx_tx (s : State) : (encodedTx s).tx = s.tx := by unfold encodedTx; split <;> rfl

/-- The legal phases are 0 to 9 (R29). -/
theorem phaseCode_le_nine (p : Phase) : (phaseCode p).toNat ≤ 9 := by cases p <;> decide

/-- Nothing pending is in order in every phase. -/
theorem pendingOk_of_none {s : State} (h : s.pending = none) : pendingOk s := by
  intro c hc
  simp [h] at hc

/-- The transfer of `PHASE` into any phase but FATAL: with no error and nothing pending, what is left to show is what
the new phase says of the mode and of the frames. -/
theorem inv_setPhase {s : State} {p : Phase} (hp : p ≠ .fatal) (hb : buffersOk s)
    (he : s.errCode = 0 ∧ s.exitStatus = 0) (hn : s.pending = none) (hw : s.wires = Wires.undriven)
    (hm : modeOk (s.setPhase p)) (hf : framesOk (s.setPhase p)) : Inv (s.setPhase p) := by
  have hcode : phaseCode p ≠ 9 := by
    cases p with
    | fatal => exact absurd rfl hp
    | _ => decide
  have hs : statusOk (s.setPhase p) :=
    ⟨phaseCode_le_nine p, by simp [he.1], iff_of_false hcode (not_not.2 he.1), he.2.trans (if_neg hcode).symm⟩
  exact ⟨hb, hs, hm, pendingOk_of_none hn, hf, hw⟩

/-- Fatal entry (R140) keeps the invariant where nothing is pending and `RESULT` is not valid. -/
theorem inv_raiseFatal {s : State} (hi : Inv s) (hn : s.pending = none) (hr : s.resultValid = false) (c : FatalCode) :
    Inv (s.raiseFatal c) := by
  obtain ⟨hb, -, ⟨-, -, hcount, -⟩, -, -, hw⟩ := hi
  have hcode : fatalCode c ≠ 0 ∧ (fatalCode c).toNat ≤ 4 := by cases c <;> decide
  have hs : statusOk (s.raiseFatal c) := ⟨phaseCode_le_nine .fatal, hcode.2, iff_of_true rfl hcode.1, rfl⟩
  refine ⟨hb, hs, ?_, pendingOk_of_none hn, ?_, hw⟩
  · simpa [modeOk, phaseCode] using hcount
  · simp [framesOk, phaseCode, hr]

/-- A command that fits its phase may be put out and wait (R36, R101). -/
theorem inv_calling {s : State} (hi : Inv s) (c : Command) (hc : s.pending = none → pendingFits s c)
    (e : List EnvEvent) : Inv (calling c s e) := by
  obtain ⟨hb, hs, hm, hp, hf, hw⟩ := hi
  refine ⟨hb, hs, hm, fun c' hc' => ?_, hf, hw⟩
  change pendingFits s c'
  cases hpend : s.pending with
  | none =>
    simp only [calling, awaited, hpend, Option.some.injEq] at hc'
    exact hc' ▸ hc hpend
  | some d =>
    simp only [calling, awaited, hpend, Option.some.injEq] at hc'
    exact hc' ▸ hp d hpend

/-- An answer leaves nothing pending, and keeps everything else. -/
theorem inv_called {s : State} (hi : Inv s) (c : Command) (e : List EnvEvent) : Inv (called c s e) := by
  obtain ⟨hb, hs, hm, -, hf, hw⟩ := hi
  exact ⟨hb, hs, hm, pendingOk_of_none rfl, hf, hw⟩

/-- A FAIL of a command whose phase has no valid `RESULT` ends in FATAL. -/
theorem inv_failed {s : State} (hi : Inv s) (h : ¬ (s.phase = 7 ∨ s.phase = 8)) (c : Command) (e : List EnvEvent)
    (f : FatalCode) : Inv (State.raiseFatal (called c s e) f) :=
  inv_raiseFatal (inv_called hi c e) rfl (hi.result_invalid h) f

/-- A write from byte 0 on that fits a space of `n` bytes leaves every entry inside it (R40). -/
theorem setBytes_in_space {m : Memory} {n : Nat} (hm : ∀ c ∈ m, c.1 < n) (bs : List Byte) (hl : bs.length ≤ n) :
    ∀ c ∈ setBytes m 0 bs, c.1 < n := by
  intro c hc
  rcases mem_setBytes hc with h | h
  · omega
  · exact hm c h

/-- A received sequence that fits keeps `RX_BUF` canonical and inside its space (R41, R108). -/
theorem inv_afterRx {s : State} (hi : Inv s) {bs : List Byte} (hl : bs.length ≤ s.cfg.rxMax) (e : List EnvEvent) :
    Inv (afterRx s e bs) := by
  obtain ⟨⟨hrx, htx, hrxIn, htxIn, -, hmax⟩, hs, hm, -, hf, hw⟩ := hi
  have hin := setBytes_in_space hrxIn bs hl
  exact ⟨⟨wf_setBytes hrx 0 bs, htx, hin, htxIn, hl, hmax⟩, hs, hm, pendingOk_of_none rfl, hf, hw⟩

/-- While nothing is pending, any canonical memory inside its space may stand in `TX_BUF` (R42). -/
theorem inv_setTxBuf {s : State} (hi : Inv s) (hn : s.pending = none) {m : Memory} (hm : m.wf = true)
    (hin : ∀ c ∈ m, c.1 < 42) : Inv { s with txBuf := m } := by
  obtain ⟨⟨hrx, -, hrxIn, -, hlen⟩, hs, hmode, -, hf, hw⟩ := hi
  exact ⟨⟨hrx, hm, hrxIn, hin, hlen⟩, hs, hmode, pendingOk_of_none hn, hf, hw⟩

/-- Encoding keeps `TX_BUF` canonical and inside its space (R42, R84). -/
theorem inv_encodedTx {s : State} (hi : Inv s) : Inv (encodedTx s) := by
  cases hn : s.pending with
  | none =>
    obtain ⟨⟨-, htx, -, htxIn, -⟩, -⟩ := id hi
    rw [encodedTx_of_none hn]
    exact inv_setTxBuf hi hn (wf_setBytes htx 0 _) (setBytes_in_space htxIn _ (bytesOfFrame_length s.tx).le)
  | some c => rwa [encodedTx_of_some hn]

/-- What is handed over is the wire image of `TX` (R107). -/
theorem txImage_encodedTx {s : State} (hm : s.txBuf.wf = true) (hn : s.pending = none) :
    txImage (encodedTx s) = wireImage s.tx := by
  rw [encodedTx_of_none hn, txImage_encode s hm, wireImage_eq]

/-- SEND in its two phases, when the rest of the rule keeps the invariant (R107). -/
theorem send_keeps_inv {s t : State} {k : State → Outcome} (hi : Inv s) (hph : s.phase = 4 ∨ s.phase = 5)
    (hk : ∀ u, Inv u → u.phase = s.phase → u.pending = none → k u = .next t → Inv t)
    (h : (sendTx s).andThen k = .next t) : Inv t := by
  have hu := inv_encodedTx hi
  obtain ⟨⟨-, htx, -⟩, -⟩ := id hi
  obtain ⟨-, ⟨rest, -, h⟩ | ⟨rest, -, rfl⟩ | ⟨e, -, rfl⟩⟩ := send_next h
  · exact hk _ (inv_called hu _ rest) (encodedTx_phase s) rfl h
  · refine inv_failed hu ?_ _ rest _
    rw [encodedTx_phase]
    rcases hph with h | h <;> simp [h]
  · refine inv_calling hu _ (fun hn => ?_) e
    rw [encodedTx_pending] at hn
    have himage := txImage_encodedTx htx hn
    exact ⟨by simpa using hph, (encodedTx_gwHandle s).symm, by rw [encodedTx_tx, himage], rfl⟩

/-- RECEIVE in its two phases, when what the engine makes of the sequence keeps the invariant (R108). -/
theorem receive_keeps_inv {s t : State} {k : State → Outcome} (hi : Inv s) (hph : s.phase = 3 ∨ s.phase = 6)
    (hk : ∀ u, Inv u → u.phase = s.phase → u.pending = none → k u = .next t → Inv t)
    (h : (receiveRx s).andThen k = .next t) : Inv t := by
  obtain ⟨-, ⟨bs, rest, -, hl, h⟩ | ⟨rest, -, rfl⟩ | ⟨e, -, rfl⟩⟩ := receive_next h
  · exact hk _ (inv_afterRx hi hl rest) rfl rfl h
  · refine inv_failed hi ?_ _ rest _
    rcases hph with h | h <;> simp [h]
  · exact inv_calling hi (.receive _ _) (fun _ => ⟨hph, rfl, rfl⟩) e

/-- PHASE_ATTACH (R104). -/
theorem phaseAttach_keeps_inv {s t : State} (hi : Inv s) (hph : s.phase = 1) (h : execPhaseAttach s = .next t) :
    Inv t := by
  obtain ⟨hb, -, ⟨-, -, -, hcount⟩, -, -, hw⟩ := id hi
  obtain ⟨-, ⟨v, rest, -, h⟩ | ⟨rest, -, rfl⟩ | ⟨e, -, rfl⟩⟩ := attach_next h
  · cases h
    refine inv_setPhase (by decide) hb (hi.no_error (by simp [hph])) rfl hw ?_ ?_
    · simp [modeOk, phaseCode, called, hcount (.inr (.inl hph))]
    · simp [framesOk, phaseCode, called, hi.result_invalid (by simp [hph])]
  · exact inv_failed hi (by simp [hph]) _ rest _
  · exact inv_calling hi (.attach _) (fun _ => ⟨hph, rfl⟩) e

/-- PHASE_QUERY (R105, R106). -/
theorem phaseQuery_keeps_inv {s t : State} (hi : Inv s) (hph : s.phase = 2) (h : execPhaseQuery s = .next t) :
    Inv t := by
  obtain ⟨hb, -, ⟨-, -, -, hcount⟩, -, -, hw⟩ := id hi
  obtain ⟨-, ⟨v, rest, -, h⟩ | ⟨rest, -, rfl⟩ | ⟨e, -, rfl⟩⟩ := query_next h
  · cases h
    have hzero := hcount (.inr (.inr hph))
    have hinvalid := hi.result_invalid (by simp [hph])
    cases hmode : s.cfg.mode with
    | respond =>
      simp only [State.selectEngine, called, hmode]
      refine inv_setPhase (by decide) hb (hi.no_error (by simp [hph])) rfl hw ?_ ?_
      · simp [modeOk, phaseCode, hmode]
      · simp [framesOk, phaseCode, hinvalid]
    | request =>
      simp only [State.selectEngine, called, hmode]
      refine inv_setPhase (by decide) hb (hi.no_error (by simp [hph])) rfl hw ?_ ?_
      · simp [modeOk, phaseCode, hmode, hzero]
      · simp [framesOk, phaseCode, hinvalid]
  · exact inv_failed hi (by simp [hph]) _ rest _
  · exact inv_calling hi (.queryMac _) (fun _ => ⟨hph, rfl⟩) e

/-- What the responder makes of a received sequence (R115): a discard, or the reply to an ARP request is built. -/
theorem respondToRx_keeps_inv {s t : State} (hi : Inv s) (hph : s.phase = 3) (hn : s.pending = none)
    (h : respondToRx s = .next t) : Inv t := by
  rcases respondToRx_next h with ⟨r, rfl⟩ | ⟨hclass, -, rfl⟩
  · exact hi.surroundings s.env s.pins s.trace (some r)
  · have herr := hi.no_error (by simp [hph])
    have hinvalid := hi.result_invalid (by simp [hph])
    obtain ⟨hb, -, ⟨hmode, -⟩, -, -, hw⟩ := hi
    have harp := (hasArpEthertype_iff _).1 (classOfBytes_arp hclass).2
    refine inv_setPhase (by decide) hb herr hn hw ?_ ?_
    · simp [modeOk, phaseCode, State.countExchange, State.buildReply, hmode (.inl hph)]
    · simp [framesOk, phaseCode, State.countExchange, State.buildReply, hinvalid, harp]

/-- What the requester makes of a received sequence (R132): a discard, or the frame is latched in `RESULT`. -/
theorem awaitReplyRx_keeps_inv {s t : State} (hi : Inv s) (hph : s.phase = 6) (hn : s.pending = none)
    (h : awaitReplyRx s = .next t) : Inv t := by
  rcases awaitReplyRx_next h with ⟨r, rfl⟩ | ⟨-, -, rfl⟩
  · exact hi.surroundings s.env s.pins s.trace (some r)
  · have herr := hi.no_error (by simp [hph])
    obtain ⟨hb, -, ⟨-, hmode, hcount, -⟩, -, -, hw⟩ := hi
    have hrequest := hmode (.inr (.inl hph))
    refine inv_setPhase (by decide) hb herr hn hw ?_ ?_
    · simp [modeOk, phaseCode, State.emitReqRx, State.emitDiag, hrequest, hcount hrequest]
    · simp [framesOk, phaseCode, State.emitReqRx, State.emitDiag]

/-- PHASE_RESP_SEND (R120): after its SEND the responder listens again. -/
theorem phaseRespSend_keeps_inv {s t : State} (hi : Inv s) (hph : s.phase = 4) (h : execPhaseRespSend s = .next t) :
    Inv t := by
  have hrender : Inv s.renderExchange ∧ s.renderExchange.phase = 4 := by
    unfold State.renderExchange
    split
    · exact ⟨hi.surroundings s.env s.pins _ s.discardLabel, hph⟩
    · exact ⟨hi, hph⟩
  refine send_keeps_inv hrender.1 (.inl hrender.2) (fun u hu hup hn h => ?_) h
  cases h
  have hup := hup.trans hrender.2
  have herr := hu.no_error (by simp [hup])
  have hinvalid := hu.result_invalid (by simp [hup])
  obtain ⟨hb, -, ⟨hmode, -⟩, -, -, hw⟩ := hu
  refine inv_setPhase (by decide) hb herr hn hw ?_ ?_
  · simp [modeOk, phaseCode, hmode (.inr hup)]
  · simp [framesOk, phaseCode, hinvalid]

/-- Building and rendering the request, while nothing is pending, keeps the invariant (R129). -/
theorem inv_renderRequest {s : State} (hi : Inv s) (hph : s.phase = 5) :
    Inv s.renderRequest ∧ s.renderRequest.phase = 5 := by
  unfold State.renderRequest
  split
  · rename_i hn
    have hinvalid := hi.result_invalid (by simp [hph])
    obtain ⟨hb, hs, hm, -, -, hw⟩ := hi
    refine ⟨⟨hb, hs, hm, fun c hc => ?_, ?_, hw⟩, hph⟩
    · simp [State.emitReqTx, State.emitDiag, State.buildRequest, hn] at hc
    · simp [framesOk, State.emitReqTx, State.emitDiag, State.buildRequest, hph, hinvalid]
  · exact ⟨hi, hph⟩

/-- PHASE_REQ_SEND (R129): after its SEND the requester waits for a frame. -/
theorem phaseReqSend_keeps_inv {s t : State} (hi : Inv s) (hph : s.phase = 5) (h : execPhaseReqSend s = .next t) :
    Inv t := by
  obtain ⟨hrender, hrenderPhase⟩ := inv_renderRequest hi hph
  refine send_keeps_inv hrender (.inr hrenderPhase) (fun u hu hup hn h => ?_) h
  cases h
  have hup := hup.trans hrenderPhase
  have herr := hu.no_error (by simp [hup])
  have hinvalid := hu.result_invalid (by simp [hup])
  obtain ⟨hb, -, ⟨-, hmode, hcount, -⟩, -, -, hw⟩ := hu
  have hrequest := hmode (.inl hup)
  refine inv_setPhase (by decide) hb herr hn hw ?_ ?_
  · simp [modeOk, phaseCode, hrequest, hcount hrequest]
  · simp [framesOk, phaseCode, hinvalid]

/-- PHASE_DETACH (R109): `RESULT` stays valid in DONE. -/
theorem phaseDetach_keeps_inv {s t : State} (hi : Inv s) (hph : s.phase = 7) (h : execPhaseDetach s = .next t) :
    Inv t := by
  obtain ⟨-, ⟨r, rest, -, h⟩ | ⟨e, -, rfl⟩⟩ := detach_next h
  · cases h
    have herr := hi.no_error (by simp [hph])
    obtain ⟨hb, -, ⟨-, hmode, hcount, -⟩, -, ⟨hvalid, -⟩, hw⟩ := hi
    have hrequest := hmode (.inr (.inr (.inl hph)))
    refine inv_setPhase (by decide) hb ⟨herr.1, rfl⟩ rfl hw ?_ ?_
    · simp [modeOk, phaseCode, called, hrequest, hcount hrequest]
    · simp [framesOk, phaseCode, called, hvalid.2 (.inl hph)]
  · exact inv_calling hi (.detach _) (fun _ => ⟨hph, rfl⟩) e

/-- An input that passes without effect keeps the invariant. -/
theorem passInput_keeps_inv {s t : State} (hi : Inv s) (h : Host.Outcome.next s.passInput = (.next t : Outcome)) :
    Inv t := by
  cases h
  unfold State.passInput
  split
  · exact hi.surroundings _ s.pins s.trace s.discardLabel
  · exact hi.surroundings _ s.pins s.trace s.discardLabel
  · exact hi

/-- The operation of every phase keeps the invariant. -/
theorem phaseInstr_keeps_inv {s t : State} {p : Phase} (hi : Inv s) (hph : s.phase = phaseCode p)
    (h : exec (phaseInstr p) s = .next t) : Inv t := by
  cases p with
  | reset => exact passInput_keeps_inv hi h
  | attach => exact phaseAttach_keeps_inv hi hph h
  | query => exact phaseQuery_keeps_inv hi hph h
  | respListen =>
    exact receive_keeps_inv hi (.inl hph) (fun u hu hup hn h => respondToRx_keeps_inv hu (hup.trans hph) hn h) h
  | respSend => exact phaseRespSend_keeps_inv hi hph h
  | reqSend => exact phaseReqSend_keeps_inv hi hph h
  | reqWait =>
    exact receive_keeps_inv hi (.inr hph) (fun u hu hup hn h => awaitReplyRx_keeps_inv hu (hup.trans hph) hn h) h
  | detach => exact phaseDetach_keeps_inv hi hph h
  | done => exact passInput_keeps_inv hi h
  | fatal => exact passInput_keeps_inv hi h

/-- The values of R38 meet the invariant in RESET and in ATTACH, with any configuration that R167 accepts. -/
theorem inv_of_reset_values (s : State) (c : Params) (hc : 42 ≤ c.rxMax) (p : Phase)
    (hp : p = .reset ∨ p = .attach) :
    Inv (State.setPhase { s.clearRegisters with cfg := c } p) := by
  refine inv_setPhase (by rcases hp with rfl | rfl <;> decide) ?_ ⟨rfl, rfl⟩ rfl rfl ?_ ?_
  · simp [buffersOk, State.clearRegisters, Memory.wf, hc]
  · rcases hp with rfl | rfl <;> simp [modeOk, phaseCode, State.clearRegisters]
  · rcases hp with rfl | rfl <;> simp [framesOk, phaseCode, State.clearRegisters]

/-- Settles O52: each input edge, and the operation of each phase, keeps the invariant. -/
theorem stepKeepsTheInvariant : Obligations.StepKeepsTheInvariant := by
  intro s t hi h
  rcases step_cases h with
    ⟨rest, -, rfl⟩ | ⟨rest, -, -, hmax, rfl⟩ | ⟨rest, -, -, rfl⟩ | ⟨p, rest, -, rfl⟩ | ⟨-, p, hp, h⟩
  · obtain ⟨⟨-, -, -, -, -, hmax⟩, -⟩ := hi
    exact inv_of_reset_values { s with env := rest } s.cfg hmax .reset (.inl rfl)
  · exact inv_of_reset_values { s with env := rest } s.pins hmax .attach (.inr rfl)
  · exact hi.surroundings rest s.pins s.trace s.discardLabel
  · exact hi.surroundings rest p s.trace s.discardLabel
  · exact phaseInstr_keeps_inv hi hp h

/-- Settles O53: the state after reset holds the values of R38, and `P_RX_MAX` is at least 42. -/
theorem resetMeetsTheInvariant : Obligations.ResetMeetsTheInvariant := by
  have hreset (p : Params) (h : 42 ≤ p.rxMax) : Inv (State.resetWith p) :=
    inv_of_reset_values (State.resetWith p) p h .attach (.inr rfl)
  exact ⟨hreset Config.params (Nat.le_add_left ..), hreset⟩

end Sys2Proof.Machine
end

section
/-! What each of the 37 instructions leaves unchanged (O56), from one frame per shared operation; and what follows
from it: `ERR_CODE` (O43) and the identity of the block (O58). -/

namespace Sys2Proof.Machine

/-- From `s` to `t` nothing changed outside the pieces of state in `w`. -/
def Changes (w : List Reg) (s t : State) : Prop := ∀ r, r ∉ w → sameReg s t r

theorem Changes.refl (w : List Reg) (s : State) : Changes w s s := by
  intro r _
  cases r <;> simp [sameReg]

theorem Changes.mono {v w : List Reg} {s t : State} (h : Changes v s t) (hv : v ⊆ w := by decide) : Changes w s t :=
  fun r hr => h r (mt (@hv r) hr)

theorem Changes.trans {w : List Reg} {s t u : State} (h : Changes w s t) (h' : Changes w t u) : Changes w s u := by
  intro r hr
  have h1 := h r hr
  have h2 := h' r hr
  cases r <;> simp_all [sameReg]

/-! ### The shared operations -/

theorem changes_setPhase (s : State) (p : Phase) : Changes [.phase] s (s.setPhase p) := by
  intro r hr
  cases r <;> simp_all [sameReg]

theorem changes_emit (s : State) (o : Output) : Changes [.trace] s (s.emit o) := by
  intro r hr
  cases r <;> simp_all [sameReg]

theorem changes_raiseFatal (s : State) (c : FatalCode) : Changes fatalWrites s (s.raiseFatal c) := by
  intro r hr
  cases r <;> simp_all [sameReg, fatalWrites]

theorem changes_discard (s : State) (d : DiscardReason) : Changes [.discardLabel] s (s.discard d) := by
  intro r hr
  cases r <;> simp_all [sameReg]

theorem changes_deliver (s : State) (bs : List Byte) : Changes [.rxBuf, .rxLen] s (s.deliver bs) := by
  intro r hr
  cases r <;> simp_all [sameReg]

theorem changes_pending (s : State) (c : Option Command) : Changes [.pending] s { s with pending := c } := by
  intro r hr
  cases r <;> simp_all [sameReg]

theorem changes_env (s : State) (e : List EnvEvent) : Changes [.env] s { s with env := e } := by
  intro r hr
  cases r <;> simp_all [sameReg]

theorem changes_wires (s : State) (w : Wires) : Changes [.wires] s { s with wires := w } := by
  intro r hr
  cases r <;> simp_all [sameReg]

theorem changes_tx (s : State) (f : Frame) : Changes [.tx] s { s with tx := f } := by
  intro r hr
  cases r <;> simp_all [sameReg]

theorem changes_txBuf (s : State) (m : Memory) : Changes [.txBuf] s { s with txBuf := m } := by
  intro r hr
  cases r <;> simp_all [sameReg]

theorem changes_exchCnt (s : State) (n : BitVec 32) : Changes [.exchCnt] s { s with exchCnt := n } := by
  intro r hr
  cases r <;> simp_all [sameReg]

theorem changes_gwHandle (s : State) (g : Handle) : Changes [.gwHandle] s { s with gwHandle := g } := by
  intro r hr
  cases r <;> simp_all [sameReg]

theorem changes_localMac (s : State) (a : HwAddr) : Changes [.localMac] s { s with localMac := a } := by
  intro r hr
  cases r <;> simp_all [sameReg]

theorem changes_exitStatus (s : State) (x : BitVec 8) : Changes [.exitStatus] s { s with exitStatus := x } := by
  intro r hr
  cases r <;> simp_all [sameReg]

theorem changes_unreadableReads (s : State) (n : Nat) :
    Changes [.unreadableReads] s { s with unreadableReads := n } := by
  intro r hr
  cases r <;> simp_all [sameReg]

theorem changes_resetRelease (s : State) :
    Changes (mayWrite .resetRelease) s (State.setPhase { s.clearRegisters with cfg := s.pins } .attach) := by
  intro r hr
  cases r <;> simp_all [sameReg, mayWrite, State.clearRegisters]

theorem changes_calling (c : Command) (s : State) (e : List EnvEvent) : Changes gatewayWrites s (calling c s e) := by
  intro r hr
  cases r <;> simp_all [sameReg, gatewayWrites, calling]

theorem changes_called (c : Command) (s : State) (e : List EnvEvent) : Changes gatewayWrites s (called c s e) := by
  intro r hr
  cases r <;> simp_all [sameReg, gatewayWrites, called]

theorem changes_encodedTx (s : State) : Changes [.txBuf] s (encodedTx s) := by
  cases h : s.pending with
  | none =>
    rw [encodedTx_of_none h]
    exact changes_txBuf s _
  | some c =>
    rw [encodedTx_of_some h]
    exact Changes.refl _ s

theorem changes_passInput (s : State) : Changes [.env] s s.passInput := by
  unfold State.passInput
  split
  · exact changes_env s _
  · exact changes_env s _
  · exact Changes.refl _ s

/-! ### The gateway's commands, with the rest of their rule -/

/-- A failed command writes what a gateway command and a fatal entry write. -/
theorem changes_failed {w : List Reg} (hg : gatewayWrites ⊆ w) (hf : fatalWrites ⊆ w) (c : Command) (s : State)
    (e : List EnvEvent) (f : FatalCode) : Changes w s (State.raiseFatal (called c s e) f) :=
  ((changes_called c s e).mono hg).trans ((changes_raiseFatal _ f).mono hf)

/-- ATTACH (R104). -/
theorem attach_changes {w : List Reg} {s t : State} {k : State → Outcome}
    (hk : ∀ u, k u = .next t → Changes w u t) (h : (attachGw s).andThen k = .next t)
    (hg : gatewayWrites ⊆ w := by decide) (hf : fatalWrites ⊆ w := by decide)
    (hv : [.gwHandle] ⊆ w := by decide) : Changes w s t := by
  obtain ⟨-, ⟨v, e, -, h⟩ | ⟨e, -, rfl⟩ | ⟨e, -, rfl⟩⟩ := attach_next h
  · exact (((changes_called _ s e).mono hg).trans ((changes_gwHandle _ v).mono hv)).trans (hk _ h)
  · exact changes_failed hg hf _ s e _
  · exact (changes_calling _ s e).mono hg

/-- QUERY_MAC (R105). -/
theorem query_changes {w : List Reg} {s t : State} {k : State → Outcome}
    (hk : ∀ u, k u = .next t → Changes w u t) (h : (queryMacGw s).andThen k = .next t)
    (hg : gatewayWrites ⊆ w := by decide) (hf : fatalWrites ⊆ w := by decide)
    (hv : [.localMac] ⊆ w := by decide) : Changes w s t := by
  obtain ⟨-, ⟨v, e, -, h⟩ | ⟨e, -, rfl⟩ | ⟨e, -, rfl⟩⟩ := query_next h
  · exact (((changes_called _ s e).mono hg).trans ((changes_localMac _ v).mono hv)).trans (hk _ h)
  · exact changes_failed hg hf _ s e _
  · exact (changes_calling _ s e).mono hg

/-- SEND (R107). -/
theorem send_changes {w : List Reg} {s t : State} {k : State → Outcome}
    (hk : ∀ u, k u = .next t → Changes w u t) (h : (sendTx s).andThen k = .next t)
    (hg : gatewayWrites ⊆ w := by decide) (hf : fatalWrites ⊆ w := by decide)
    (hb : [.txBuf] ⊆ w := by decide) : Changes w s t := by
  refine ((changes_encodedTx s).mono hb).trans ?_
  obtain ⟨-, ⟨e, -, h⟩ | ⟨e, -, rfl⟩ | ⟨e, -, rfl⟩⟩ := send_next h
  · exact ((changes_called _ _ e).mono hg).trans (hk _ h)
  · exact changes_failed hg hf _ _ e _
  · exact (changes_calling _ _ e).mono hg

/-- RECEIVE (R108). -/
theorem receive_changes {w : List Reg} {s t : State} {k : State → Outcome}
    (hk : ∀ u, k u = .next t → Changes w u t) (h : (receiveRx s).andThen k = .next t)
    (hg : gatewayWrites ⊆ w := by decide) (hf : fatalWrites ⊆ w := by decide)
    (hb : [.rxBuf, .rxLen] ⊆ w := by decide) : Changes w s t := by
  obtain ⟨-, ⟨bs, e, -, -, h⟩ | ⟨e, -, rfl⟩ | ⟨e, -, rfl⟩⟩ := receive_next h
  · exact (((changes_called _ s e).mono hg).trans ((changes_deliver _ bs).mono hb)).trans (hk (afterRx s e bs) h)
  · exact changes_failed hg hf _ s e _
  · exact (changes_calling _ s e).mono hg

/-- DETACH (R109). -/
theorem detach_changes {w : List Reg} {s t : State} {k : State → Outcome}
    (hk : ∀ u, k u = .next t → Changes w u t) (h : (detachGw s).andThen k = .next t)
    (hg : gatewayWrites ⊆ w := by decide) : Changes w s t := by
  obtain ⟨-, ⟨r, e, -, h⟩ | ⟨e, -, rfl⟩⟩ := detach_next h
  · exact ((changes_called _ s e).mono hg).trans (hk _ h)
  · exact (changes_calling _ s e).mono hg

/-! ### The engines -/

/-- The end of a rule that only answers its state. -/
theorem changes_next {w : List Reg} {s t u : State} (hs : Changes w s u) (h : (.next u : Outcome) = .next t) :
    Changes w s t := by
  cases h
  exact hs

theorem changes_selectEngine (s : State) : Changes [.phase] s s.selectEngine := by
  unfold State.selectEngine
  split
  · exact changes_setPhase s _
  · exact changes_setPhase s _

theorem changes_renderExchange (s : State) : Changes [.trace] s s.renderExchange := by
  unfold State.renderExchange
  split
  · exact (changes_emit s _).trans (changes_emit _ _)
  · exact Changes.refl _ s

theorem changes_renderRequest (s : State) : Changes [.tx, .trace] s s.renderRequest := by
  unfold State.renderRequest
  split
  · exact (changes_tx s _).mono.trans (changes_emit s.buildRequest _).mono
  · exact Changes.refl _ s

/-- What the responder latches and counts when it accepts a frame (R115). -/
theorem changes_acceptRequest (s : State) (f : Frame) :
    Changes [.req, .tx, .exchCnt, .phase] s (s.acceptRequest f) := by
  intro r hr
  cases r <;> simp_all [sameReg, State.acceptRequest, State.countExchange, State.buildReply]

/-- What the requester latches and puts out when it accepts a frame (R132). -/
theorem changes_acceptResult (s : State) (f : Frame) :
    Changes [.result, .resultValid, .trace, .phase] s (s.acceptResult f) := by
  intro r hr
  cases r <;> simp_all [sameReg, State.acceptResult, State.emitReqRx, State.emitDiag]

theorem respondToRx_changes {s t : State} (h : respondToRx s = .next t) :
    Changes [.discardLabel, .req, .tx, .exchCnt, .phase] s t := by
  rcases respondToRx_next h with ⟨d, rfl⟩ | ⟨-, -, rfl⟩
  · exact (changes_discard s d).mono
  · exact (changes_acceptRequest s _).mono

theorem awaitReplyRx_changes {s t : State} (h : awaitReplyRx s = .next t) :
    Changes [.discardLabel, .result, .resultValid, .trace, .phase] s t := by
  rcases awaitReplyRx_next h with ⟨d, rfl⟩ | ⟨-, -, rfl⟩
  · exact (changes_discard s d).mono
  · exact (changes_acceptResult s _).mono

/-! ### The frame classes -/

/-- The class of a frame that arrives is the class of its row (R66). -/
theorem frameArrives_class {c : FrameClass} {bs : List Byte} {s t : State} (h : frameArrives c bs s = .next t) :
    frameClassOfBytes (received (State.deliver { s with pending := none } bs)) = c := by
  unfold frameArrives at h
  split at h
  · split at h
    · cases h
    · rw [frameClassRx_eq] at h
      simp only [orFault] at h
      split at h
      · assumption
      · cases h
  · cases h

theorem changes_delivered (s : State) (bs : List Byte) :
    Changes [.pending, .rxBuf, .rxLen] s (State.deliver { s with pending := none } bs) :=
  (changes_pending s none).mono.trans (changes_deliver _ bs).mono

/-- A frame writes the receive's scratch and what the engine that waits latches. -/
theorem frameArrives_changes {c : FrameClass} {bs : List Byte} {s t : State} (h : frameArrives c bs s = .next t) :
    Changes frameWrites s t := by
  refine (changes_delivered s bs).mono.trans ?_
  obtain ⟨-, -, ⟨-, h⟩ | ⟨-, h⟩⟩ := frameArrives_next h
  · exact (respondToRx_changes h).mono
  · exact (awaitReplyRx_changes h).mono

/-- R66: a sequence classified ARP is of one of the three ARP classes. -/
theorem frameClassOfBytes_of_arp {bs : List Byte} (h : classOfBytes bs = .arp) :
    frameClassOfBytes bs ≠ .truncated ∧ frameClassOfBytes bs ≠ .notArp := by
  simp only [frameClassOfBytes, h]
  split
  · decide
  · split <;> decide

/-- A frame whose class is not one of ARP's is discarded: only the receive's scratch and the label change (R143). -/
theorem frameArrives_unfit_changes {c : FrameClass} {bs : List Byte} {s t : State} (hc : c = .truncated ∨ c = .notArp)
    (h : frameArrives c bs s = .next t) : Changes [.pending, .rxBuf, .rxLen, .discardLabel] s t := by
  have hnot : classOfBytes (received (State.deliver { s with pending := none } bs)) ≠ .arp := by
    intro harp
    have hclass := frameClassOfBytes_of_arp harp
    rw [frameArrives_class h] at hclass
    exact hc.elim hclass.1 hclass.2
  refine (changes_delivered s bs).mono.trans ?_
  obtain ⟨-, -, ⟨-, h⟩ | ⟨-, h⟩⟩ := frameArrives_next h
  · rcases respondToRx_next h with ⟨d, rfl⟩ | ⟨harp, -⟩
    · exact (changes_discard _ d).mono
    · exact absurd harp hnot
  · rcases awaitReplyRx_next h with ⟨d, rfl⟩ | ⟨harp, -⟩
    · exact (changes_discard _ d).mono
    · exact absurd harp hnot

/-! ### The 37 rows -/

/-- An operation that may fault, and then only answers a state. -/
theorem changes_orFault {α : Type} {w : List Reg} {s t : State} {a : Except Fault α} {k : α → Outcome}
    (hk : ∀ x, k x = .next t → Changes w s t) (h : orFault a k = .next t) : Changes w s t := by
  unfold orFault at h
  split at h
  · cases h
  · exact hk _ h

/-- Every row changes what `mayWrite` lists, and nothing else. -/
theorem exec_changes {i : Instr} {s t : State} (h : exec i s = .next t) : Changes (mayWrite i) s t := by
  cases i with
  | truncated bs => exact frameArrives_unfit_changes (.inl rfl) h
  | notArp bs => exact frameArrives_unfit_changes (.inr rfl) h
  | arpRequest f trail => exact frameArrives_changes h
  | arpReply f trail => exact frameArrives_changes h
  | arpOther f trail => exact frameArrives_changes h
  | gwAttach => exact attach_changes (fun u => changes_next (.refl _ u)) h
  | gwQueryMac => exact query_changes (fun u => changes_next (.refl _ u)) h
  | gwSend => exact send_changes (fun u => changes_next (.refl _ u)) h
  | gwReceive => exact receive_changes (fun u => changes_next (.refl _ u)) h
  | gwDetach => exact detach_changes (fun u => changes_next (.refl _ u)) h
  | phaseAttach =>
    exact attach_changes (fun u => changes_next (changes_setPhase u _).mono) h
  | phaseQuery =>
    exact query_changes (fun u => changes_next (changes_selectEngine u).mono) h
  | phaseRespListen =>
    exact receive_changes (fun u h => (respondToRx_changes h).mono) h
  | phaseRespSend =>
    exact (changes_renderExchange s).mono.trans (send_changes (fun u => changes_next (changes_setPhase u _).mono) h)
  | phaseReqSend =>
    exact (changes_renderRequest s).mono.trans (send_changes (fun u => changes_next (changes_setPhase u _).mono) h)
  | phaseReqWait =>
    exact receive_changes (fun u h => (awaitReplyRx_changes h).mono) h
  | phaseDetach =>
    refine detach_changes (fun u => changes_next ?_) h
    exact (changes_exitStatus u 0).mono.trans (changes_setPhase _ _).mono
  | phaseReset => exact changes_next (changes_passInput s) h
  | phaseDone => exact changes_next (changes_passInput s) h
  | phaseFatal => exact changes_next (changes_passInput s) h
  | classify => exact changes_orFault (fun c => changes_next (changes_wires s _)) h
  | decode => exact changes_orFault (fun f => changes_next (changes_wires s _)) h
  | encode =>
    change orFault (encodeFrameTx s.tx s) .next = .next t at h
    rw [encodeFrameTx_eq] at h
    exact changes_next (changes_txBuf s _) h
  | diag r => exact changes_next (changes_emit s _) h
  | respFilter f => exact changes_next (changes_wires s _) h
  | buildReply => exact changes_next (changes_tx s _) h
  | countExchange => exact changes_next (changes_exchCnt s _) h
  | buildRequest => exact changes_next (changes_tx s _) h
  | reqAccept f => exact changes_next (changes_wires s _) h
  | fatal c => exact changes_next (changes_raiseFatal s c) h
  | discard d => exact changes_next (changes_discard s d) h
  | resetRelease =>
    change execResetRelease s = .next t at h
    unfold execResetRelease at h
    split at h
    · cases h
    · exact changes_next (changes_resetRelease s) h
  | diagRespRx => exact changes_next (changes_emit s _) h
  | diagRespTx => exact changes_next (changes_emit s _) h
  | diagReqTx => exact changes_next (changes_emit s _) h
  | diagReqRx =>
    refine changes_next ?_ h
    split
    · exact (changes_emit s _).mono
    · exact (changes_unreadableReads s _).mono.trans (changes_emit _ _).mono
  | diagError =>
    change execDiagError s = .next t at h
    unfold execDiagError at h
    split at h
    · exact changes_next (changes_emit s _) h
    · cases h

/-- Settles O56: what a row may change is put together from the frames of the operations it is made of. -/
theorem everyInstructionKeepsItsFrame : Obligations.EveryInstructionKeepsItsFrame :=
  fun _ _ _ r h hr => exec_changes h r hr

/-! ### `ERR_CODE` -/

/-- `ERR_CODE` is as it was, or the end is a fatal entry (R140). -/
def KeptOrFatal (s t : State) : Prop := t.errCode = s.errCode ∨ ∃ u c, t = State.raiseFatal u c

section Commands

variable {s t : State} {k : State → Outcome} (hk : ∀ u, k u = .next t → t.errCode = u.errCode)
include hk

theorem attach_keptOrFatal (h : (attachGw s).andThen k = .next t) : KeptOrFatal s t := by
  obtain ⟨-, ⟨v, e, -, h⟩ | ⟨e, -, rfl⟩ | ⟨e, -, rfl⟩⟩ := attach_next h
  · exact .inl (hk _ h :)
  · exact .inr ⟨_, _, rfl⟩
  · exact .inl rfl

theorem query_keptOrFatal (h : (queryMacGw s).andThen k = .next t) : KeptOrFatal s t := by
  obtain ⟨-, ⟨v, e, -, h⟩ | ⟨e, -, rfl⟩ | ⟨e, -, rfl⟩⟩ := query_next h
  · exact .inl (hk _ h :)
  · exact .inr ⟨_, _, rfl⟩
  · exact .inl rfl

theorem receive_keptOrFatal (h : (receiveRx s).andThen k = .next t) : KeptOrFatal s t := by
  obtain ⟨-, ⟨bs, e, -, -, h⟩ | ⟨e, -, rfl⟩ | ⟨e, -, rfl⟩⟩ := receive_next h
  · exact .inl (hk _ h :)
  · exact .inr ⟨_, _, rfl⟩
  · exact .inl rfl

theorem send_keptOrFatal (h : (sendTx s).andThen k = .next t) : KeptOrFatal s t := by
  have hencoded : (encodedTx s).errCode = s.errCode := changes_encodedTx s .errCode (by decide)
  obtain ⟨-, ⟨e, -, h⟩ | ⟨e, -, rfl⟩ | ⟨e, -, rfl⟩⟩ := send_next h
  · exact .inl ((hk _ h :).trans hencoded)
  · exact .inr ⟨_, _, rfl⟩
  · exact .inl hencoded

end Commands

/-- Only a row that may fail, or FATAL itself, writes `ERR_CODE`, and then by fatal entry. -/
theorem exec_keptOrFatal {i : Instr} {s t : State} (hi : i ≠ .resetRelease) (h : exec i s = .next t) :
    KeptOrFatal s t := by
  by_cases hr : Reg.errCode ∈ mayWrite i
  · cases i with
    | gwAttach => exact attach_keptOrFatal (fun _ h => by cases h; rfl) h
    | gwQueryMac => exact query_keptOrFatal (fun _ h => by cases h; rfl) h
    | gwSend => exact send_keptOrFatal (fun _ h => by cases h; rfl) h
    | gwReceive => exact receive_keptOrFatal (fun _ h => by cases h; rfl) h
    | phaseAttach => exact attach_keptOrFatal (fun _ h => by cases h; rfl) h
    | phaseQuery =>
      exact query_keptOrFatal (fun u h => changes_next (changes_selectEngine u) h .errCode (by decide)) h
    | phaseRespListen => exact receive_keptOrFatal (fun u h => respondToRx_changes h .errCode (by decide)) h
    | phaseReqWait => exact receive_keptOrFatal (fun u h => awaitReplyRx_changes h .errCode (by decide)) h
    | phaseRespSend =>
      have hrender : s.renderExchange.errCode = s.errCode := changes_renderExchange s .errCode (by decide)
      exact (send_keptOrFatal (fun _ h => by cases h; rfl) h).imp (·.trans hrender) id
    | phaseReqSend =>
      have hrender : s.renderRequest.errCode = s.errCode := changes_renderRequest s .errCode (by decide)
      exact (send_keptOrFatal (fun _ h => by cases h; rfl) h).imp (·.trans hrender) id
    | fatal c =>
      cases h
      exact .inr ⟨s, c, rfl⟩
    | resetRelease => exact absurd rfl hi
    | _ => simp [mayWrite, frameWrites, gatewayWrites] at hr
  · exact .inl (exec_changes h .errCode hr)

/-- The codes of R141 are 1 to 4. -/
theorem fatalCode_range (c : FatalCode) : 1 ≤ (fatalCode c).toNat ∧ (fatalCode c).toNat ≤ 4 := by
  cases c <;> decide

/-- Settles O43: where `ERR_CODE` changed there was a fatal entry, and fatal entry writes all of this. -/
theorem errorCodeChangesOnlyByFatalEntry : Obligations.ErrorCodeChangesOnlyByFatalEntry := by
  intro i s t hi h hne
  obtain ⟨u, c, rfl⟩ := (exec_keptOrFatal hi h).resolve_left hne
  exact ⟨rfl, rfl, (fatalCode_range c).1, (fatalCode_range c).2, by simp [errorRecord]⟩

/-! ### The identity of the block -/

/-- A step that no input edge precedes is the operation of its phase. -/
theorem step_next_engine {s t : State} (he : engineTurn s = true) (h : step s = .next t) :
    ∃ p, s.phase = phaseCode p ∧ exec (phaseInstr p) s = .next t := by
  rw [step_engine s he, fetch_eq] at h
  cases hp : phaseOfCode s.phase with
  | none => simp [hp] at h
  | some p => exact ⟨p, phaseOfCode_eq_some.1 hp, by simpa [hp] using h⟩

/-- No phase writes the configuration; `GW_HANDLE` is written in ATTACH only, and `LOCAL_MAC` in QUERY only. -/
theorem phaseInstr_writes_no_identity (p : Phase) :
    Reg.cfg ∉ mayWrite (phaseInstr p) ∧ (p ≠ .attach → Reg.gwHandle ∉ mayWrite (phaseInstr p)) ∧
      (p ≠ .query → Reg.localMac ∉ mayWrite (phaseInstr p)) := by
  cases p <;> decide

/-- Settles O58: by the frame of the row that the phase runs. -/
theorem identityIsReadOnlyInTheEngines : Obligations.IdentityIsReadOnlyInTheEngines := by
  intro s t he h
  obtain ⟨p, hp, hexec⟩ := step_next_engine he h
  obtain ⟨hcfg, hhandle, hmac⟩ := phaseInstr_writes_no_identity p
  have hframe := exec_changes hexec
  refine ⟨hframe .cfg hcfg, fun hne => hframe .gwHandle (hhandle ?_), fun hne => hframe .localMac (hmac ?_)⟩
  · rintro rfl
    exact hne hp
  · rintro rfl
    exact hne hp

end Sys2Proof.Machine
end

section
/-! A command that is not answered (O19), the values after reset (O46), and what the registers and buffers of an earlier
exchange leave in a later one (O60). -/

namespace Sys2Proof.Machine

/-! ### Waiting for an answer -/

/-- The inputs left after a step without an answer: a quiet input passes (log 6). -/
def afterQuiet : List EnvEvent → List EnvEvent
  | .quiet :: rest => rest
  | es => es

/-- No answer is the next input. -/
def unanswered (s : State) : Prop := ∀ r rest, s.env ≠ .answer r :: rest

theorem unanswered_of_waits {s : State} {e : List EnvEvent} (h : waits s e) : unanswered s := by
  rcases h with h | ⟨-, h⟩
  · intro r rest hr
    simp [h] at hr
  · exact h

theorem awaitAnswer_unanswered {s : State} (h : unanswered s) :
    awaitAnswer s = .suspended { s with env := afterQuiet s.env } := by
  rcases awaitAnswer_cases s with ⟨r, rest, he, -⟩ | ⟨rest, he, ha⟩ | ⟨-, -⟩
  · exact absurd he (h r rest)
  · rw [ha, he, afterQuiet]
  · unfold awaitAnswer afterQuiet
    split <;> simp_all [unanswered]

theorem unanswered_or_answer (s : State) : unanswered s ∨ ∃ r rest, s.env = .answer r :: rest := by
  by_cases h : unanswered s
  · exact .inl h
  · exact .inr (by simpa [unanswered] using h)

theorem awaitAnswer_answer {s : State} {r : Response} {rest : List EnvEvent} (h : s.env = .answer r :: rest) :
    awaitAnswer s = .answered r { s with env := rest, pending := none } := by
  simp only [awaitAnswer, h]

/-- Without an answer the command is put out once, is pending, and nothing else happens (R36, R101). -/
theorem gwCall_unanswered {c : Command} {s : State} (hc : callable c s) (h : unanswered s) :
    gwCall c s = .suspended (calling c s (afterQuiet s.env)) := by
  rw [gwCall_eq c s hc]
  exact awaitAnswer_unanswered h

theorem attachGw_unanswered {s : State} (hc : callable (.attach s.cfg.devName) s) (h : unanswered s) :
    attachGw s = .ended (calling (.attach s.cfg.devName) s (afterQuiet s.env)) := by
  simp only [attachGw, gwCall_unanswered hc h]

theorem queryMacGw_unanswered {s : State} (hc : callable (.queryMac s.gwHandle) s) (h : unanswered s) :
    queryMacGw s = .ended (calling (.queryMac s.gwHandle) s (afterQuiet s.env)) := by
  simp only [queryMacGw, gwCall_unanswered hc h]

theorem receiveRx_unanswered {s : State} (hc : callable (.receive s.gwHandle s.cfg.rxMax) s) (h : unanswered s) :
    receiveRx s = .ended (calling (.receive s.gwHandle s.cfg.rxMax) s (afterQuiet s.env)) := by
  simp only [receiveRx, gwCall_unanswered hc h]

theorem detachGw_unanswered {s : State} (hc : callable (.detach s.gwHandle) s) (h : unanswered s) :
    detachGw s = .ended (calling (.detach s.gwHandle) s (afterQuiet s.env)) := by
  simp only [detachGw, gwCall_unanswered hc h]

/-- A rule whose command ends the step ends there, whatever its rest. -/
theorem andThen_of_ended {w : Flow} {s : State} (h : w = .ended s) (k : State → Outcome) : w.andThen k = .next s := by
  rw [h, Flow.andThen]

/-- Settles O19: in each row the command's own part of the rule ends the step. -/
theorem unansweredCommandStaysPending : Obligations.UnansweredCommandStaysPending := by
  intro s i c hrow hc
  have hexec (h : unanswered s) : exec i s = .next (calling c s (afterQuiet s.env)) := by
    simp only [List.mem_cons, Prod.mk.injEq, List.not_mem_nil, or_false] at hrow
    rcases hrow with ⟨rfl, rfl⟩ | ⟨rfl, rfl⟩ | ⟨rfl, rfl⟩ | ⟨rfl, rfl⟩ | ⟨rfl, rfl⟩ | ⟨rfl, rfl⟩ | ⟨rfl, rfl⟩ |
      ⟨rfl, rfl⟩ | ⟨rfl, rfl⟩
    · exact andThen_of_ended (attachGw_unanswered hc h) _
    · exact andThen_of_ended (attachGw_unanswered hc h) _
    · exact andThen_of_ended (queryMacGw_unanswered hc h) _
    · exact andThen_of_ended (queryMacGw_unanswered hc h) _
    · exact andThen_of_ended (receiveRx_unanswered hc h) _
    · exact andThen_of_ended (receiveRx_unanswered hc h) _
    · exact andThen_of_ended (receiveRx_unanswered hc h) _
    · exact andThen_of_ended (detachGw_unanswered hc h) _
    · exact andThen_of_ended (detachGw_unanswered hc h) _
  refine ⟨fun he => ?_, fun rest he => ?_⟩
  · rw [hexec (by simp [unanswered, he])]
    simp only [calling, he, afterQuiet]
  · rw [hexec (by simp [unanswered, he])]
    simp only [calling, he, afterQuiet]

/-! ### The values after reset -/

/-- Settles O46: the values of R38 stand in the state after reset, and Config keeps `P_RX_MAX` above 42 (R167). -/
theorem resetStateHoldsTheGivenValues : Obligations.ResetStateHoldsTheGivenValues := by
  refine ⟨fun p => ⟨rfl, rfl, rfl, rfl, rfl, rfl, rfl⟩, rfl, ?_, rfl, rfl, rfl⟩
  exact Nat.le_add_left 42 Config.pRxMaxAbove42

/-! ### From one exchange to the next -/

/-- The state with other contents in the registers and buffers of an exchange (R25). -/
def withFrames (s : State) (q x : Frame) (rx tx : Memory) (n : Nat) : State :=
  { s with req := q, tx := x, rxBuf := rx, rxLen := n, txBuf := tx }

/-- The two states have the same outputs, phase, counter, pending command and inputs. -/
def SameConduct (t t' : State) : Prop :=
  t'.trace = t.trace ∧ t'.phase = t.phase ∧ t'.exchCnt = t.exchCnt ∧ t'.pending = t.pending ∧ t'.env = t.env

section Frames

variable {s t t' : State} {q x : Frame} {rx tx : Memory} {n : Nat}

/-- What the responder makes of a received sequence does not depend on the frames before it (R115). -/
theorem respondToRx_ignores_frames {bs : List Byte} {rest : List EnvEvent} (hs : s.rxBuf.wf = true)
    (hrx : rx.wf = true) (hph : s.phase = 3) (h : respondToRx (afterRx s rest bs) = .next t)
    (h' : respondToRx (afterRx (withFrames s q x rx tx n) rest bs) = .next t') :
    SameConduct t t' ∧ (t.phase = 4 → t'.req = t.req ∧ t'.tx = t.tx) := by
  have hkeep {r r' : DiscardReason} (hd : (afterRx s rest bs).discard r = t)
      (hd' : (afterRx (withFrames s q x rx tx n) rest bs).discard r' = t') :
      SameConduct t t' ∧ (t.phase = 4 → t'.req = t.req ∧ t'.tx = t.tx) := by
    subst hd hd'
    refine ⟨⟨rfl, rfl, rfl, rfl, rfl⟩, fun h4 => ?_⟩
    simp [afterRx, hph] at h4
  have hcfg : (afterRx (withFrames s q x rx tx n) rest bs).cfg = (afterRx s rest bs).cfg := rfl
  rw [respondToRx_eq, received_afterRx _ _ _ hs] at h
  rw [respondToRx_eq, received_afterRx _ _ _ hrx, hcfg] at h'
  cases hc : classOfBytes bs <;> rw [hc] at h h' <;> dsimp only at h h'
  case truncated => exact hkeep (Host.Outcome.next.inj h) (Host.Outcome.next.inj h')
  case notArp => exact hkeep (Host.Outcome.next.inj h) (Host.Outcome.next.inj h')
  case arp =>
    cases hv : respFilterOf (afterRx s rest bs).cfg (frameOfBytes bs) <;> rw [hv] at h h'
    case opcodeFiltered => exact hkeep (Host.Outcome.next.inj h) (Host.Outcome.next.inj h')
    case targetFiltered => exact hkeep (Host.Outcome.next.inj h) (Host.Outcome.next.inj h')
    case accept =>
      cases h
      cases h'
      exact ⟨⟨rfl, rfl, rfl, rfl, rfl⟩, fun _ => ⟨rfl, rfl⟩⟩

/-- PHASE_RESP_LISTEN (R115) does not depend on the frames of an earlier exchange. -/
theorem respListen_ignores_frames (hs : s.rxBuf.wf = true) (hrx : rx.wf = true) (hph : s.phase = 3)
    (h : execPhaseRespListen s = .next t) (h' : execPhaseRespListen (withFrames s q x rx tx n) = .next t') :
    SameConduct t t' ∧ (t.phase = 4 → t'.req = t.req ∧ t'.tx = t.tx) := by
  obtain ⟨hc, ⟨bs, rest, he, hl, hrest⟩ | ⟨rest, he, ht⟩ | ⟨e, hw, -⟩⟩ := receive_next h
  · have hrx' := receiveRx_ok (s := withFrames s q x rx tx n) hc he hl
    rw [execPhaseRespListen, hrx'] at h'
    exact respondToRx_ignores_frames hs hrx hph hrest h'
  · have hrx' := receiveRx_fail (s := withFrames s q x rx tx n) hc he
    rw [execPhaseRespListen, andThen_of_ended hrx'] at h'
    cases ht
    cases h'
    exact ⟨⟨rfl, rfl, rfl, rfl, rfl⟩, fun h9 => absurd h9 (by simp [phaseCode])⟩
  · have hno := unanswered_of_waits hw
    rw [execPhaseRespListen, andThen_of_ended (receiveRx_unanswered hc hno)] at h
    rw [execPhaseRespListen, andThen_of_ended (receiveRx_unanswered (s := withFrames s q x rx tx n) hc hno)] at h'
    cases h
    cases h'
    exact ⟨⟨rfl, rfl, rfl, rfl, rfl⟩, fun h4 => absurd (hph.symm.trans h4) (by decide)⟩

/-- What follows the requester's SEND (R129) does not depend on the frames of an earlier exchange. -/
theorem reqSendReply_ignores_frames (hph : s.phase = 5)
    (h : (ofSendReply (awaitAnswer s)).andThen (fun u => .next (u.setPhase .reqWait)) = .next t)
    (h' : (ofSendReply (awaitAnswer (withFrames s q s.tx rx tx n))).andThen
      (fun u => .next (u.setPhase .reqWait)) = .next t') :
    SameConduct t t' ∧ t'.tx = t.tx ∧ t.phase ≠ 4 := by
  rcases unanswered_or_answer s with hno | ⟨r, rest, he⟩
  · rw [awaitAnswer_unanswered hno] at h
    rw [awaitAnswer_unanswered (s := withFrames s q s.tx rx tx n) hno] at h'
    cases h
    cases h'
    exact ⟨⟨rfl, rfl, rfl, rfl, rfl⟩, rfl, by simp [hph]⟩
  · rw [awaitAnswer_answer he] at h
    rw [awaitAnswer_answer (s := withFrames s q s.tx rx tx n) he] at h'
    cases r with
    | fail =>
      cases h
      cases h'
      exact ⟨⟨rfl, rfl, rfl, rfl, rfl⟩, rfl, by simp [phaseCode]⟩
    | ok v =>
      cases v with
      | empty =>
        cases h
        cases h'
        exact ⟨⟨rfl, rfl, rfl, rfl, rfl⟩, rfl, by simp [phaseCode]⟩
      | _ => cases h

theorem renderRequest_of_none (hn : s.pending = none) : s.renderRequest = s.buildRequest.emitReqTx := by
  unfold State.renderRequest
  split
  · rfl
  · simp_all

/-- The requester with its request built, rendered, encoded as `m` and put out (R129). -/
def requestOut (s : State) (m : Memory) : State :=
  { afterSend s.buildRequest.emitReqTx with
    txBuf := m, pending := some (.send s.gwHandle (wireImage s.buildRequest.tx)) }

theorem phaseReqSend_of_none (hs : s.txBuf.wf = true) (hn : s.pending = none) :
    ∃ m, execPhaseReqSend s =
      (ofSendReply (awaitAnswer (requestOut s m))).andThen fun u => .next (u.setPhase .reqWait) := by
  refine ⟨(afterSend s.buildRequest.emitReqTx).txBuf, ?_⟩
  rw [execPhaseReqSend, renderRequest_of_none hn, sendTx_idle s.buildRequest.emitReqTx hs hn]
  rfl

/-- PHASE_REQ_SEND (R129) does not depend on the frames of an earlier exchange: the request is built anew. -/
theorem reqSend_ignores_frames (hs : s.txBuf.wf = true) (htx : tx.wf = true) (hph : s.phase = 5) (hn : s.pending = none)
    (h : execPhaseReqSend s = .next t) (h' : execPhaseReqSend (withFrames s q x rx tx n) = .next t') :
    SameConduct t t' ∧ t'.tx = t.tx ∧ t.phase ≠ 4 := by
  obtain ⟨m, hm⟩ := phaseReqSend_of_none hs hn
  obtain ⟨m', hm'⟩ := phaseReqSend_of_none (s := withFrames s q x rx tx n) htx hn
  have hout : requestOut (withFrames s q x rx tx n) m' =
      withFrames (requestOut s m) q (requestOut s m).tx rx m' n := rfl
  rw [hm] at h
  rw [hm', hout] at h'
  exact reqSendReply_ignores_frames (s := requestOut s m) hph h h'

end Frames

/-- Settles O60: in each of the two phases, the step from either state is the phase's operation. -/
theorem noFrameStateBetweenExchanges : Obligations.NoFrameStateBetweenExchanges := by
  intro s q x rx tx n t t' hrx htx hrx' htx' hph he h h'
  change step (withFrames s q x rx tx n) = .next t' at h'
  rcases hph with hph | ⟨hph, hn⟩
  · rw [step_phase s he .respListen hph] at h
    rw [step_phase (withFrames s q x rx tx n) he .respListen hph] at h'
    obtain ⟨⟨htrace, hphase, hcnt, hpend, henv⟩, haccept⟩ := respListen_ignores_frames hrx hrx' hph h h'
    exact ⟨htrace, hphase, hcnt, hpend, henv, haccept, fun h5 => absurd (hph.symm.trans h5) (by decide)⟩
  · rw [step_phase s he .reqSend hph] at h
    rw [step_phase (withFrames s q x rx tx n) he .reqSend hph] at h'
    obtain ⟨⟨htrace, hphase, hcnt, hpend, henv⟩, htx, h4⟩ := reqSend_ignores_frames htx htx' hph hn h h'
    exact ⟨htrace, hphase, hcnt, hpend, henv, fun h => absurd h h4, fun _ => htx⟩

end Sys2Proof.Machine
end

section
/-! The two byte spaces: what MemRead and MemWrite answer (O4, O5), and the bytes an instruction can store (O57). -/

namespace Sys2Proof.Machine

/-! ### MemRead and MemWrite -/

/-- Byte `k` of a sequence is the `k`-th most significant byte of its big-endian value (R12). -/
theorem ofNat_beNat_div_eq_getElem (bs : List Byte) {k : Nat} (h : k < bs.length) :
    BitVec.ofNat 8 (beNat bs / 256 ^ (bs.length - 1 - k)) = bs[k] := by
  rw [← beBytes_getElem bs.length (beNat bs) k (by simpa using h)]
  simp only [beBytes_beNat]

/-- Settles O4: MemRead is the big-endian value of the bytes read, and the codec's reads are guarded by CLASSIFY. -/
theorem memReadIsBigEndianOrFaults : Obligations.MemReadIsBigEndianOrFaults := by
  intro addr n s
  have hlen := bytesFrom_length s.rxBuf addr n
  refine ⟨fun hin => ⟨beNat (bytesFrom s.rxBuf addr n), if_pos hin, ?_, fun k hk => ?_⟩,
    fun hout => if_neg (by omega), ⟨_, classifyRx_eq s⟩, ?_⟩
  · simpa only [hlen] using beNat_lt (bytesFrom s.rxBuf addr n)
  · have hbyte := ofNat_beNat_div_eq_getElem (bytesFrom s.rxBuf addr n) (hlen.symm ▸ hk)
    simpa only [bytesFrom_length, bytesFrom_getElem] using hbyte
  · rw [decodeRx_eq]
    split
    · exact nofun
    · exact nofun

/-- Settles O5: MemWrite is one write of the value's bytes, and ENCODE's twelve writes are one write of the image. -/
theorem memWriteIsBigEndianAndLocal : Obligations.MemWriteIsBigEndianAndLocal := by
  intro addr n v s hm
  refine ⟨fun hin => ⟨setBytes s.txBuf addr (beBytes n v), if_pos hin, wf_setBytes hm _ _, fun k hk => ?_,
    fun a ha => ?_⟩, fun hout => if_neg (by omega), fun f => ⟨_, encodeFrameTx_eq f s⟩⟩
  · rw [byteAt_setBytes hm, dif_pos (by rw [beBytes_length]; omega), beBytes_getElem, Nat.add_sub_cancel_left]
  · rw [byteAt_setBytes hm, dif_neg (by rw [beBytes_length]; omega)]

/-! ### What stands in the buffers after an instruction -/

/-- Both buffers and `RX_LEN` are as before. -/
def SameBuffers (s t : State) : Prop := t.txBuf = s.txBuf ∧ t.rxBuf = s.rxBuf ∧ t.rxLen = s.rxLen

/-- What a row has stored: nothing, 42 bytes of `TX_BUF` (R84), or a received sequence in `RX_BUF` (R108). -/
inductive Stores (s t : State) : Prop where
  | nothing (h : SameBuffers s t)
  | image (bs : List Byte) (hl : bs.length = 42) (h : SameBuffers { s with txBuf := setBytes s.txBuf 0 bs } t)
  | sequence (bs : List Byte) (h : SameBuffers (s.deliver bs) t)

theorem SameBuffers.trans {s t u : State} (h : SameBuffers s t) (h' : SameBuffers t u) : SameBuffers s u := by
  obtain ⟨htx, hrx, hlen⟩ := h
  obtain ⟨htx', hrx', hlen'⟩ := h'
  exact ⟨htx'.trans htx, hrx'.trans hrx, hlen'.trans hlen⟩

/-- The end of a rule that only answers a state with the same buffers. -/
theorem sameBuffers_next {s t u : State} (h : (.next u : Outcome) = .next t)
    (hu : SameBuffers s u := by exact ⟨rfl, rfl, rfl⟩) : SameBuffers s t := by
  cases h
  exact hu

/-- Operations that keep the buffers may come before the ones that store. -/
theorem Stores.of_sameBuffers {s t u : State} (hu : SameBuffers s u) (h : Stores u t) : Stores s t := by
  obtain ⟨htx, hrx, hlen⟩ := hu
  cases h with
  | nothing h => exact .nothing (.trans ⟨htx, hrx, hlen⟩ h)
  | image bs hl h =>
    have himage : SameBuffers { s with txBuf := setBytes s.txBuf 0 bs } { u with txBuf := setBytes u.txBuf 0 bs } :=
      ⟨by rw [htx], hrx, hlen⟩
    exact .image bs hl (himage.trans h)
  | sequence bs h =>
    have hdeliver : SameBuffers (s.deliver bs) (u.deliver bs) := ⟨htx, by simp only [deliver_rxBuf, hrx], rfl⟩
    exact .sequence bs (hdeliver.trans h)

/-- Operations that keep the buffers may come after the ones that store. -/
theorem Stores.then_sameBuffers {s t u : State} (h : Stores s u) (hu : SameBuffers u t) : Stores s t := by
  cases h with
  | nothing h => exact .nothing (h.trans hu)
  | image bs hl h => exact .image bs hl (h.trans hu)
  | sequence bs h => exact .sequence bs (h.trans hu)

theorem sameBuffers_passInput (s : State) : SameBuffers s s.passInput := by
  unfold State.passInput
  split <;> exact ⟨rfl, rfl, rfl⟩

theorem sameBuffers_selectEngine (s : State) : SameBuffers s s.selectEngine := by
  unfold State.selectEngine
  split <;> exact ⟨rfl, rfl, rfl⟩

theorem sameBuffers_renderExchange (s : State) : SameBuffers s s.renderExchange := by
  unfold State.renderExchange
  split <;> exact ⟨rfl, rfl, rfl⟩

theorem sameBuffers_renderRequest (s : State) : SameBuffers s s.renderRequest := by
  unfold State.renderRequest
  split <;> exact ⟨rfl, rfl, rfl⟩

/-- The responder reads the received sequence and stores nothing (R115). -/
theorem respondToRx_sameBuffers {s t : State} (h : respondToRx s = .next t) : SameBuffers s t := by
  rcases respondToRx_next h with ⟨d, rfl⟩ | ⟨-, -, rfl⟩ <;> exact ⟨rfl, rfl, rfl⟩

/-- The requester reads the received sequence and stores nothing (R132). -/
theorem awaitReplyRx_sameBuffers {s t : State} (h : awaitReplyRx s = .next t) : SameBuffers s t := by
  rcases awaitReplyRx_next h with ⟨d, rfl⟩ | ⟨-, -, rfl⟩ <;> exact ⟨rfl, rfl, rfl⟩

/-- `send_tx()` encodes `TX` unless its SEND is pending (R101, R107). -/
theorem stores_encodedTx (s : State) : Stores s (encodedTx s) := by
  cases hp : s.pending with
  | none =>
    rw [encodedTx_of_none hp]
    exact .image _ (bytesOfFrame_length s.tx) ⟨rfl, rfl, rfl⟩
  | some c =>
    rw [encodedTx_of_some hp]
    exact .nothing ⟨rfl, rfl, rfl⟩

section Commands

variable {s t : State} {k : State → Outcome} (hk : ∀ u, k u = .next t → SameBuffers u t)
include hk

/-- ATTACH (R104). -/
theorem attach_sameBuffers (h : (attachGw s).andThen k = .next t) : SameBuffers s t := by
  obtain ⟨-, ⟨v, e, -, h⟩ | ⟨e, -, rfl⟩ | ⟨e, -, rfl⟩⟩ := attach_next h
  · exact (hk _ h :)
  · exact ⟨rfl, rfl, rfl⟩
  · exact ⟨rfl, rfl, rfl⟩

/-- QUERY_MAC (R105). -/
theorem query_sameBuffers (h : (queryMacGw s).andThen k = .next t) : SameBuffers s t := by
  obtain ⟨-, ⟨v, e, -, h⟩ | ⟨e, -, rfl⟩ | ⟨e, -, rfl⟩⟩ := query_next h
  · exact (hk _ h :)
  · exact ⟨rfl, rfl, rfl⟩
  · exact ⟨rfl, rfl, rfl⟩

/-- DETACH (R109). -/
theorem detach_sameBuffers (h : (detachGw s).andThen k = .next t) : SameBuffers s t := by
  obtain ⟨-, ⟨r, e, -, h⟩ | ⟨e, -, rfl⟩⟩ := detach_next h
  · exact (hk _ h :)
  · exact ⟨rfl, rfl, rfl⟩

/-- RECEIVE (R108): an OK answer is delivered; on FAIL, or without an answer, nothing is stored. -/
theorem receive_stores (h : (receiveRx s).andThen k = .next t) : Stores s t := by
  obtain ⟨-, ⟨bs, e, -, -, h⟩ | ⟨e, -, rfl⟩ | ⟨e, -, rfl⟩⟩ := receive_next h
  · exact .sequence bs (hk (afterRx s e bs) h :)
  · exact .nothing ⟨rfl, rfl, rfl⟩
  · exact .nothing ⟨rfl, rfl, rfl⟩

/-- SEND (R107): whatever the answer, only the encoding before it stores. -/
theorem send_stores (h : (sendTx s).andThen k = .next t) : Stores s t := by
  refine (stores_encodedTx s).then_sameBuffers ?_
  obtain ⟨-, ⟨e, -, h⟩ | ⟨e, -, rfl⟩ | ⟨e, -, rfl⟩⟩ := send_next h
  · exact (hk _ h :)
  · exact ⟨rfl, rfl, rfl⟩
  · exact ⟨rfl, rfl, rfl⟩

end Commands

/-- A frame that arrives is delivered, and the engine that waits stores nothing more (R66, R108). -/
theorem frameArrives_stores {c : FrameClass} {bs : List Byte} {s t : State} (h : frameArrives c bs s = .next t) :
    Stores s t := by
  obtain ⟨-, -, ⟨-, h⟩ | ⟨-, h⟩⟩ := frameArrives_next h
  · exact .sequence bs (respondToRx_sameBuffers h :)
  · exact .sequence bs (awaitReplyRx_sameBuffers h :)

/-- An operation that may fault, and then only answers a state with the same buffers. -/
theorem orFault_sameBuffers {α : Type} {s t : State} {a : Except Fault α} {k : α → Outcome}
    (hk : ∀ x, k x = .next t → SameBuffers s t) (h : orFault a k = .next t) : SameBuffers s t := by
  cases a with
  | error f => cases h
  | ok x => exact hk x h

/-- Every row but RESET_RELEASE, which clears the buffers, stores nothing, one image or one received sequence. -/
theorem exec_stores {i : Instr} {s t : State} (hi : i ≠ .resetRelease) (h : exec i s = .next t) : Stores s t := by
  cases i with
  | truncated | notArp | arpRequest | arpReply | arpOther => exact frameArrives_stores h
  | gwReceive => exact receive_stores (fun _ h => sameBuffers_next h) h
  | phaseRespListen => exact receive_stores (fun _ => respondToRx_sameBuffers) h
  | phaseReqWait => exact receive_stores (fun _ => awaitReplyRx_sameBuffers) h
  | gwSend => exact send_stores (fun _ h => sameBuffers_next h) h
  | phaseRespSend =>
    exact .of_sameBuffers (sameBuffers_renderExchange s) (send_stores (fun _ h => sameBuffers_next h) h)
  | phaseReqSend =>
    exact .of_sameBuffers (sameBuffers_renderRequest s) (send_stores (fun _ h => sameBuffers_next h) h)
  | encode =>
    change orFault (encodeFrameTx s.tx s) .next = .next t at h
    rw [encodeFrameTx_eq] at h
    exact .image _ (bytesOfFrame_length s.tx) (sameBuffers_next h)
  | gwAttach | phaseAttach => exact .nothing (attach_sameBuffers (fun _ h => sameBuffers_next h) h)
  | gwQueryMac => exact .nothing (query_sameBuffers (fun _ h => sameBuffers_next h) h)
  | phaseQuery => exact .nothing (query_sameBuffers (fun u h => sameBuffers_next h (sameBuffers_selectEngine u)) h)
  | gwDetach | phaseDetach => exact .nothing (detach_sameBuffers (fun _ h => sameBuffers_next h) h)
  | phaseReset | phaseDone | phaseFatal => exact .nothing (sameBuffers_next h (sameBuffers_passInput s))
  | classify | decode => exact .nothing (orFault_sameBuffers (fun _ h => sameBuffers_next h) h)
  | diag | respFilter | buildReply | countExchange | buildRequest | reqAccept | fatal | discard
  | diagRespRx | diagRespTx | diagReqTx => exact .nothing (sameBuffers_next h)
  | diagReqRx =>
    refine .nothing (sameBuffers_next h ?_)
    split <;> exact ⟨rfl, rfl, rfl⟩
  | diagError =>
    change execDiagError s = .next t at h
    unfold execDiagError at h
    split at h
    · exact .nothing (sameBuffers_next h)
    · cases h
  | resetRelease => exact absurd rfl hi

/-- Settles O57: a received sequence covers `RX_LEN` bytes and an image 42, and a write keeps the canonical form. -/
theorem storesStayInsideTheirBytes : Obligations.StoresStayInsideTheirBytes := by
  intro i s t hi hrx htx h
  cases exec_stores hi h with
  | nothing h =>
    obtain ⟨htx', hrx', -⟩ := h
    rw [htx', hrx']
    exact ⟨fun _ _ => rfl, fun _ _ => rfl, hrx, htx⟩
  | image bs hl h =>
    obtain ⟨htx', hrx', -⟩ := h
    rw [htx', hrx', ← hl]
    exact ⟨(stored_setBytes htx bs).2, fun _ _ => rfl, hrx, wf_setBytes htx 0 _⟩
  | sequence bs h =>
    obtain ⟨htx', hrx', hlen⟩ := h
    rw [htx', hrx', hlen, deliver_txBuf, deliver_rxBuf, deliver_rxLen]
    exact ⟨fun _ _ => rfl, (stored_setBytes hrx bs).2, wf_setBytes hrx 0 bs, htx⟩

end Sys2Proof.Machine
end

section
/-! The encodings (O1 to O3): the encoder read backwards, one lemma per space, and the frame classes of R66 as conditions
on the received bytes. -/

namespace Sys2Proof.Machine

/-! ### The four spaces of encodings -/

/-- Settles O1: each word is looked up in its table; the frame is well formed and its image is the 42 bytes. -/
theorem specWordsDecode : Obligations.SpecWordsDecode :=
  ⟨rfl, rfl, rfl, congrArg Except.ok (decodeFrame_of_wellFormed rfl rfl), rfl, rfl, rfl⟩

/-- Only the rows of R66 encode as a frame, and as their bytes. -/
theorem frameBytesOf_of_encode {i : Instr} {bs : List Byte} (h : encode i = some (.frame bs)) :
    frameBytesOf i = some bs := by
  cases i <;> cases h <;> rfl

theorem encode_of_frameBytesOf {i : Instr} {bs : List Byte} (h : frameBytesOf i = some bs) :
    encode i = some (.frame bs) := by
  cases i <;> cases h <;> rfl

/-- Encoder and decoder read the table of R69 alike. -/
theorem decodeGatewayOp_of_encode {i : Instr} {op : BitVec 4} (h : encode i = some (.gatewayOp op)) :
    decodeGatewayOp op = .ok i := by
  cases i <;> cases h <;> rfl

/-- Encoder and decoder read the table of R72 alike. -/
theorem decodePhase_of_encode {i : Instr} {c : BitVec 4} (h : encode i = some (.phaseCode c)) :
    decodePhase c = .ok i := by
  cases i <;> cases h <;> rfl

/-- Encoder and decoder read the table of R71 alike. -/
theorem decodeDiagKind_of_encode {i : Instr} {k : BitVec 3} (h : encode i = some (.diagKind k)) :
    decodeDiagKind k = .ok i := by
  cases i <;> cases h <;> rfl

/-- Settles O2, space by space: a frame row needs to be well formed, a coded row always is. -/
theorem encodedInstructionDecodesBack : Obligations.EncodedInstructionDecodesBack := by
  intro i e hw he
  cases e with
  | frame bs => exact congrArg Except.ok (decodeFrame_of_wellFormed (frameBytesOf_of_encode he) hw)
  | gatewayOp op => exact decodeGatewayOp_of_encode he
  | phaseCode c => exact decodePhase_of_encode he
  | diagKind k => exact decodeDiagKind_of_encode he

/-! ### The frame classes -/

theorem classOf_eq_truncated {i : Instr} : classOf i = some .truncated ↔ ∃ b, i = .truncated b := by
  cases i <;> simp [classOf]

theorem classOf_eq_notArp {i : Instr} : classOf i = some .notArp ↔ ∃ b, i = .notArp b := by
  cases i <;> simp [classOf]

theorem classOf_eq_arpRequest {i : Instr} : classOf i = some .arpRequest ↔ ∃ f t, i = .arpRequest f t := by
  cases i <;> simp [classOf]

theorem classOf_eq_arpReply {i : Instr} : classOf i = some .arpReply ↔ ∃ f t, i = .arpReply f t := by
  cases i <;> simp [classOf]

theorem classOf_eq_arpOther {i : Instr} : classOf i = some .arpOther ↔ ∃ f t, i = .arpOther f t := by
  cases i <;> simp [classOf]

/-- The frame class of a sequence classified ARP is its opcode's (R66). -/
theorem frameClassOfBytes_arp {bs : List Byte} (h : classOfBytes bs = .arp) :
    frameClassOfBytes bs =
      if (frameOfBytes bs).oper = Config.arpOpRequest then .arpRequest
      else if (frameOfBytes bs).oper = Config.arpOpReply then .arpReply
      else .arpOther := by
  simp only [frameClassOfBytes, h]

section Classes
variable (bs : List Byte)

theorem frameClassOfBytes_eq_truncated : frameClassOfBytes bs = .truncated ↔ classOfBytes bs = .truncated := by
  cases h : classOfBytes bs with
  | truncated | notArp => simp [frameClassOfBytes, h]
  | arp => simp [(frameClassOfBytes_of_arp h).1]

theorem frameClassOfBytes_eq_notArp : frameClassOfBytes bs = .notArp ↔ classOfBytes bs = .notArp := by
  cases h : classOfBytes bs with
  | truncated | notArp => simp [frameClassOfBytes, h]
  | arp => simp [(frameClassOfBytes_of_arp h).2]

theorem frameClassOfBytes_eq_arpRequest :
    frameClassOfBytes bs = .arpRequest ↔ classOfBytes bs = .arp ∧ (frameOfBytes bs).oper = Config.arpOpRequest := by
  cases h : classOfBytes bs with
  | truncated | notArp => simp [frameClassOfBytes, h]
  | arp => rw [frameClassOfBytes_arp h]; split_ifs <;> simp_all

theorem frameClassOfBytes_eq_arpReply :
    frameClassOfBytes bs = .arpReply ↔ classOfBytes bs = .arp ∧ (frameOfBytes bs).oper = Config.arpOpReply := by
  cases h : classOfBytes bs with
  | truncated | notArp => simp [frameClassOfBytes, h]
  | arp => rw [frameClassOfBytes_arp h]; split_ifs <;> simp_all

theorem frameClassOfBytes_eq_arpOther :
    frameClassOfBytes bs = .arpOther ↔ classOfBytes bs = .arp ∧
      ¬ ((frameOfBytes bs).oper = Config.arpOpRequest ∨ (frameOfBytes bs).oper = Config.arpOpReply) := by
  cases h : classOfBytes bs with
  | truncated | notArp => simp [frameClassOfBytes, h]
  | arp => rw [frameClassOfBytes_arp h]; split_ifs <;> simp_all

end Classes

/-- Settles O3: `decodeFrame` keeps every byte and gives the class of `frameClassOfBytes`, read off the bytes. -/
theorem everyReceivedSequenceHasItsClass : Obligations.EveryReceivedSequenceHasItsClass := by
  intro bs
  obtain ⟨hbytes, hwf⟩ := decodeFrame_spec bs
  have hreq (h : 42 ≤ bs.length) := oper_eq_iff bs h Config.arpOpRequest 0x00 0x01 rfl
  have hrep (h : 42 ≤ bs.length) := oper_eq_iff bs h Config.arpOpReply 0x00 0x02 rfl
  refine ⟨decodeFrame bs, rfl, hwf, encode_of_frameBytesOf hbytes, ?_⟩
  rw [← classOf_eq_truncated, ← classOf_eq_notArp, ← classOf_eq_arpRequest, ← classOf_eq_arpReply,
    ← classOf_eq_arpOther, classOf_decodeFrame]
  simp only [Option.some.injEq, frameClassOfBytes_eq_truncated, frameClassOfBytes_eq_notArp,
    frameClassOfBytes_eq_arpRequest, frameClassOfBytes_eq_arpReply, frameClassOfBytes_eq_arpOther,
    classOfBytes_eq_arp]
  refine ⟨classOfBytes_eq_truncated bs, classOfBytes_eq_notArp bs, ?_, ?_, ?_⟩
  · rw [and_assoc]
    exact and_congr_right fun h => and_congr_right fun _ => hreq h
  · rw [and_assoc]
    exact and_congr_right fun h => and_congr_right fun _ => hrep h
  · rw [and_assoc]
    exact and_congr_right fun h => and_congr_right fun _ => by rw [hreq h, hrep h, and_or_left]

end Sys2Proof.Machine
end

section
/-! The frame rows as the answer of a waiting engine (O36, O37, O51), the rows of R71 (O13), and what a step performs
(O49). -/

namespace Sys2Proof.Machine

/-! ### The waiting engine -/

/-- Both engines discard a sequence that is too short (R115, R132). -/
theorem engineOnRx_truncated {s : State} (hph : s.phase = 3 ∨ s.phase = 6)
    (hc : classOfBytes (received s) = .truncated) : engineOnRx s = .next (s.discard .truncated) := by
  rcases hph with h | h
  · rw [engineOnRx_respond s h, respondToRx_eq, hc]
  · rw [engineOnRx_request s h, awaitReplyRx_eq, hc]

/-- Both engines discard a sequence of another ethertype. -/
theorem engineOnRx_notArp {s : State} (hph : s.phase = 3 ∨ s.phase = 6)
    (hc : classOfBytes (received s) = .notArp) : engineOnRx s = .next (s.discard .notArp) := by
  rcases hph with h | h
  · rw [engineOnRx_respond s h, respondToRx_eq, hc]
  · rw [engineOnRx_request s h, awaitReplyRx_eq, hc]

/-- The state in which the answer `bs` to the pending RECEIVE is delivered. -/
def delivered (s : State) (bs : List Byte) : State := State.deliver { s with pending := none } bs

@[simp] theorem delivered_cfg (s : State) (bs : List Byte) : (delivered s bs).cfg = s.cfg := rfl
@[simp] theorem delivered_phase (s : State) (bs : List Byte) : (delivered s bs).phase = s.phase := rfl

theorem received_delivered {s : State} (hm : s.rxBuf.wf = true) (bs : List Byte) : received (delivered s bs) = bs :=
  received_deliver _ hm bs

/-- A well-formed frame term that answers the pending RECEIVE is handed to the engine (R66, R108). -/
theorem exec_wellFormed_frame {s : State} {i : Instr} {c : FrameClass} {bs : List Byte} {h : Handle} {k : Nat}
    (hm : s.rxBuf.wf = true) (hp : s.pending = some (.receive h k)) (hl : bs.length ≤ s.cfg.rxMax)
    (hc : classOf i = some c) (hb : frameBytesOf i = some bs) (hw : i.wellFormed = true) :
    exec i s = engineOnRx (delivered s bs) := by
  rw [exec_frame_answer s hm hp hl hc hb, if_pos hw]
  rfl

/-- Settles O36: a well-formed term has a sequence of its class, which either engine discards. -/
theorem unfitSequencesAreDiscarded : Obligations.UnfitSequencesAreDiscarded := by
  intro s bs h k hm hp hph hl
  refine ⟨setBytes s.rxBuf 0 bs, wf_setBytes hm 0 bs, stored_setBytes hm bs, fun hw => ?_, fun hw => ?_⟩
  · have hclass : classOfBytes (received (delivered s bs)) = .truncated := by
      rw [received_delivered hm, ← frameClassOfBytes_eq_truncated]
      exact (frameClassOfBytes_iff rfl rfl).2 hw
    rw [exec_wellFormed_frame hm hp hl rfl rfl hw, engineOnRx_truncated (delivered_phase s bs ▸ hph) hclass]
    rfl
  · have hclass : classOfBytes (received (delivered s bs)) = .notArp := by
      rw [received_delivered hm, ← frameClassOfBytes_eq_notArp]
      exact (frameClassOfBytes_iff rfl rfl).2 hw
    rw [exec_wellFormed_frame hm hp hl rfl rfl hw, engineOnRx_notArp (delivered_phase s bs ▸ hph) hclass]
    rfl

/-- A well-formed term of the three ARP rows: its class, its bytes, and their class by R80. -/
theorem arp_row {i : Instr} {f : Frame} {t : List Byte}
    (hi : i = .arpRequest f t ∨ i = .arpReply f t ∨ i = .arpOther f t) (hw : i.wellFormed = true) :
    (∃ c, classOf i = some c) ∧ frameBytesOf i = some (bytesOfFrame f ++ t) ∧
      classOfBytes (bytesOfFrame f ++ t) = .arp := by
  rcases hi with rfl | rfl | rfl
  · exact ⟨⟨_, rfl⟩, rfl, ((frameClassOfBytes_eq_arpRequest _).1 ((frameClassOfBytes_iff rfl rfl).2 hw)).1⟩
  · exact ⟨⟨_, rfl⟩, rfl, ((frameClassOfBytes_eq_arpReply _).1 ((frameClassOfBytes_iff rfl rfl).2 hw)).1⟩
  · exact ⟨⟨_, rfl⟩, rfl, ((frameClassOfBytes_eq_arpOther _).1 ((frameClassOfBytes_iff rfl rfl).2 hw)).1⟩

/-- Settles O37: the row hands its bytes to the engine that waits, and the engine's verdict says the rest. -/
theorem arpFramesDriveTheWaitingEngine : Obligations.ArpFramesDriveTheWaitingEngine := by
  intro s i f t h k hi hw hm hp hl
  obtain ⟨⟨c, hc⟩, hb, harp⟩ := arp_row hi hw
  have hlen : (bytesOfFrame f ++ t).length = 42 + t.length := by rw [List.length_append, bytesOfFrame_length]
  have hframe := frameOfBytes_bytesOfFrame f t
  rw [wireImage_eq]
  -- From here on the sequence is known only by its length, its class and its frame.
  generalize bytesOfFrame f ++ t = bs at hb harp hlen hframe ⊢
  rw [← hlen] at hl ⊢
  have hexec := exec_wellFormed_frame hm hp hl hc hb hw
  have hrespond (hph : s.phase = 3) : exec i s = respondToRx (delivered s bs) :=
    hexec.trans (engineOnRx_respond _ hph)
  have hrequest (hph : s.phase = 6) : exec i s = awaitReplyRx (delivered s bs) :=
    hexec.trans (engineOnRx_request _ hph)
  rw [respondToRx_eq, received_delivered hm, harp, hframe, delivered_cfg] at hrespond
  rw [awaitReplyRx_eq, received_delivered hm, harp, hframe, delivered_cfg] at hrequest
  refine ⟨setBytes s.rxBuf 0 bs, wf_setBytes hm 0 bs, stored_setBytes hm bs, ?_⟩
  refine ⟨fun hph hv => ?accept, fun hph hv => ?opcodeFiltered, fun hph hv => ?targetFiltered,
    fun hph hv => ?matched, fun hph hv => ?unmatched⟩
  case accept => rw [hrespond hph, hv]; rfl
  case opcodeFiltered => rw [hrespond hph, hv]; rfl
  case targetFiltered => rw [hrespond hph, hv]; rfl
  case matched => rw [hrequest hph, hv]; rfl
  case unmatched => rw [hrequest hph, hv]; rfl

/-! ### A step and the operation it performs -/

/-- Settles O49: without an edge at the head of the inputs, a step runs what it fetches. -/
theorem stepPerformsTheSelectedOperation : Obligations.StepPerformsTheSelectedOperation := by
  intro s he
  refine ⟨fun i hi => ?_, step_stuck s he⟩
  rw [step_engine s he]
  simp only [fetch, hi]

section Waiting
variable {s : State} (hph : s.phase = 3 ∨ s.phase = 6) (he : engineTurn s = true)
include hph he

/-- The step of a waiting engine is its RECEIVE, and then the engine on what was delivered (R115, R132). -/
theorem step_of_receiveRx_go {u : State} (h : receiveRx s = .go u) (hu : u.phase = s.phase) :
    step s = engineOnRx u := by
  rcases hph with hs | hs
  · rw [step_phase s he .respListen hs, engineOnRx_respond u (hu.trans hs)]
    exact congrArg (Flow.andThen · respondToRx) h
  · rw [step_phase s he .reqWait hs, engineOnRx_request u (hu.trans hs)]
    exact congrArg (Flow.andThen · awaitReplyRx) h

theorem step_of_receiveRx_refused {r : Refusal} (h : receiveRx s = .refused r) : step s = .refused r := by
  rcases hph with hs | hs
  · rw [step_phase s he .respListen hs]
    exact congrArg (Flow.andThen · respondToRx) h
  · rw [step_phase s he .reqWait hs]
    exact congrArg (Flow.andThen · awaitReplyRx) h

end Waiting

theorem frameArrives_tooLong {s : State} {c : FrameClass} {bs : List Byte} {h : Handle} {k : Nat}
    (hp : s.pending = some (.receive h k)) (hl : s.cfg.rxMax < bs.length) :
    frameArrives c bs s = .refused .answerTooLong := by
  simp only [frameArrives, hp, if_pos hl]

/-- Taking the answer to a RECEIVE that is pending puts nothing out. -/
theorem afterRx_of_pending {s : State} {c : Command} (hp : s.pending = some c) (rest : List EnvEvent) (bs : List Byte) :
    afterRx s rest bs = delivered { s with env := rest } bs := by
  simp only [afterRx, issued, hp, List.append_nil, delivered, State.deliver]

/-- Settles O51: where `receive_rx()` takes the sequence both sides are the engine on it, and else both refuse it. -/
theorem stepRunsTheReceivedFrame : Obligations.StepRunsTheReceivedFrame := by
  intro s h k bs rest i hph hm hp he hi
  obtain rfl : decodeFrame bs = i := Except.ok.inj hi
  obtain ⟨hbytes, hwf⟩ := decodeFrame_spec bs
  have hclass := classOf_decodeFrame bs
  have hturn : engineTurn s = true := by simp only [engineTurn, he]
  have hcall : callable (.receive s.gwHandle s.cfg.rxMax) s := (callable_iff _ s).2 (.inr ⟨_, hp, rfl⟩)
  by_cases hl : bs.length ≤ s.cfg.rxMax
  · have hgo := receiveRx_ok hcall he hl
    rw [afterRx_of_pending hp] at hgo
    rw [step_of_receiveRx_go hph hturn hgo rfl]
    exact (exec_wellFormed_frame (s := { s with env := rest }) hm hp hl hclass hbytes hwf).symm
  · have hl' : s.cfg.rxMax < bs.length := Nat.lt_of_not_le hl
    rw [step_of_receiveRx_refused hph hturn (receiveRx_tooLong hcall he hl'), exec_frame _ hclass hbytes]
    exact (frameArrives_tooLong (s := { s with env := rest }) hp hl').symm

/-! ### The records of R71 -/

/-- Settles O13: the rows are their `emit`, and DIAG_REQ_RX and DIAG_ERROR first test what they read. -/
theorem diagRowsCarryLabelAndPayload : Obligations.DiagRowsCarryLabelAndPayload := by
  intro s
  refine ⟨rfl, rfl, rfl, fun hv => ?_, fun hv => ⟨unreadableFrame s.unreadableReads, ?_⟩, fun hc => ?_, fun hc => ?_⟩
  · show Host.Outcome.next (if s.resultValid = true then s.emitReqRx else s.emitUnreadableReqRx) = _
    rw [if_pos hv]
    rfl
  · show Host.Outcome.next (if s.resultValid = true then s.emitReqRx else s.emitUnreadableReqRx) = _
    rw [if_neg (by simp [hv])]
    rfl
  · exact if_pos hc
  · exact if_neg (by omega)

end Sys2Proof.Machine
end

section
/-! The Frame Codec (O6 to O12): what CLASSIFY, DECODE and ENCODE answer, byte by byte, and the round trips. -/

namespace Sys2Proof.Machine

/-! ### The rows of the codec -/

theorem exec_classify (s : State) :
    exec .classify s = .next { s with wires := { s.wires with rxClass := some (classOfBytes (received s)) } } := by
  change execClassify s = _
  rw [execClassify, classifyRx_eq]
  rfl

/-- The state in which the record `f` stands on the wire of DECODE (log 12). -/
abbrev decodedAs (s : State) (f : Frame) : State := { s with wires := { s.wires with decoded := some f } }

theorem exec_decode_arp {s : State} (h : classOfBytes (received s) = .arp) :
    exec .decode s = .next (decodedAs s (frameOfBytes (received s))) := by
  change execDecode s = _
  rw [execDecode, decodeRx_eq, if_pos h]
  rfl

theorem exec_decode_not_arp {s : State} (h : classOfBytes (received s) ≠ .arp) :
    exec .decode s = .fault .decodeNotArp := by
  change execDecode s = _
  rw [execDecode, decodeRx_eq, if_neg h]
  rfl

theorem exec_encode (s : State) :
    exec .encode s = .next { s with txBuf := setBytes s.txBuf 0 (wireImage s.tx) } := by
  change execEncode s = _
  rw [execEncode, encodeFrameTx_eq, wireImage_eq]
  rfl

/-! ### Bytes and records -/

@[simp] theorem wireImage_length (f : Frame) : (wireImage f).length = 42 := by
  rw [wireImage_eq, bytesOfFrame_length]

/-- The record at the offsets of R63 is the one whose 42 bytes were received. -/
theorem eq_frameOfBytes_received_iff {s : State} (h : 42 ≤ s.rxLen) (f : Frame) :
    f = frameOfBytes (received s) ↔ ∀ k, k < 42 → frameByte f k = byteAt s.rxBuf k := by
  rw [← holdsFrame_iff _ (by rwa [received_length]), holdsFrame, List.ext_getElem_iff]
  constructor
  · rintro ⟨-, hbyte⟩ k hk
    simpa [received, wireImage] using (hbyte k (by simp; omega) (by simpa using hk)).symm
  · intro hbyte
    refine ⟨by simpa using h, fun k _ hk => ?_⟩
    simpa [received, wireImage] using (hbyte k (by simpa using hk)).symm

theorem arpEthertypeBytes_received_iff {s : State} (h : 42 ≤ s.rxLen) :
    arpEthertypeBytes (received s) ↔ (frameOfBytes (received s)).ethertype = 0x0806 := by
  rw [← hasArpEthertype_bytes _ (by rw [received_length]; omega), hasArpEthertype_iff]

/-- With 42 bytes or more, R80 goes by the ethertype of the record alone. -/
theorem classOfBytes_eq_arp_iff_ethertype {s : State} (h : 42 ≤ s.rxLen) :
    classOfBytes (received s) = .arp ↔ (frameOfBytes (received s)).ethertype = 0x0806 := by
  rw [classOfBytes_eq_arp, received_length, and_iff_right h, arpEthertypeBytes_received_iff h]

theorem classOfBytes_eq_notArp_iff_ethertype {s : State} (h : 42 ≤ s.rxLen) :
    classOfBytes (received s) = .notArp ↔ (frameOfBytes (received s)).ethertype ≠ 0x0806 := by
  rw [classOfBytes_eq_notArp, received_length, and_iff_right (by omega), arpEthertypeBytes_received_iff h]

/-- DECODE puts out a record exactly where 42 bytes or more of class ARP hold it (R82). -/
theorem exec_decode_eq_next_iff {s : State} {f : Frame} :
    exec .decode s = .next (decodedAs s f) ↔
      42 ≤ s.rxLen ∧ f.ethertype = 0x0806 ∧ ∀ k, k < 42 → frameByte f k = byteAt s.rxBuf k := by
  constructor
  · intro h
    by_cases hc : classOfBytes (received s) = .arp
    · have hlen : 42 ≤ s.rxLen := by simpa using (classOfBytes_arp hc).1
      have hf : f = frameOfBytes (received s) := by
        rw [exec_decode_arp hc] at h
        simpa using (congrArg (fun t => t.wires.decoded) (Host.Outcome.next.inj h)).symm
      exact ⟨hlen, hf ▸ (classOfBytes_eq_arp_iff_ethertype hlen).1 hc, (eq_frameOfBytes_received_iff hlen f).1 hf⟩
    · rw [exec_decode_not_arp hc] at h
      cases h
  · rintro ⟨hlen, het, hbytes⟩
    have hf := (eq_frameOfBytes_received_iff hlen f).2 hbytes
    rw [exec_decode_arp ((classOfBytes_eq_arp_iff_ethertype hlen).2 (hf ▸ het)), ← hf]

/-- DECODE faults exactly where CLASSIFY does not answer ARP, and in one way (R82). -/
theorem exec_decode_eq_fault_iff {s : State} {r : Fault} :
    exec .decode s = .fault r ↔ classOfBytes (received s) ≠ .arp ∧ r = .decodeNotArp := by
  by_cases hc : classOfBytes (received s) = .arp
  · simp [exec_decode_arp hc, hc]
  · simp [exec_decode_not_arp hc, hc, eq_comm]

/-- The bytes that ENCODE leaves in `TX_BUF` (R84). -/
theorem byteAt_of_exec_encode {s t : State} (hm : s.txBuf.wf = true) (h : exec .encode s = .next t) {k : Nat}
    (hk : k < 42) : byteAt t.txBuf k = frameByte s.tx k := by
  rw [exec_encode] at h
  cases h
  obtain ⟨hstored, -⟩ := stored_setBytes hm (wireImage s.tx)
  rw [hstored k (by simpa using hk)]
  simp [wireImage]

/-- The numeric fields of the frame value (R63), each by its first byte. -/
theorem frameByte_of_numeric_fields (f : Frame) :
    frameByte f 12 = f.ethertype.extractLsb' 8 8 ∧ frameByte f 14 = f.htype.extractLsb' 8 8 ∧
    frameByte f 16 = f.ptype.extractLsb' 8 8 ∧ frameByte f 18 = f.hlen ∧ frameByte f 19 = f.plen ∧
    frameByte f 20 = f.oper.extractLsb' 8 8 := by
  simp (disch := omega) only [frameByte, frameValue, BitVec.extractLsb'_append_eq_of_le,
    BitVec.extractLsb'_append_eq_of_add_le, Nat.reduceMul, Nat.reduceSub, BitVec.extractLsb'_eq_self, and_self]

/-- What ENCODE leaves in `TX_BUF` is the image of `TX` (R84), which reads back as the record (R63). -/
theorem frameOfBytes_txImage_of_exec_encode {s t : State} (hm : s.txBuf.wf = true) (h : exec .encode s = .next t) :
    frameOfBytes (txImage t) = s.tx := by
  rw [exec_encode, wireImage_eq] at h
  cases h
  rw [txImage_encode s hm]
  simpa using frameOfBytes_bytesOfFrame s.tx []

/-! ### The statements -/

/-- Settles O10: DECODE answers the record whose bytes were received, and these are the bytes that ENCODE writes. -/
theorem codecRoundTrips : Obligations.CodecRoundTrips := by
  intro s t t' hm henc
  have hsent (k : Nat) (hk : k < 42) := byteAt_of_exec_encode hm henc hk
  refine ⟨fun hlen hbytes => ?_, fun hdec k hk => ?_⟩
  · have hreceived (k : Nat) (hk : k < 42) : frameByte t.tx k = byteAt s.rxBuf k := by rw [hbytes k hk, hsent k hk]
    refine ⟨fun het => exec_decode_eq_next_iff.2 ⟨hlen, het, hreceived⟩, fun het => ?_⟩
    rw [(eq_frameOfBytes_received_iff hlen _).2 hreceived] at het
    rw [exec_classify, (classOfBytes_eq_notArp_iff_ethertype hlen).2 het]
  · obtain ⟨-, -, hreceived⟩ := exec_decode_eq_next_iff.1 hdec
    rw [hsent k hk, hreceived k hk]

/-- Settles O6: CLASSIFY answers `classOfBytes` of the received sequence, read off its bytes. -/
theorem classifyFollowsLengthAndEthertype : Obligations.ClassifyFollowsLengthAndEthertype := by
  intro s
  refine ⟨classOfBytes (received s), exec_classify s, ?_⟩
  rw [classOfBytes_eq_truncated, classOfBytes_eq_notArp, classOfBytes_eq_arp, received_length]
  exact ⟨.rfl, .rfl, .rfl⟩

/-- Settles O7: the record is `frameOfBytes` of the received sequence, and its frame value has the bytes received. -/
theorem decodeReadsEachFieldAtItsOffset : Obligations.DecodeReadsEachFieldAtItsOffset := by
  intro s
  have hclass := classOfBytes_eq_arp (received s)
  rw [received_length] at hclass
  refine ⟨fun hlen het => ?_, fun hno => exec_decode_not_arp (mt hclass.1 hno)⟩
  have hdec := exec_decode_arp (hclass.2 ⟨hlen, het⟩)
  obtain ⟨-, hrecord⟩ := exec_decode_eq_next_iff.1 hdec
  exact ⟨_, hdec, hrecord⟩

/-- Settles O8: the record, and by its ethertype the class, follow from the first 42 bytes. -/
theorem trailingBytesDoNotChangeDecode : Obligations.TrailingBytesDoNotChangeDecode := by
  intro s t hs ht hbytes
  have hframe : frameOfBytes (received s) = frameOfBytes (received t) := by
    rw [eq_frameOfBytes_received_iff ht]
    intro k hk
    rw [← hbytes k hk]
    exact (eq_frameOfBytes_received_iff hs _).1 rfl k hk
  have hclass : classOfBytes (received s) = .arp ↔ classOfBytes (received t) = .arp := by
    rw [classOfBytes_eq_arp_iff_ethertype hs, classOfBytes_eq_arp_iff_ethertype ht, hframe]
  refine ⟨fun f => ?_, fun r => ?_⟩
  · show exec .decode s = .next (decodedAs s f) ↔ exec .decode t = .next (decodedAs t f)
    rw [exec_decode_eq_next_iff, exec_decode_eq_next_iff, and_iff_right hs, and_iff_right ht,
      ← eq_frameOfBytes_received_iff hs, ← eq_frameOfBytes_received_iff ht, hframe]
  · rw [exec_decode_eq_fault_iff, exec_decode_eq_fault_iff, ne_eq, ne_eq, hclass]

/-- Settles O9: ENCODE is one write of the wire image, from byte 0 of `TX_BUF` on. -/
theorem encodeWritesTheWireImage : Obligations.EncodeWritesTheWireImage := by
  intro s hm
  exact ⟨_, exec_encode s, wf_setBytes hm 0 _, stored_setBytes hm _⟩

/-- Settles O11: the bytes are those of the frame value, and the image reads back as the record. -/
theorem numericFieldsSurviveEncoding : Obligations.NumericFieldsSurviveEncoding := by
  intro s hm
  have henc := exec_encode s
  have hbyte (k : Nat) (hk : k < 42) := byteAt_of_exec_encode hm henc hk
  obtain ⟨het, hht, hpt, hhl, hpl, hop⟩ := frameByte_of_numeric_fields s.tx
  refine ⟨_, henc, (hbyte 12 (by decide)).trans het, (hbyte 14 (by decide)).trans hht,
    (hbyte 16 (by decide)).trans hpt, (hbyte 18 (by decide)).trans hhl, (hbyte 19 (by decide)).trans hpl,
    (hbyte 20 (by decide)).trans hop, ?_⟩
  rw [frameOfBytes_txImage_of_exec_encode hm henc]
  exact ⟨rfl, rfl, rfl, rfl, rfl, rfl⟩

/-- Settles O12: DIAG is its `emit`. -/
theorem diagAppendsOneRecord : Obligations.DiagAppendsOneRecord := fun _ _ => rfl

end Sys2Proof.Machine
end

section
/-! What each row that calls the gateway makes of an answer and of a pending command (O14 to O18, O21), from one lemma per
command and kind of input. -/

namespace Sys2Proof.Machine

/-! ### The commands and their inputs -/

/-- With no input left there is no answer. -/
theorem unanswered_of_nil {s : State} (he : s.env = []) : unanswered s := by simp [unanswered, he]

theorem unanswered_of_quiet {s : State} {rest : List EnvEvent} (he : s.env = .quiet :: rest) : unanswered s := by
  simp [unanswered, he]

theorem afterQuiet_of_nil {s : State} (he : s.env = []) : afterQuiet s.env = s.env := by
  rw [he, afterQuiet]
  simp

theorem afterQuiet_of_quiet {s : State} {rest : List EnvEvent} (he : s.env = .quiet :: rest) :
    afterQuiet s.env = rest := by
  rw [he, afterQuiet]

/-- An answer is taken by the command that is called, put out in this step or pending (R101, R110). -/
theorem gwCall_answered {c : Command} {s : State} {r : Response} {rest : List EnvEvent} (hc : callable c s)
    (he : s.env = .answer r :: rest) : gwCall c s = .answered r (called c s rest) := by
  rw [gwCall_eq c s hc]
  exact awaitAnswer_answer he

/-- A row may call its command when what is pending, if anything, has the command's op. -/
theorem callable_of_op {s : State} {op : BitVec 4} (h : ∀ c, s.pending = some c → commandOp c = op) (c : Command)
    (hc : commandOp c = op := by rfl) : callable c s := by
  cases hp : s.pending with
  | none => exact (callable_iff c s).2 (.inl hp)
  | some c' => exact (callable_iff c s).2 (.inr ⟨c', hp, (h c' hp).trans hc.symm⟩)

section Answered

variable {s : State} {rest : List EnvEvent}

theorem attachGw_ok {h : Handle} (hc : callable (.attach s.cfg.devName) s)
    (he : s.env = .answer (.ok (.handle h)) :: rest) :
    attachGw s = .go { called (.attach s.cfg.devName) s rest with gwHandle := h } := by
  simp only [attachGw, gwCall_answered hc he]

theorem attachGw_fail (hc : callable (.attach s.cfg.devName) s) (he : s.env = .answer .fail :: rest) :
    attachGw s = .ended (State.raiseFatal (called (.attach s.cfg.devName) s rest) .attachFail) := by
  simp only [attachGw, gwCall_answered hc he]

theorem attachGw_badResponse {v : Value} (hc : callable (.attach s.cfg.devName) s)
    (he : s.env = .answer (.ok v) :: rest) (hv : answeredOp v ≠ 1) : attachGw s = .fault .badResponse := by
  simp only [attachGw, gwCall_answered hc he]
  cases v with
  | handle => exact absurd rfl hv
  | _ => rfl

theorem queryMacGw_ok {a : HwAddr} (hc : callable (.queryMac s.gwHandle) s)
    (he : s.env = .answer (.ok (.mac a)) :: rest) :
    queryMacGw s = .go { called (.queryMac s.gwHandle) s rest with localMac := a } := by
  simp only [queryMacGw, gwCall_answered hc he]

theorem queryMacGw_fail (hc : callable (.queryMac s.gwHandle) s) (he : s.env = .answer .fail :: rest) :
    queryMacGw s = .ended (State.raiseFatal (called (.queryMac s.gwHandle) s rest) .queryFail) := by
  simp only [queryMacGw, gwCall_answered hc he]

theorem queryMacGw_badResponse {v : Value} (hc : callable (.queryMac s.gwHandle) s)
    (he : s.env = .answer (.ok v) :: rest) (hv : answeredOp v ≠ 2) : queryMacGw s = .fault .badResponse := by
  simp only [queryMacGw, gwCall_answered hc he]
  cases v with
  | mac => exact absurd rfl hv
  | _ => rfl

theorem receiveRx_badResponse {v : Value} (hc : callable (.receive s.gwHandle s.cfg.rxMax) s)
    (he : s.env = .answer (.ok v) :: rest) (hv : answeredOp v ≠ 4) : receiveRx s = .fault .badResponse := by
  simp only [receiveRx, gwCall_answered hc he]
  cases v with
  | bytes => exact absurd rfl hv
  | _ => rfl

/-- R109, R110: DETACH takes every answer alike. -/
theorem detachGw_answered {r : Response} (hc : callable (.detach s.gwHandle) s) (he : s.env = .answer r :: rest) :
    detachGw s = .go (called (.detach s.gwHandle) s rest) := by
  simp only [detachGw, gwCall_answered hc he]

/-- What may be called is the same after the encoding of `TX`. -/
theorem callable_encodedTx {c : Command} : callable c (encodedTx s) ↔ callable c s := by
  simp only [callable, encodedTx_pending]

/-- Encoding `TX` takes no input. -/
theorem encodedTx_env (s : State) : (encodedTx s).env = s.env := changes_encodedTx s .env (by decide)

/-- The SEND that `send_tx()` calls (R107). -/
theorem sendTx_eq_reply (s : State) :
    sendTx s = ofSendReply (gwCall (.send s.gwHandle (txImage (encodedTx s))) (encodedTx s)) := by
  rw [sendTx_eq, sendImage_eq, encodedTx_gwHandle]

theorem sendTx_answered {r : Response} (hc : callable (.send s.gwHandle (txImage (encodedTx s))) s)
    (he : s.env = .answer r :: rest) :
    sendTx s = ofSendReply (.answered r (called (.send s.gwHandle (txImage (encodedTx s))) (encodedTx s) rest)) := by
  rw [sendTx_eq_reply, gwCall_answered (callable_encodedTx.2 hc) ((encodedTx_env s).trans he)]

theorem sendTx_unanswered (hc : callable (.send s.gwHandle (txImage (encodedTx s))) s) (h : unanswered s) :
    sendTx s = .ended (calling (.send s.gwHandle (txImage (encodedTx s))) (encodedTx s) (afterQuiet s.env)) := by
  have hno : unanswered (encodedTx s) := by simpa only [unanswered, encodedTx_env] using h
  rw [sendTx_eq_reply, gwCall_unanswered (callable_encodedTx.2 hc) hno, encodedTx_env, ofSendReply]

theorem sendTx_badResponse {v : Value} (hc : callable (.send s.gwHandle (txImage (encodedTx s))) s)
    (he : s.env = .answer (.ok v) :: rest) (hv : answeredOp v ≠ 3) : sendTx s = .fault .badResponse := by
  rw [sendTx_answered hc he]
  cases v with
  | empty => exact absurd rfl hv
  | _ => rfl

end Answered

section Busy

variable {s : State} {c : Command} (hp : s.pending = some c)
include hp

theorem attachGw_busy (h : commandOp c ≠ 1) : attachGw s = .fault .commandWhilePending := by
  simp only [attachGw, gwCall_busy (.attach s.cfg.devName) c s hp h]

theorem queryMacGw_busy (h : commandOp c ≠ 2) : queryMacGw s = .fault .commandWhilePending := by
  simp only [queryMacGw, gwCall_busy (.queryMac s.gwHandle) c s hp h]

theorem receiveRx_busy (h : commandOp c ≠ 4) : receiveRx s = .fault .commandWhilePending := by
  simp only [receiveRx, gwCall_busy (.receive s.gwHandle s.cfg.rxMax) c s hp h]

theorem detachGw_busy (h : commandOp c ≠ 5) : detachGw s = .fault .commandWhilePending := by
  simp only [detachGw, gwCall_busy (.detach s.gwHandle) c s hp h]

end Busy

theorem renderExchange_pending (s : State) : s.renderExchange.pending = s.pending :=
  changes_renderExchange s .pending (by decide)

theorem renderExchange_env (s : State) : s.renderExchange.env = s.env := changes_renderExchange s .env (by decide)

theorem renderRequest_pending (s : State) : s.renderRequest.pending = s.pending :=
  changes_renderRequest s .pending (by decide)

theorem renderRequest_env (s : State) : s.renderRequest.env = s.env := changes_renderRequest s .env (by decide)

theorem andThen_of_go {w : Flow} {s : State} (h : w = .go s) (k : State → Outcome) : w.andThen k = k s := by
  rw [h, Flow.andThen]

theorem andThen_of_fault {w : Flow} {f : Fault} (h : w = .fault f) (k : State → Outcome) : w.andThen k = .fault f := by
  rw [h, Flow.andThen]

theorem andThen_of_refused {w : Flow} {r : Refusal} (h : w = .refused r) (k : State → Outcome) :
    w.andThen k = .refused r := by
  rw [h, Flow.andThen]

/-- R106: the phase of the engine that `CFG_MODE` selects. -/
theorem selectEngine_eq (s : State) :
    s.selectEngine = { s with phase := if s.cfg.mode = .respond then 3 else 5 } := by
  unfold State.selectEngine
  split <;> rename_i h <;> simp [h, State.setPhase, phaseCode]

/-- Fatal entry (R140), field by field. -/
theorem raiseFatal_eq (s : State) (c : FatalCode) :
    s.raiseFatal c = { s with
      errCode := fatalCode c, exitStatus := 1, trace := s.trace ++ [errorRecord (fatalCode c)], phase := 9 } := rfl

/-- The state with `TX` encoded and its SEND put out and pending (R107). -/
def sending (s : State) : State := { afterSend s with pending := some (.send s.gwHandle (wireImage s.tx)) }

theorem sending_env (s : State) : (sending s).env = s.env := by rw [sending, afterSend]

/-- GW_SEND with nothing pending. -/
theorem exec_gwSend_idle {s : State} (hm : s.txBuf.wf = true) (hp : s.pending = none) :
    exec .gwSend s = (ofSendReply (awaitAnswer (sending s))).finish := congrArg Flow.finish (sendTx_idle s hm hp)

/-- GW_SEND with its SEND pending. -/
theorem exec_gwSend_waiting {s : State} {h : Handle} {bs : List Byte} (hp : s.pending = some (.send h bs)) :
    exec .gwSend s = (ofSendReply (awaitAnswer s)).finish := congrArg Flow.finish (sendTx_waiting s hp)

/-! ### The statements -/

/-- Settles O16: `send_tx()` is the SEND's reply, in the state with `TX` encoded or, with a SEND pending, in this one. -/
theorem sendHandsOverTheWireImage : Obligations.SendHandsOverTheWireImage := by
  intro s rest hm
  refine ⟨fun hp => ?idle, fun h bs hp => ?waiting⟩
  case idle =>
    refine ⟨setBytes s.txBuf 0 (wireImage s.tx), wf_setBytes hm 0 _, stored_setBytes hm _, ?_⟩
    rw [exec_gwSend_idle hm hp, ← sending_env s]
    refine ⟨fun he => ?ok, fun he => ?fail, fun he => ?noInput, fun he => ?quiet⟩
    case ok =>
      rw [awaitAnswer_answer he]
      simp only [ofSendReply, Flow.finish, Flow.andThen, sending, afterSend, hp]
    case fail =>
      rw [awaitAnswer_answer he, List.append_cons]
      simp only [ofSendReply, Flow.finish, Flow.andThen, sending, afterSend, hp, raiseFatal_eq, fatalCode]
    case noInput =>
      rw [awaitAnswer_unanswered (unanswered_of_nil he), afterQuiet_of_nil he]
      simp only [ofSendReply, Flow.finish, Flow.andThen, sending, afterSend]
    case quiet =>
      rw [awaitAnswer_unanswered (unanswered_of_quiet he), afterQuiet_of_quiet he]
      simp only [ofSendReply, Flow.finish, Flow.andThen, sending, afterSend]
  case waiting =>
    rw [exec_gwSend_waiting hp]
    refine ⟨fun he => ?ok, fun he => ?fail, fun he => ?noInput, fun he => ?quiet⟩
    case ok =>
      rw [awaitAnswer_answer he]
      rfl
    case fail =>
      rw [awaitAnswer_answer he]
      rfl
    case noInput =>
      rw [awaitAnswer_unanswered (unanswered_of_nil he), afterQuiet_of_nil he]
      rfl
    case quiet =>
      rw [awaitAnswer_unanswered (unanswered_of_quiet he), afterQuiet_of_quiet he]
      rfl

/-- Settles O17: what RECEIVE answers for each input; the delivery is one write of the sequence. -/
theorem receiveFillsTheBufferOrRefuses : Obligations.ReceiveFillsTheBufferOrRefuses := by
  intro s rest hm hc
  refine ⟨fun bs he hl => ?_, fun bs he hl => ?_, fun he => ?_, fun he => ?_⟩
  · exact ⟨_, wf_setBytes hm 0 bs, (stored_setBytes hm bs).1, andThen_of_go (receiveRx_ok hc he hl) _⟩
  · exact andThen_of_refused (receiveRx_tooLong hc he hl) _
  · exact andThen_of_ended (receiveRx_fail hc he) _
  · exact (unansweredCommandStaysPending s .gwReceive _ (by simp) hc).1 he

/-- Settles O14: the latch or the fatal entry, which ends PHASE_ATTACH before its transfer. -/
theorem attachLatchesHandleOrFails : Obligations.AttachLatchesHandleOrFails := by
  intro s rest hc
  refine ⟨fun h he => ?_, fun he => ?_⟩
  · have hgo := attachGw_ok hc he
    exact ⟨andThen_of_go hgo _, andThen_of_go hgo _⟩
  · have hended := attachGw_fail hc he
    exact ⟨andThen_of_ended hended _, (andThen_of_ended hended _).trans (andThen_of_ended hended _).symm⟩

/-- Settles O15: the store or the fatal entry, which ends PHASE_QUERY before an engine is selected. -/
theorem queryStoresAddressAndSelectsEngine : Obligations.QueryStoresAddressAndSelectsEngine := by
  intro s rest hc
  refine ⟨fun a he => ?_, fun he => ?_⟩
  · have hgo := queryMacGw_ok hc he
    refine ⟨andThen_of_go hgo _, (andThen_of_go hgo _).trans ?_⟩
    rw [selectEngine_eq]
    rfl
  · have hended := queryMacGw_fail hc he
    exact ⟨andThen_of_ended hended _, (andThen_of_ended hended _).trans (andThen_of_ended hended _).symm⟩

/-- Settles O18: every answer lets the rule go on. -/
theorem detachEndsWhateverTheAnswer : Obligations.DetachEndsWhateverTheAnswer := by
  intro s r rest hc he
  have hgo := detachGw_answered hc he
  exact ⟨andThen_of_go hgo _, andThen_of_go hgo _⟩

/-- Settles O21: each row reaches its call of the gateway first, and that call faults. -/
theorem gatewayMisuseFaults : Obligations.GatewayMisuseFaults := by
  refine ⟨fun s i op c hrow hp h => ?busy, fun s i op v rest hrow hpend he hv => ?badResponse⟩
  case busy =>
    simp only [List.mem_cons, Prod.mk.injEq, List.not_mem_nil, or_false] at hrow
    rcases hrow with ⟨rfl, rfl⟩ | ⟨rfl, rfl⟩ | ⟨rfl, rfl⟩ | ⟨rfl, rfl⟩ | ⟨rfl, rfl⟩ | ⟨rfl, rfl⟩ | ⟨rfl, rfl⟩ |
      ⟨rfl, rfl⟩ | ⟨rfl, rfl⟩ | ⟨rfl, rfl⟩ | ⟨rfl, rfl⟩ | ⟨rfl, rfl⟩
    · exact andThen_of_fault (attachGw_busy hp h) _
    · exact andThen_of_fault (attachGw_busy hp h) _
    · exact andThen_of_fault (queryMacGw_busy hp h) _
    · exact andThen_of_fault (queryMacGw_busy hp h) _
    · exact andThen_of_fault (sendTx_busy s hp h) _
    · exact andThen_of_fault (sendTx_busy _ ((renderExchange_pending s).trans hp) h) _
    · exact andThen_of_fault (sendTx_busy _ ((renderRequest_pending s).trans hp) h) _
    · exact andThen_of_fault (receiveRx_busy hp h) _
    · exact andThen_of_fault (receiveRx_busy hp h) _
    · exact andThen_of_fault (receiveRx_busy hp h) _
    · exact andThen_of_fault (detachGw_busy hp h) _
    · exact andThen_of_fault (detachGw_busy hp h) _
  case badResponse =>
    simp only [List.mem_cons, Prod.mk.injEq, List.not_mem_nil, or_false] at hrow
    rcases hrow with ⟨rfl, rfl⟩ | ⟨rfl, rfl⟩ | ⟨rfl, rfl⟩ | ⟨rfl, rfl⟩ | ⟨rfl, rfl⟩ | ⟨rfl, rfl⟩ | ⟨rfl, rfl⟩ |
      ⟨rfl, rfl⟩ | ⟨rfl, rfl⟩ | ⟨rfl, rfl⟩
    · exact andThen_of_fault (attachGw_badResponse (callable_of_op hpend _) he hv) _
    · exact andThen_of_fault (attachGw_badResponse (callable_of_op hpend _) he hv) _
    · exact andThen_of_fault (queryMacGw_badResponse (callable_of_op hpend _) he hv) _
    · exact andThen_of_fault (queryMacGw_badResponse (callable_of_op hpend _) he hv) _
    · exact andThen_of_fault (sendTx_badResponse (callable_of_op hpend _) he hv) _
    · rw [← renderExchange_pending] at hpend
      exact andThen_of_fault (sendTx_badResponse (callable_of_op hpend _) ((renderExchange_env s).trans he) hv) _
    · rw [← renderRequest_pending] at hpend
      exact andThen_of_fault (sendTx_badResponse (callable_of_op hpend _) ((renderRequest_env s).trans he) hv) _
    · exact andThen_of_fault (receiveRx_badResponse (callable_of_op hpend _) he hv) _
    · exact andThen_of_fault (receiveRx_badResponse (callable_of_op hpend _) he hv) _
    · exact andThen_of_fault (receiveRx_badResponse (callable_of_op hpend _) he hv) _

end Sys2Proof.Machine
end

section
/-! The outputs of a step (O59): the call of a command puts out that command at most, and everything else puts out
records only. -/

namespace Sys2Proof.Machine

/-- The outputs from `s` to `t` are diagnostic records. -/
def OnlyRecords (s t : State) : Prop := ∃ out, t.trace = s.trace ++ out ∧ commandCount out = 0

/-- The outputs from `s` to `t` hold at most one command, and none if one was pending in `s` (R101). -/
def AtMostOneCommand (s t : State) : Prop :=
  ∃ out, t.trace = s.trace ++ out ∧ commandCount out ≤ 1 ∧ (s.pending ≠ none → commandCount out = 0)

theorem commandCount_append (o o' : List Output) : commandCount (o ++ o') = commandCount o + commandCount o' :=
  List.countP_append

/-- A command is put out once, and not again while one is pending (R101). -/
theorem commandCount_issued (c : Command) (s : State) :
    commandCount (issued c s) ≤ 1 ∧ (s.pending ≠ none → commandCount (issued c s) = 0) := by
  unfold issued
  split
  · exact ⟨le_rfl, fun h => absurd ‹_› h⟩
  · exact ⟨Nat.zero_le 1, fun _ => rfl⟩

theorem OnlyRecords.of_trace_eq {s t : State} (h : t.trace = s.trace) : OnlyRecords s t :=
  ⟨[], by rw [h, List.append_nil], rfl⟩

theorem AtMostOneCommand.of_trace_eq {s t : State} (h : t.trace = s.trace) : AtMostOneCommand s t :=
  ⟨[], by rw [h, List.append_nil], Nat.zero_le 1, fun _ => rfl⟩

/-- Records may come before the call of a command. -/
theorem AtMostOneCommand.of_onlyRecords {s u t : State} (hu : OnlyRecords s u) (hp : u.pending = s.pending)
    (h : AtMostOneCommand u t) : AtMostOneCommand s t := by
  obtain ⟨before, hbefore, hnone⟩ := hu
  obtain ⟨out, hout, hone, hpending⟩ := h
  refine ⟨before ++ out, by rw [hout, hbefore, List.append_assoc], ?_, fun h => ?_⟩
  · rwa [commandCount_append, hnone, Nat.zero_add]
  · rw [commandCount_append, hnone, Nat.zero_add, hpending (hp ▸ h)]

/-- Records may come after the call of a command. -/
theorem AtMostOneCommand.then_onlyRecords {s u t : State} (h : AtMostOneCommand s u) (ht : OnlyRecords u t) :
    AtMostOneCommand s t := by
  obtain ⟨out, hout, hone, hpending⟩ := h
  obtain ⟨after, hafter, hnone⟩ := ht
  refine ⟨out ++ after, by rw [hafter, hout, List.append_assoc], ?_, fun h => ?_⟩
  · rwa [commandCount_append, hnone, Nat.add_zero]
  · rw [commandCount_append, hnone, Nat.add_zero, hpending h]

theorem called_atMostOneCommand (c : Command) (s : State) (e : List EnvEvent) : AtMostOneCommand s (called c s e) :=
  ⟨issued c s, rfl, commandCount_issued c s⟩

theorem calling_atMostOneCommand (c : Command) (s : State) (e : List EnvEvent) : AtMostOneCommand s (calling c s e) :=
  ⟨issued c s, rfl, commandCount_issued c s⟩

theorem onlyRecords_raiseFatal (s : State) (c : FatalCode) : OnlyRecords s (s.raiseFatal c) := ⟨_, rfl, rfl⟩

/-- A failed command puts out its error record after it (R142). -/
theorem failed_atMostOneCommand (c : Command) (s : State) (e : List EnvEvent) (f : FatalCode) :
    AtMostOneCommand s (State.raiseFatal (called c s e) f) :=
  (called_atMostOneCommand c s e).then_onlyRecords (onlyRecords_raiseFatal _ f)

section Commands

variable {s t : State} {k : State → Outcome} (hk : ∀ u, k u = .next t → OnlyRecords u t)
include hk

theorem attach_atMostOneCommand (h : (attachGw s).andThen k = .next t) : AtMostOneCommand s t := by
  obtain ⟨-, ⟨v, e, -, h⟩ | ⟨e, -, rfl⟩ | ⟨e, -, rfl⟩⟩ := attach_next h
  · exact (called_atMostOneCommand _ s e).then_onlyRecords (hk _ h :)
  · exact failed_atMostOneCommand _ s e _
  · exact calling_atMostOneCommand _ s e

theorem query_atMostOneCommand (h : (queryMacGw s).andThen k = .next t) : AtMostOneCommand s t := by
  obtain ⟨-, ⟨v, e, -, h⟩ | ⟨e, -, rfl⟩ | ⟨e, -, rfl⟩⟩ := query_next h
  · exact (called_atMostOneCommand _ s e).then_onlyRecords (hk _ h :)
  · exact failed_atMostOneCommand _ s e _
  · exact calling_atMostOneCommand _ s e

theorem receive_atMostOneCommand (h : (receiveRx s).andThen k = .next t) : AtMostOneCommand s t := by
  obtain ⟨-, ⟨bs, e, -, -, h⟩ | ⟨e, -, rfl⟩ | ⟨e, -, rfl⟩⟩ := receive_next h
  · exact (called_atMostOneCommand (.receive s.gwHandle s.cfg.rxMax) s e).then_onlyRecords (hk (afterRx s e bs) h :)
  · exact failed_atMostOneCommand _ s e _
  · exact calling_atMostOneCommand _ s e

theorem detach_atMostOneCommand (h : (detachGw s).andThen k = .next t) : AtMostOneCommand s t := by
  obtain ⟨-, ⟨r, e, -, h⟩ | ⟨e, -, rfl⟩⟩ := detach_next h
  · exact (called_atMostOneCommand _ s e).then_onlyRecords (hk _ h :)
  · exact calling_atMostOneCommand _ s e

theorem send_atMostOneCommand (h : (sendTx s).andThen k = .next t) : AtMostOneCommand s t := by
  have hencoded : OnlyRecords s (encodedTx s) := .of_trace_eq (changes_encodedTx s .trace (by decide))
  refine .of_onlyRecords hencoded (encodedTx_pending s) ?_
  obtain ⟨-, ⟨e, -, h⟩ | ⟨e, -, rfl⟩ | ⟨e, -, rfl⟩⟩ := send_next h
  · exact (called_atMostOneCommand _ _ e).then_onlyRecords (hk _ h :)
  · exact failed_atMostOneCommand _ _ e _
  · exact calling_atMostOneCommand _ _ e

end Commands

/-- The end of a rule that only answers a state with the same outputs. -/
theorem onlyRecords_next {s t u : State} (hu : u.trace = s.trace) (h : (.next u : Outcome) = .next t) :
    OnlyRecords s t := by
  cases h
  exact .of_trace_eq hu

theorem onlyRecords_renderExchange (s : State) : OnlyRecords s s.renderExchange := by
  unfold State.renderExchange
  split
  · exact ⟨_, List.append_assoc .., rfl⟩
  · exact .of_trace_eq rfl

theorem onlyRecords_renderRequest (s : State) : OnlyRecords s s.renderRequest := by
  unfold State.renderRequest
  split
  · exact ⟨_, rfl, rfl⟩
  · exact .of_trace_eq rfl

/-- The responder puts nothing out when it takes a sequence (R115). -/
theorem respondToRx_onlyRecords {s t : State} (h : respondToRx s = .next t) : OnlyRecords s t :=
  .of_trace_eq (respondToRx_changes h .trace (by decide))

/-- The requester renders the frame that it accepts (R135). -/
theorem awaitReplyRx_onlyRecords {s t : State} (h : awaitReplyRx s = .next t) : OnlyRecords s t := by
  rcases awaitReplyRx_next h with ⟨r, rfl⟩ | ⟨-, -, rfl⟩
  · exact .of_trace_eq rfl
  · exact ⟨_, rfl, rfl⟩

/-- The operation of every phase puts out at most one command. -/
theorem phaseInstr_atMostOneCommand {s t : State} {p : Phase} (h : exec (phaseInstr p) s = .next t) :
    AtMostOneCommand s t := by
  cases p with
  | reset | done | fatal => exact .of_trace_eq (exec_changes h .trace (by decide))
  | attach => exact attach_atMostOneCommand (fun _ h => onlyRecords_next (by rfl) h) h
  | query =>
    exact query_atMostOneCommand (fun u => onlyRecords_next (changes_selectEngine u .trace (by decide))) h
  | respListen => exact receive_atMostOneCommand (fun _ => respondToRx_onlyRecords) h
  | respSend =>
    exact .of_onlyRecords (onlyRecords_renderExchange s) (renderExchange_pending s)
      (send_atMostOneCommand (fun _ h => onlyRecords_next (by rfl) h) h)
  | reqSend =>
    exact .of_onlyRecords (onlyRecords_renderRequest s) (renderRequest_pending s)
      (send_atMostOneCommand (fun _ h => onlyRecords_next (by rfl) h) h)
  | reqWait => exact receive_atMostOneCommand (fun _ => awaitReplyRx_onlyRecords) h
  | detach => exact detach_atMostOneCommand (fun _ h => onlyRecords_next (by rfl) h) h

/-- Settles O59: an input edge puts nothing out, and the operation of a phase at most one command. -/
theorem atMostOneCommandPerStep : Obligations.AtMostOneCommandPerStep := by
  intro s t h
  change AtMostOneCommand s t
  rcases step_cases h with
    ⟨rest, -, rfl⟩ | ⟨rest, -, -, -, rfl⟩ | ⟨rest, -, -, rfl⟩ | ⟨p, rest, -, rfl⟩ | ⟨-, p, -, h⟩
  · exact .of_trace_eq rfl
  · exact .of_trace_eq rfl
  · exact .of_trace_eq rfl
  · exact .of_trace_eq rfl
  · exact phaseInstr_atMostOneCommand h

end Sys2Proof.Machine
end

section
/-! The answers that the environment may not give: a RECEIVE that is never answered (O20), the frame rows outside the
contract (O38), and all the ways in which a step can end without a next state (O54, O55). -/

namespace Sys2Proof.Machine

/-! ### A RECEIVE that is never answered -/

/-- A pending command is not put out again: only the inputs move on (R101). -/
theorem calling_of_pending {s : State} {c' : Command} (hp : s.pending = some c') (c : Command) (e : List EnvEvent) :
    calling c s e = { s with env := e } := by
  simp only [calling, issued, awaited, hp, List.append_nil]

theorem noAnswerNoReset_tail {x : EnvEvent} {es : List EnvEvent} (h : noAnswerNoReset (x :: es) = true) :
    noAnswerNoReset es = true := by
  simp only [noAnswerNoReset, List.all_cons, Bool.and_eq_true] at h
  exact h.2

theorem noAnswerNoReset_afterQuiet {es : List EnvEvent} (h : noAnswerNoReset es = true) :
    noAnswerNoReset (afterQuiet es) = true := by
  unfold afterQuiet
  split
  · exact noAnswerNoReset_tail h
  · exact h

theorem unanswered_of_noAnswerNoReset {s : State} (h : noAnswerNoReset s.env = true) : unanswered s := by
  intro r rest he
  simp [noAnswerNoReset, he] at h

/-- A phase that waits for a frame ends its step in its unanswered RECEIVE (R111). -/
theorem step_unanswered_receive {s : State} (hph : s.phase = 3 ∨ s.phase = 6) (hturn : engineTurn s = true)
    {h : Handle} {k : Nat} (hp : s.pending = some (.receive h k)) (hno : unanswered s) :
    step s = .next { s with env := afterQuiet s.env } := by
  have hc : callable (.receive s.gwHandle s.cfg.rxMax) s := (callable_iff _ s).2 (.inr ⟨_, hp, rfl⟩)
  have hended := receiveRx_unanswered hc hno
  rw [calling_of_pending hp] at hended
  rcases hph with hph | hph
  · rw [step_phase s hturn .respListen hph]
    exact andThen_of_ended hended _
  · rw [step_phase s hturn .reqWait hph]
    exact andThen_of_ended hended _

/-- While no input answers or asserts reset, a step of a suspended block moves on its inputs only (R111, log 7). -/
theorem step_suspended {s : State} {h : Handle} {k : Nat} (hp : s.pending = some (.receive h k))
    (hph : s.phase = 3 ∨ s.phase = 6) (hno : noAnswerNoReset s.env = true) :
    ∃ e p, step s = .next { s with env := e, pins := p } ∧ noAnswerNoReset e = true := by
  rcases env_cases s with ⟨rest, he⟩ | ⟨rest, he⟩ | ⟨p, rest, he⟩ | hturn
  · simp [noAnswerNoReset, he] at hno
  · have hne : s.phase ≠ 0 := by rcases hph with hph | hph <;> simp [hph]
    rw [step_release s he, if_neg hne]
    exact ⟨rest, s.pins, rfl, noAnswerNoReset_tail (he ▸ hno)⟩
  · exact ⟨rest, p, step_setParams s he, noAnswerNoReset_tail (he ▸ hno)⟩
  · rw [step_unanswered_receive hph hturn hp (unanswered_of_noAnswerNoReset hno)]
    exact ⟨_, s.pins, rfl, noAnswerNoReset_afterQuiet hno⟩

/-- Settles O20: by induction on the steps, each of which moves on the inputs only. -/
theorem unansweredReceiveSuspendsForEver : Obligations.UnansweredReceiveSuspendsForEver := by
  intro s h k hp hph
  refine ⟨fun hno n => ?_, fun rest he => ⟨_, step_assertReset s he, rfl, rfl⟩⟩
  induction n generalizing s with
  | zero => exact ⟨s.env, s.pins, rfl⟩
  | succ n ih =>
    obtain ⟨e, p, hstep, hno'⟩ := step_suspended hp hph hno
    rw [run_succ, hstep]
    exact ih { s with env := e, pins := p } hp hph hno'

/-! ### The frame rows outside the contract -/

/-- An instruction with the bytes of a frame is of a frame class. -/
theorem classOf_of_frameBytes {i : Instr} {bs : List Byte} (hb : frameBytesOf i = some bs) :
    ∃ c, classOf i = some c := by
  cases i with
  | truncated | notArp | arpRequest | arpReply | arpOther => exact ⟨_, rfl⟩
  | _ => cases hb

theorem frameArrives_unsolicited {s : State} (hp : ∀ h k, s.pending ≠ some (.receive h k)) (c : FrameClass)
    (bs : List Byte) : frameArrives c bs s = .refused .unsolicitedFrame := by
  unfold frameArrives
  split
  · exact absurd ‹_› (hp _ _)
  · rfl

/-- In a phase that waits for no frame, no engine takes one (R110). -/
theorem engineOnRx_unsolicited {s : State} (h3 : s.phase ≠ 3) (h6 : s.phase ≠ 6) :
    engineOnRx s = .refused .unsolicitedFrame := by
  unfold engineOnRx
  split
  · exact absurd (phaseOfCode_eq_some.1 ‹_›) h3
  · exact absurd (phaseOfCode_eq_some.1 ‹_›) h6
  · rfl

/-- Settles O38: the arrival tests the pending RECEIVE, the length and the class, in this order, and then the phase. -/
theorem framesOutsideTheContractStop : Obligations.FramesOutsideTheContractStop := by
  intro s i bs hb
  obtain ⟨c, hc⟩ := classOf_of_frameBytes hb
  refine ⟨fun hp => ?_, fun h k hp hl => ?_, fun h k hp hm hl hw h3 h6 => ?_, fun h k hp hm hl hw => ?_⟩
  · rw [exec_frame s hc hb]
    exact frameArrives_unsolicited hp c bs
  · rw [exec_frame s hc hb]
    exact frameArrives_tooLong hp hl
  · rw [exec_wellFormed_frame hm hp hl hc hb hw]
    exact engineOnRx_unsolicited h3 h6
  · rw [exec_frame_answer s hm hp hl hc hb, if_neg (by simp [hw])]

/-! ### The ends of a step -/

/-- How the call of a command with code `op` can leave its rule: with a next state, or with an answer that breaks R70 or
R108. -/
inductive CallEnds (s : State) (op : BitVec 4) : Flow → Prop where
  | go (u : State) : CallEnds s op (.go u)
  | ended (u : State) : CallEnds s op (.ended u)
  | badResponse {v : Value} {rest : List EnvEvent} (he : s.env = .answer (.ok v) :: rest) (hv : answeredOp v ≠ op) :
      CallEnds s op (.fault .badResponse)
  | tooLong {bs : List Byte} {rest : List EnvEvent} (he : s.env = .answer (.ok (.bytes bs)) :: rest)
      (hl : s.cfg.rxMax < bs.length) : CallEnds s op (.refused .answerTooLong)

/-- The ends of a call from what it answers for each kind of input. -/
theorem callEnds_of_inputs {s : State} {op : BitVec 4} {w : Flow} {u : State} {f : List EnvEvent → State}
    (hno : unanswered s → w = .ended u) (hfail : ∀ {rest}, s.env = .answer .fail :: rest → w = .ended (f rest))
    (hbad : ∀ {v rest}, s.env = .answer (.ok v) :: rest → answeredOp v ≠ op → w = .fault .badResponse)
    (hok : ∀ {v rest}, s.env = .answer (.ok v) :: rest → answeredOp v = op → CallEnds s op w) : CallEnds s op w := by
  rcases unanswered_or_answer s with hq | ⟨r, rest, he⟩
  · rw [hno hq]
    exact .ended _
  · cases r with
    | fail =>
      rw [hfail he]
      exact .ended _
    | ok v =>
      by_cases hv : answeredOp v = op
      · exact hok he hv
      · rw [hbad he hv]
        exact .badResponse he hv

theorem attachGw_ends {s : State} (hc : callable (.attach s.cfg.devName) s) : CallEnds s 1 (attachGw s) := by
  refine callEnds_of_inputs (attachGw_unanswered hc) (attachGw_fail hc) (attachGw_badResponse hc) fun {v _} he hv => ?_
  cases v with
  | handle h =>
    rw [attachGw_ok hc he]
    exact .go _
  | _ => simp [answeredOp] at hv

theorem queryMacGw_ends {s : State} (hc : callable (.queryMac s.gwHandle) s) : CallEnds s 2 (queryMacGw s) := by
  refine callEnds_of_inputs (queryMacGw_unanswered hc) (queryMacGw_fail hc) (queryMacGw_badResponse hc)
    fun {v _} he hv => ?_
  cases v with
  | mac a =>
    rw [queryMacGw_ok hc he]
    exact .go _
  | _ => simp [answeredOp] at hv

theorem sendTx_ends {s : State} (hc : callable (.send s.gwHandle (txImage (encodedTx s))) s) :
    CallEnds s 3 (sendTx s) := by
  refine callEnds_of_inputs (sendTx_unanswered hc) (sendTx_answered hc) (sendTx_badResponse hc) fun {v _} he hv => ?_
  cases v with
  | empty =>
    rw [sendTx_answered hc he]
    exact .go _
  | _ => simp [answeredOp] at hv

theorem receiveRx_ends {s : State} (hc : callable (.receive s.gwHandle s.cfg.rxMax) s) : CallEnds s 4 (receiveRx s) := by
  refine callEnds_of_inputs (receiveRx_unanswered hc) (receiveRx_fail hc) (receiveRx_badResponse hc)
    fun {v _} he hv => ?_
  cases v with
  | bytes bs =>
    rcases Nat.lt_or_ge s.cfg.rxMax bs.length with hl | hl
    · rw [receiveRx_tooLong hc he hl]
      exact .tooLong he hl
    · rw [receiveRx_ok hc he hl]
      exact .go _
  | _ => simp [answeredOp] at hv

/-- How a call ends is said of the inputs and the configuration only. -/
theorem CallEnds.of_same {s u : State} {op : BitVec 4} {w : Flow} (h : CallEnds u op w) (he : u.env = s.env)
    (hcfg : u.cfg = s.cfg) : CallEnds s op w := by
  cases h with
  | go v => exact .go v
  | ended v => exact .ended v
  | badResponse h hv => exact .badResponse (he.symm.trans h) hv
  | tooLong h hl => exact .tooLong (he.symm.trans h) (hcfg ▸ hl)

/-- How a step can end: with a next state, or with an input that breaks the contract (R70, R108, R167). -/
inductive StepEnds (s : State) : Outcome → Prop where
  | next (t : State) : StepEnds s (.next t)
  | badResponse {r : Response} {rest : List EnvEvent} (he : s.env = .answer r :: rest) (hr : ¬ answerFits s r) :
      StepEnds s (.fault .badResponse)
  | tooLong {r : Response} {rest : List EnvEvent} (he : s.env = .answer r :: rest) (hr : ¬ answerFits s r) :
      StepEnds s (.refused .answerTooLong)
  | rxMaxBelow42 {rest : List EnvEvent} (he : s.env = .releaseReset :: rest) (hx : s.pins.rxMax < 42) :
      StepEnds s (.refused .rxMaxBelow42)

/-- R69, R72: the code of the command that a phase calls. -/
def phaseOp : Phase → Option (BitVec 4)
  | .attach => some 1
  | .query => some 2
  | .respSend | .reqSend => some 3
  | .respListen | .reqWait => some 4
  | .detach => some 5
  | .reset | .done | .fatal => none

theorem phaseCode_injective {p q : Phase} (h : phaseCode p = phaseCode q) : p = q :=
  Option.some.inj ((phaseOfCode_phaseCode p).symm.trans (phaseOfCode_eq_some.2 h))

/-- A command that fits its phase is the one the phase calls (R36). -/
theorem phaseOp_of_pendingFits {s : State} {p : Phase} {c : Command} (hph : s.phase = phaseCode p)
    (h : pendingFits s c) : phaseOp p = some (commandOp c) := by
  have heq {q : Phase} (hq : s.phase = phaseCode q) : p = q := phaseCode_injective (hph.symm.trans hq)
  cases c with
  | attach n =>
    obtain rfl := heq (q := .attach) h.1
    rfl
  | queryMac g =>
    obtain rfl := heq (q := .query) h.1
    rfl
  | send g bs =>
    obtain ⟨hq | hq, -⟩ := h
    · obtain rfl := heq (q := .respSend) hq
      rfl
    · obtain rfl := heq (q := .reqSend) hq
      rfl
  | receive g m =>
    obtain ⟨hq | hq, -⟩ := h
    · obtain rfl := heq (q := .respListen) hq
      rfl
    · obtain rfl := heq (q := .reqWait) hq
      rfl
  | detach g =>
    obtain rfl := heq (q := .detach) h.1
    rfl

/-- In a run, the command of a phase may always be called (R101). -/
theorem Inv.callable_of_phaseOp {s : State} {p : Phase} {c : Command} (hi : Inv s) (hph : s.phase = phaseCode p)
    (hop : phaseOp p = some (commandOp c)) : callable c s := by
  obtain ⟨-, -, -, hpending, -⟩ := hi
  refine callable_of_op (fun c' hp => ?_) c
  exact Option.some.inj ((phaseOp_of_pendingFits hph (hpending c' hp)).symm.trans hop)

/-- R110: outside DETACH, an OK that fits the phase has the kind of its command, and a sequence fits `max_size`. -/
theorem ok_of_answerFits {s : State} {p : Phase} {op : BitVec 4} {v : Value} (hph : s.phase = phaseCode p)
    (hop : phaseOp p = some op) (hp : p ≠ .detach) (h : answerFits s (.ok v)) :
    answeredOp v = op ∧ ∀ bs, v = .bytes bs → bs.length ≤ s.cfg.rxMax := by
  rw [answerFits, hph, phaseOfCode_phaseCode] at h
  cases p with
  | attach | query =>
    cases hop
    obtain h | ⟨x, h⟩ := h <;> cases h
    exact ⟨rfl, fun bs hbs => by cases hbs⟩
  | respSend | reqSend =>
    cases hop
    obtain h | h := h <;> cases h
    exact ⟨rfl, fun bs hbs => by cases hbs⟩
  | respListen | reqWait =>
    cases hop
    obtain h | ⟨x, h, hl⟩ := h <;> cases h
    exact ⟨rfl, fun bs hbs => by cases hbs; exact hl⟩
  | detach => exact absurd rfl hp
  | reset | done | fatal => cases hop

/-- The rest of a rule always has a next state. -/
def Completes (k : State → Outcome) : Prop := ∀ u, ∃ t, k u = .next t

theorem completes_respondToRx : Completes respondToRx := by
  intro u
  rw [respondToRx_eq]
  split
  · exact ⟨_, rfl⟩
  · exact ⟨_, rfl⟩
  · split <;> exact ⟨_, rfl⟩

theorem completes_awaitReplyRx : Completes awaitReplyRx := by
  intro u
  rw [awaitReplyRx_eq]
  split
  · exact ⟨_, rfl⟩
  · exact ⟨_, rfl⟩
  · split <;> exact ⟨_, rfl⟩

/-- A rule stops only in the call of its command, on an answer that does not fit the phase. -/
theorem CallEnds.stepEnds {s : State} {p : Phase} {op : BitVec 4} {w : Flow} {k : State → Outcome}
    (h : CallEnds s op w) (hph : s.phase = phaseCode p) (hop : phaseOp p = some op) (hp : p ≠ .detach)
    (hk : Completes k) : StepEnds s (w.andThen k) := by
  cases h with
  | go u =>
    obtain ⟨t, ht⟩ := hk u
    rw [Flow.andThen, ht]
    exact .next t
  | ended u => exact .next u
  | badResponse he hv => exact .badResponse he fun hfit => hv (ok_of_answerFits hph hop hp hfit).1
  | tooLong he hl =>
    exact .tooLong he fun hfit => absurd ((ok_of_answerFits hph hop hp hfit).2 _ rfl) (Nat.not_le_of_lt hl)

theorem callable_of_pending_eq {s u : State} {c : Command} (h : u.pending = s.pending) (hc : callable c s) :
    callable c u := by
  simpa only [callable, h] using hc

/-- The operation of a phase ends with a next state or with an answer that does not fit (R110). -/
theorem phaseInstr_ends {s : State} {p : Phase} (hi : Inv s) (hph : s.phase = phaseCode p) :
    StepEnds s (exec (phaseInstr p) s) := by
  have hnext (f : State → State) : Completes fun u => .next (f u) := fun u => ⟨f u, rfl⟩
  have hcall {c : Command} (hop : phaseOp p = some (commandOp c)) : callable c s := hi.callable_of_phaseOp hph hop
  cases p with
  | reset | done | fatal => exact .next _
  | attach => exact (attachGw_ends (hcall rfl)).stepEnds hph rfl (by decide) (hnext _)
  | query => exact (queryMacGw_ends (hcall rfl)).stepEnds hph rfl (by decide) (hnext _)
  | respListen => exact (receiveRx_ends (hcall rfl)).stepEnds hph rfl (by decide) completes_respondToRx
  | reqWait => exact (receiveRx_ends (hcall rfl)).stepEnds hph rfl (by decide) completes_awaitReplyRx
  | respSend =>
    have hends := sendTx_ends (callable_of_pending_eq (renderExchange_pending s) (hcall rfl))
    have hcfg : s.renderExchange.cfg = s.cfg := changes_renderExchange s .cfg (by decide)
    exact (hends.of_same (renderExchange_env s) hcfg).stepEnds hph rfl (by decide) (hnext _)
  | reqSend =>
    have hends := sendTx_ends (callable_of_pending_eq (renderRequest_pending s) (hcall rfl))
    have hcfg : s.renderRequest.cfg = s.cfg := changes_renderRequest s .cfg (by decide)
    exact (hends.of_same (renderRequest_env s) hcfg).stepEnds hph rfl (by decide) (hnext _)
  | detach =>
    have hc : callable (.detach s.gwHandle) s := hcall rfl
    change StepEnds s ((detachGw s).andThen _)
    rcases unanswered_or_answer s with hno | ⟨r, rest, he⟩
    · rw [andThen_of_ended (detachGw_unanswered hc hno)]
      exact .next _
    · rw [andThen_of_go (detachGw_answered hc he)]
      exact .next _

/-- A release ends with a next state, or on a configuration that R167 refuses. -/
theorem release_ends {s : State} {rest : List EnvEvent} (he : s.env = .releaseReset :: rest) : StepEnds s (step s) := by
  rw [step_release s he]
  split
  · unfold execResetRelease
    split
    · exact .rxMaxBelow42 he ‹_›
    · exact .next _
  · exact .next _

/-- From the invariant, every step ends in one of these ways. -/
theorem step_ends {s : State} (hi : Inv s) : StepEnds s (step s) := by
  rcases env_cases s with ⟨rest, he⟩ | ⟨rest, he⟩ | ⟨p, rest, he⟩ | hturn
  · rw [step_assertReset s he]
    exact .next _
  · exact release_ends he
  · rw [step_setParams s he]
    exact .next _
  · obtain ⟨-, ⟨hlegal, -⟩, -⟩ := id hi
    cases hp : phaseOfCode s.phase with
    | none =>
      have := phaseOfCode_eq_none.1 hp
      omega
    | some p =>
      have hph := phaseOfCode_eq_some.1 hp
      rw [step_phase s hturn p hph]
      exact phaseInstr_ends hi hph

/-- Settles O54: the contract rules out every end but a next state. -/
theorem contractKeepingRunsNeverStop : Obligations.ContractKeepingRunsNeverStop := by
  intro s hi ⟨hanswer, hrelease⟩
  have hends := step_ends hi
  generalize step s = o at hends ⊢
  cases hends with
  | next t => exact ⟨t, rfl⟩
  | badResponse he hr => exact absurd (hanswer _ _ he) hr
  | tooLong he hr => exact absurd (hanswer _ _ he) hr
  | rxMaxBelow42 he hx => exact absurd (hrelease _ he) (Nat.not_le_of_lt hx)

/-- Settles O55: by the ends of a step. -/
theorem onlyTheEnvironmentStopsARun : Obligations.OnlyTheEnvironmentStopsARun := by
  intro s hi
  have hends := step_ends hi
  refine ⟨fun f hf => ?_, fun r hr => ?_⟩
  · rw [hf] at hends
    cases hends with
    | badResponse => rfl
  · rw [hr] at hends
    cases hends with
    | tooLong => exact .inl rfl
    | rxMaxBelow42 => exact .inr rfl

end Sys2Proof.Machine
end

section
/-! The responder: its filters and the reply it builds (O22 to O24), its two phases (O25, O26), and what it does with a
received frame and with its loop (O27, O28). -/

namespace Sys2Proof.Machine

/-! ### Filter, reply and counter -/

/-- RESP_FILTER leaves the verdict of the filters on the wire (R116). -/
theorem exec_respFilter {s : State} {f : Frame} {v : RespVerdict} (h : respFilterOf s.cfg f = v) :
    exec (.respFilter f) s = .next { s with wires := { s.wires with respVerdict := some v } } := by
  rw [← h]
  rfl

/-- Settles O22: each clause is the condition of one verdict. -/
theorem respFilterVerdicts : Obligations.RespFilterVerdicts := by
  intro s f
  refine ⟨fun hbit hoper => ?_, fun hop hbit htpa => ?_, fun hop htpa => ?_⟩
  · exact exec_respFilter (respFilterOf_opcodeFiltered.2 ⟨hbit, hoper⟩)
  · exact exec_respFilter (respFilterOf_targetFiltered.2 ⟨hop, hbit, htpa⟩)
  · exact exec_respFilter (respFilterOf_accept.2 ⟨hop, htpa⟩)

/-- Settles O23: the row stores `replyTo` of `REQ`. -/
theorem replyIsBuiltFromLatchedRequest : Obligations.ReplyIsBuiltFromLatchedRequest := fun _ => rfl

/-- Settles O24: addition of 32-bit words is modulo 2^32. -/
theorem countExchangeAddsOneModulo : Obligations.CountExchangeAddsOneModulo := fun s =>
  ⟨s.exchCnt + 1, BitVec.toNat_add s.exchCnt 1, rfl⟩

/-! ### RESP_LISTEN -/

section Listen

variable {s : State} {rest : List EnvEvent} {bs : List Byte}

/-- A sequence that fits is handed to the responder (R115). -/
theorem exec_phaseRespListen_ok (hc : callable (.receive s.gwHandle s.cfg.rxMax) s)
    (he : s.env = .answer (.ok (.bytes bs)) :: rest) (hl : bs.length ≤ s.cfg.rxMax) :
    exec .phaseRespListen s = respondToRx (afterRx s rest bs) := andThen_of_go (receiveRx_ok hc he hl) _

variable (hm : s.rxBuf.wf = true)
include hm

theorem respondToRx_afterRx_truncated (h : classOfBytes bs = .truncated) :
    respondToRx (afterRx s rest bs) = .next ((afterRx s rest bs).discard .truncated) := by
  rw [respondToRx_eq, received_afterRx s rest bs hm, h]

theorem respondToRx_afterRx_notArp (h : classOfBytes bs = .notArp) :
    respondToRx (afterRx s rest bs) = .next ((afterRx s rest bs).discard .notArp) := by
  rw [respondToRx_eq, received_afterRx s rest bs hm, h]

/-- An ARP sequence goes by the verdict of the filters on its record (R116). -/
theorem respondToRx_afterRx_arp (h : classOfBytes bs = .arp) :
    respondToRx (afterRx s rest bs) =
      match respFilterOf s.cfg (frameOfBytes bs) with
      | .opcodeFiltered => .next ((afterRx s rest bs).discard .opcodeFiltered)
      | .targetFiltered => .next ((afterRx s rest bs).discard .targetFiltered)
      | .accept => .next ((afterRx s rest bs).acceptRequest (frameOfBytes bs)) := by
  rw [respondToRx_eq, received_afterRx s rest bs hm, h]
  rfl

end Listen

/-- Settles O25: what RECEIVE answers, and the responder's handling of the sequence by its class and its verdict. -/
theorem respListenFollowsItsRule : Obligations.RespListenFollowsItsRule := by
  intro s rest hm hc
  refine ⟨fun he => ?fail, fun bs he hl => ?tooLong, fun bs he hl => ?delivered⟩
  case fail => exact andThen_of_ended (receiveRx_fail hc he) _
  case tooLong => exact andThen_of_refused (receiveRx_tooLong hc he hl) _
  case delivered =>
    refine ⟨setBytes s.rxBuf 0 bs, wf_setBytes hm 0 bs, stored_setBytes hm bs, ?_⟩
    rw [exec_phaseRespListen_ok hc he hl]
    refine ⟨fun h => ?truncated, fun h14 hne => ?notArp, fun h42 harp => ?arp⟩
    case truncated => exact respondToRx_afterRx_truncated hm ((classOfBytes_eq_truncated bs).2 h)
    case notArp => exact respondToRx_afterRx_notArp hm ((classOfBytes_eq_notArp bs).2 ⟨h14, hne⟩)
    case arp =>
      rw [respondToRx_afterRx_arp hm ((classOfBytes_eq_arp bs).2 ⟨h42, harp⟩)]
      refine ⟨frameOfBytes bs, (holdsFrame_iff bs h42 _).2 rfl, fun h => ?opcode, fun hop h => ?target,
        fun hop htpa => ?accept⟩
      case opcode => rw [respFilterOf_opcodeFiltered.2 h]; rfl
      case target => rw [respFilterOf_targetFiltered.2 ⟨hop, h⟩]; rfl
      case accept => rw [respFilterOf_accept.2 ⟨hop, htpa⟩]; rfl

/-! ### RESP_SEND -/

/-- The state with the two records and the SEND of an exchange put out, and the SEND pending (R120). -/
def sendingExchange (s : State) : State :=
  { s with
    txBuf := setBytes s.txBuf 0 (wireImage s.tx)
    trace := s.trace ++ [.diag ⟨.respRx, s.exchCnt, .frame s.req⟩, .diag ⟨.respTx, s.exchCnt, .frame s.tx⟩,
      .command (.send s.gwHandle (wireImage s.tx))]
    pending := some (.send s.gwHandle (wireImage s.tx)) }

theorem sendingExchange_env (s : State) : (sendingExchange s).env = s.env := by rw [sendingExchange]

/-- R120: the records come before the SEND. -/
theorem sending_renderExchange {s : State} (hp : s.pending = none) : sending s.renderExchange = sendingExchange s := by
  simp only [State.renderExchange, hp, State.emitRespRx, State.emitRespTx, State.emitDiag, State.emit, sending,
    afterSend, sendingExchange, List.append_assoc, List.cons_append, List.nil_append]

/-- The end of RESP_SEND from a state in which the SEND is pending: its answer, and back to RESP_LISTEN (R120, R121). -/
def endExchange (s : State) : Outcome :=
  (ofSendReply (awaitAnswer s)).andThen fun s => .next (s.setPhase .respListen)

section EndExchange

variable {s : State} {rest : List EnvEvent}

theorem endExchange_ok (he : s.env = .answer (.ok .empty) :: rest) :
    endExchange s = .next { s with env := rest, pending := none, phase := 3 } := by
  rw [endExchange, awaitAnswer_answer he]
  rfl

theorem endExchange_fail (he : s.env = .answer .fail :: rest) :
    endExchange s = .next { s with
      env := rest, pending := none, trace := s.trace ++ [errorRecord 3],
      errCode := 3, exitStatus := 1, phase := 9 } := by
  rw [endExchange, awaitAnswer_answer he]
  rfl

theorem endExchange_noInput (he : s.env = []) : endExchange s = .next s := by
  rw [endExchange, awaitAnswer_unanswered (unanswered_of_nil he), afterQuiet_of_nil he]
  rfl

theorem endExchange_quiet (he : s.env = .quiet :: rest) : endExchange s = .next { s with env := rest } := by
  rw [endExchange, awaitAnswer_unanswered (unanswered_of_quiet he), afterQuiet_of_quiet he]
  rfl

/-- RESP_SEND ends as `send_tx()` does after the records. -/
theorem exec_phaseRespSend_of_sendTx {u : State} (h : sendTx s.renderExchange = ofSendReply (awaitAnswer u)) :
    exec .phaseRespSend s = endExchange u :=
  congrArg (fun w => w.andThen fun v => .next (v.setPhase .respListen)) h

/-- With nothing pending, RESP_SEND puts out the records and the SEND, and waits for the answer. -/
theorem exec_phaseRespSend_idle (hm : s.txBuf.wf = true) (hp : s.pending = none) :
    exec .phaseRespSend s = endExchange (sendingExchange s) := by
  have hm' : s.renderExchange.txBuf.wf = true := by rwa [(sameBuffers_renderExchange s).1]
  rw [← sending_renderExchange hp]
  exact exec_phaseRespSend_of_sendTx (sendTx_idle _ hm' ((renderExchange_pending s).trans hp))

/-- While its SEND is pending, RESP_SEND waits for the answer and puts nothing out (R101). -/
theorem exec_phaseRespSend_waiting {h : Handle} {bs : List Byte} (hp : s.pending = some (.send h bs)) :
    exec .phaseRespSend s = endExchange s := by
  have hrender : s.renderExchange = s := by simp only [State.renderExchange, hp]
  exact exec_phaseRespSend_of_sendTx (hrender.symm ▸ sendTx_waiting s hp)

end EndExchange

/-- Settles O26: the end of the exchange for each input, after the records and the SEND are put out or from the pending
SEND. -/
theorem respSendRendersThenSends : Obligations.RespSendRendersThenSends := by
  intro s rest hm
  refine ⟨fun hp => ?idle, fun h bs hp => ?waiting⟩
  case idle =>
    refine ⟨setBytes s.txBuf 0 (wireImage s.tx), wf_setBytes hm 0 _, stored_setBytes hm _, ?_⟩
    rw [exec_phaseRespSend_idle hm hp, ← sendingExchange_env s]
    refine ⟨fun he => ?ok, fun he => ?fail, fun he => ?noInput, fun he => ?quiet⟩
    case ok => rw [endExchange_ok he, sendingExchange, hp]
    case fail => rw [endExchange_fail he, sendingExchange, hp]
    case noInput => rw [endExchange_noInput he, sendingExchange]
    case quiet => rw [endExchange_quiet he, sendingExchange]
  case waiting =>
    rw [exec_phaseRespSend_waiting hp]
    exact ⟨endExchange_ok, endExchange_fail, endExchange_noInput, endExchange_quiet⟩

/-! ### The exchange and the loop -/

/-- A step that answers an input, or waits for one, in a given phase is the phase's operation. -/
theorem step_answer {s : State} {r : Response} {rest : List EnvEvent} (he : s.env = .answer r :: rest) {p : Phase}
    (hp : s.phase = phaseCode p) : step s = exec (phaseInstr p) s :=
  step_phase s (by rw [engineTurn, he]) p hp

/-- A run whose first step has a next state goes on from it. -/
theorem run_succ_of_next {n : Nat} {s t : State} (h : step s = .next t) : run (n + 1) s = run n t := by
  rw [run_succ, h]

/-- RESP_SEND with nothing pending and an OK for its SEND, as a step (R120). -/
theorem step_respSend_ok {s : State} {rest : List EnvEvent} (hm : s.txBuf.wf = true) (hph : s.phase = 4)
    (hp : s.pending = none) (he : s.env = .answer (.ok .empty) :: rest) :
    step s = .next { sendingExchange s with env := rest, pending := none, phase := 3 } := by
  rw [step_answer he (p := .respSend) hph, phaseInstr, exec_phaseRespSend_idle hm hp,
    endExchange_ok ((sendingExchange_env s).trans he)]

/-- An accepted ARP sequence and an OK for the SEND: the responder listens again, two steps later (R115, R120). -/
theorem run_exchange {s : State} {bs : List Byte} {f : Frame} {rest : List EnvEvent} (hi : Inv s) (hph : s.phase = 3)
    (hl : bs.length ≤ s.cfg.rxMax) (hclass : classOfBytes bs = .arp) (hf : f = frameOfBytes bs)
    (haccept : respFilterOf s.cfg f = .accept)
    (he : s.env = .answer (.ok (.bytes bs)) :: .answer (.ok .empty) :: rest) :
    run 2 s = .next { sendingExchange ((afterRx s (.answer (.ok .empty) :: rest) bs).acceptRequest f) with
      env := rest, pending := none, phase := 3 } := by
  obtain ⟨⟨hrx, htx, -⟩, -⟩ := id hi
  have hc : callable (.receive s.gwHandle s.cfg.rxMax) s := hi.callable_of_phaseOp (p := .respListen) hph rfl
  have hlisten : step s = .next ((afterRx s (.answer (.ok .empty) :: rest) bs).acceptRequest f) := by
    rw [step_answer he (p := .respListen) hph, phaseInstr, exec_phaseRespListen_ok hc he hl,
      respondToRx_afterRx_arp hrx hclass, ← hf, haccept]
  rw [run_succ_of_next hlisten]
  -- The request is accepted: nothing is pending, and the OK of the SEND comes next.
  have hsend := step_respSend_ok (s := (afterRx s (.answer (.ok .empty) :: rest) bs).acceptRequest f) htx rfl rfl rfl
  rw [run_succ_of_next hsend, run_zero]

/-- Settles O27: an exchange ends with the reply of R118, and a sequence that is not ARP is discarded. -/
theorem responderAnswersEachArpFrame : Obligations.ResponderAnswersEachArpFrame := by
  intro s bs f rest hi hph hl
  refine ⟨fun h42 harp hf hop htpa he => ?exchange, fun h14 hne he => ?discard⟩
  case exchange =>
    have hclass := (classOfBytes_eq_arp bs).2 ⟨h42, harp⟩
    have haccept : respFilterOf s.cfg f = .accept :=
      respFilterOf_accept.2 ⟨fun h => h.2 (hop h.1), fun h => h.2 (htpa h.1)⟩
    refine ⟨_, run_exchange hi hph hl hclass ((holdsFrame_iff bs h42 f).1 hf) haccept he, rfl, rfl, rfl, rfl, ?_⟩
    exact ⟨replyTo s.localMac f, rfl, rfl, rfl, rfl, rfl, rfl, rfl, rfl⟩
  case discard =>
    obtain ⟨⟨hrx, -⟩, -⟩ := id hi
    have hc : callable (.receive s.gwHandle s.cfg.rxMax) s := hi.callable_of_phaseOp (p := .respListen) hph rfl
    have hstep : step s = .next ((afterRx s rest bs).discard .notArp) := by
      rw [step_answer he (p := .respListen) hph, phaseInstr, exec_phaseRespListen_ok hc he hl,
        respondToRx_afterRx_notArp hrx ((classOfBytes_eq_notArp bs).2 ⟨h14, hne⟩)]
    exact ⟨_, hstep, rfl, rfl, rfl, rfl, rfl, rfl, rfl, rfl, rfl, rfl, rfl, rfl, rfl, rfl⟩

/-- What a step of RESP_LISTEN makes of the phase (R115). -/
theorem phaseRespListen_phase {s t : State} (hph : s.phase = 3) (h : exec .phaseRespListen s = .next t) :
    t.phase = 3 ∨ t.phase = 4 ∨ (t.phase = 9 ∧ ∃ rest, s.env = .answer .fail :: rest) := by
  obtain ⟨-, ⟨bs, rest, -, -, h⟩ | ⟨rest, he, rfl⟩ | ⟨e, -, rfl⟩⟩ := receive_next h
  · rcases respondToRx_next h with ⟨r, rfl⟩ | ⟨-, -, rfl⟩
    · exact .inl hph
    · exact .inr (.inl rfl)
  · exact .inr (.inr ⟨rfl, rest, he⟩)
  · exact .inl hph

/-- What a step of RESP_SEND makes of the phase, by the answer to the SEND (R120). -/
theorem phaseRespSend_phase {s t : State} (h : exec .phaseRespSend s = .next t) :
    (t.phase = 3 ∧ ∃ rest, s.env = .answer (.ok .empty) :: rest) ∨
    (t.phase = 9 ∧ ∃ rest, s.env = .answer .fail :: rest) ∨ (t.phase = s.phase ∧ unanswered s) := by
  have hphase : s.renderExchange.phase = s.phase := changes_renderExchange s .phase (by decide)
  obtain ⟨-, hends⟩ := send_next h
  rw [renderExchange_env] at hends
  obtain ⟨rest, he, h⟩ | ⟨rest, he, rfl⟩ | ⟨e, hw, rfl⟩ := hends
  · cases h
    exact .inl ⟨rfl, rest, he⟩
  · exact .inr (.inl ⟨rfl, rest, he⟩)
  · have hno : unanswered s := by simpa only [unanswered, renderExchange_env] using unanswered_of_waits hw
    exact .inr (.inr ⟨(encodedTx_phase _).trans hphase, hno⟩)

/-- Settles O28: the step is that of the phase, and each of the two phases ends in the loop or in FATAL. -/
theorem responderStaysInItsLoop : Obligations.ResponderStaysInItsLoop := by
  intro s t hph hturn h
  rcases hph with hph | hph
  · rw [step_phase s hturn .respListen hph] at h
    exact ⟨phaseRespListen_phase hph h, fun _ h4 => by simp [hph] at h4⟩
  · rw [step_phase s hturn .respSend hph] at h
    rcases phaseRespSend_phase h with ⟨h3, -⟩ | ⟨h9, hfail⟩ | ⟨h4, hno⟩
    · exact ⟨.inl h3, fun _ _ _ => h3⟩
    · refine ⟨.inr (.inr ⟨h9, hfail⟩), fun _ _ he => ?_⟩
      obtain ⟨rest, hf⟩ := hfail
      simp [hf] at he
    · exact ⟨.inr (.inl (h4.trans hph)), fun rest _ he => absurd he (hno _ rest)⟩

end Sys2Proof.Machine
end

section
/-! The requester: the request it builds and its match (O29, O32), its two phases (O30, O31, O33), the single request of
a reset (O34), the run to DONE (O35), and the phases in which nothing is done (O41). -/

namespace Sys2Proof.Machine

/-! ### Request, match and idle phases -/

/-- Settles O29: the row stores `requestFor` of the identity registers. -/
theorem requestIsBuiltFromIdentity : Obligations.RequestIsBuiltFromIdentity := fun _ => rfl

/-- REQ_ACCEPT leaves the verdict of the match on the wire (R133). -/
theorem exec_reqAccept {s : State} {f : Frame} {v : ReqVerdict} (h : reqAcceptOf s.cfg f = v) :
    exec (.reqAccept f) s = .next { s with wires := { s.wires with reqVerdict := some v } } := by
  rw [← h]
  rfl

/-- Settles O32: each clause is the condition of one verdict. -/
theorem reqAcceptVerdicts : Obligations.ReqAcceptVerdicts := fun _ _ =>
  ⟨fun h => exec_reqAccept (reqAcceptOf_matched.2 h),
    fun hbit hne => exec_reqAccept (reqAcceptOf_unmatched.2 ⟨hbit, hne⟩)⟩

section PassInput

variable {s : State} {rest : List EnvEvent}

theorem passInput_of_nil (he : s.env = []) : s.passInput = s := by simp only [State.passInput, he]

theorem passInput_of_answer {r : Response} (he : s.env = .answer r :: rest) :
    s.passInput = { s with env := rest } := by simp only [State.passInput, he]

theorem passInput_of_quiet (he : s.env = .quiet :: rest) : s.passInput = { s with env := rest } := by
  simp only [State.passInput, he]

end PassInput

/-- Settles O41: each of the three rows only lets an input pass. -/
theorem idlePhasesPerformNothing : Obligations.IdlePhasesPerformNothing := by
  intro s i hi
  have hpass : exec i s = .next s.passInput := by
    simp only [List.mem_cons, List.not_mem_nil, or_false] at hi
    rcases hi with rfl | rfl | rfl
    · rfl
    · rfl
    · rfl
  rw [hpass]
  exact ⟨fun he => congrArg _ (passInput_of_nil he), fun _ _ he => congrArg _ (passInput_of_answer he),
    fun _ he => congrArg _ (passInput_of_quiet he)⟩

/-! ### REQ_SEND -/

/-- The request of R130, from the identity registers of `s`. -/
abbrev ownRequest (s : State) : Frame := requestFor s.localMac s.cfg.localIp s.cfg.targetIp

/-- What REQ_SEND puts out before the answer to its SEND (R129): the request's record, and the SEND of its image. -/
def requestOutputs (s : State) : List Output :=
  [.diag ⟨.reqTx, 0, .frame (ownRequest s)⟩, .command (.send s.gwHandle (wireImage (ownRequest s)))]

/-- The state with the request built, its record and its SEND put out, and the SEND pending (R129). -/
def sendingRequest (s : State) : State :=
  { s with
    tx := ownRequest s
    txBuf := setBytes s.txBuf 0 (wireImage (ownRequest s))
    trace := s.trace ++ requestOutputs s
    pending := some (.send s.gwHandle (wireImage (ownRequest s))) }

theorem sendingRequest_env (s : State) : (sendingRequest s).env = s.env := by rw [sendingRequest]

/-- R129: the record comes before the SEND. -/
theorem sending_renderRequest {s : State} (hp : s.pending = none) : sending s.renderRequest = sendingRequest s := by
  rw [renderRequest_of_none hp]
  simp only [State.buildRequest, State.emitReqTx, State.emitDiag, State.emit, sending, afterSend, sendingRequest,
    requestOutputs, List.append_assoc, List.cons_append, List.nil_append]

/-- The end of REQ_SEND from a state in which the SEND is pending: its answer, and on to REQ_WAIT (R129). -/
def endRequest (s : State) : Outcome :=
  (ofSendReply (awaitAnswer s)).andThen fun s => .next (s.setPhase .reqWait)

section EndRequest

variable {s : State} {rest : List EnvEvent}

theorem endRequest_ok (he : s.env = .answer (.ok .empty) :: rest) :
    endRequest s = .next { s with env := rest, pending := none, phase := 6 } := by
  rw [endRequest, awaitAnswer_answer he]
  rfl

theorem endRequest_fail (he : s.env = .answer .fail :: rest) :
    endRequest s = .next { s with
      env := rest, pending := none, trace := s.trace ++ [errorRecord 3],
      errCode := 3, exitStatus := 1, phase := 9 } := by
  rw [endRequest, awaitAnswer_answer he]
  rfl

/-- Without an answer REQ_SEND ends with its SEND pending; a quiet input passes (R36, log 6). -/
theorem endRequest_unanswered (h : unanswered s) : endRequest s = .next { s with env := afterQuiet s.env } := by
  rw [endRequest, awaitAnswer_unanswered h]
  rfl

theorem endRequest_noInput (he : s.env = []) : endRequest s = .next s := by
  rw [endRequest_unanswered (unanswered_of_nil he), afterQuiet_of_nil he]

theorem endRequest_quiet (he : s.env = .quiet :: rest) : endRequest s = .next { s with env := rest } := by
  rw [endRequest_unanswered (unanswered_of_quiet he), afterQuiet_of_quiet he]

/-- REQ_SEND ends as `send_tx()` does after the request is rendered. -/
theorem exec_phaseReqSend_of_sendTx {u : State} (h : sendTx s.renderRequest = ofSendReply (awaitAnswer u)) :
    exec .phaseReqSend s = endRequest u :=
  congrArg (fun w => w.andThen fun v => .next (v.setPhase .reqWait)) h

/-- With nothing pending, REQ_SEND puts out the request's record and its SEND, and waits for the answer. -/
theorem exec_phaseReqSend_idle (hm : s.txBuf.wf = true) (hp : s.pending = none) :
    exec .phaseReqSend s = endRequest (sendingRequest s) := by
  have hm' : s.renderRequest.txBuf.wf = true := by rwa [(sameBuffers_renderRequest s).1]
  rw [← sending_renderRequest hp]
  exact exec_phaseReqSend_of_sendTx (sendTx_idle _ hm' ((renderRequest_pending s).trans hp))

/-- While its SEND is pending, REQ_SEND waits for the answer, and nothing is built or put out (R101). -/
theorem exec_phaseReqSend_waiting {h : Handle} {bs : List Byte} (hp : s.pending = some (.send h bs)) :
    exec .phaseReqSend s = endRequest s := by
  have hrender : s.renderRequest = s := by simp only [State.renderRequest, hp]
  exact exec_phaseReqSend_of_sendTx (hrender.symm ▸ sendTx_waiting s hp)

end EndRequest

/-- Settles O30: the end of REQ_SEND for each input, after the record and the SEND are put out or from the pending
SEND. -/
theorem reqSendBuildsRendersAndSends : Obligations.ReqSendBuildsRendersAndSends := by
  intro s rest hm
  refine ⟨fun hp => ?idle, fun h bs hp => ?waiting⟩
  case idle =>
    refine ⟨setBytes s.txBuf 0 _, wf_setBytes hm 0 _, stored_setBytes hm _, ?_⟩
    rw [exec_phaseReqSend_idle hm hp, ← sendingRequest_env s]
    refine ⟨fun he => ?ok, fun he => ?fail, fun he => ?noInput, fun he => ?quiet⟩
    case ok => rw [endRequest_ok he, sendingRequest, requestOutputs, hp]
    case fail => rw [endRequest_fail he, sendingRequest, requestOutputs, hp]
    case noInput => rw [endRequest_noInput he, sendingRequest, requestOutputs]
    case quiet => rw [endRequest_quiet he, sendingRequest, requestOutputs]
  case waiting =>
    rw [exec_phaseReqSend_waiting hp]
    exact ⟨endRequest_ok, endRequest_fail, endRequest_noInput, endRequest_quiet⟩

/-- R110: given FAIL, OK, or no answer, the end of REQ_SEND completes, and what was put out stays. -/
theorem endRequest_completes {s : State}
    (hfit : ∀ r rest, s.env = .answer r :: rest → r = .fail ∨ r = .ok .empty) :
    ∃ t, endRequest s = .next t ∧ s.trace ⊆ t.trace := by
  rcases unanswered_or_answer s with hno | ⟨r, rest, he⟩
  · exact ⟨_, endRequest_unanswered hno, List.Subset.refl _⟩
  · rcases hfit r rest he with rfl | rfl
    · exact ⟨_, endRequest_fail he, List.subset_append_left _ _⟩
    · exact ⟨_, endRequest_ok he, List.Subset.refl _⟩

/-- R138, R63: destination and target hardware address of the request's image are six `FF`, its opcode is `00 01`. -/
theorem wireImage_requestFor (a : HwAddr) (p q : ProtoAddr) :
    (wireImage (requestFor a p q)).take 6 = [0xFF, 0xFF, 0xFF, 0xFF, 0xFF, 0xFF] ∧
    ((wireImage (requestFor a p q)).drop 32).take 6 = [0xFF, 0xFF, 0xFF, 0xFF, 0xFF, 0xFF] ∧
    ((wireImage (requestFor a p q)).drop 20).take 2 = [0x00, 0x01] := by
  simp [wireImage_eq, bytesOfFrame, beBytes, requestFor]

/-- Settles O31: the SEND is put out before its answer, and its bytes are the image of the request. -/
theorem requestBytesAreBroadcast : Obligations.RequestBytesAreBroadcast := by
  intro s hm hp hfit
  rw [← sendingRequest_env s] at hfit
  obtain ⟨t, ht, hout⟩ := endRequest_completes hfit
  have hmem : .command (.send s.gwHandle (wireImage (ownRequest s))) ∈ (sendingRequest s).trace := by
    simp [sendingRequest, requestOutputs]
  exact ⟨t, wireImage (ownRequest s), (exec_phaseReqSend_idle hm hp).trans ht, hout hmem, wireImage_length _,
    wireImage_requestFor _ _ _⟩

/-! ### REQ_WAIT -/

section Wait

variable {s : State} {rest : List EnvEvent} {bs : List Byte}

/-- A sequence that fits is handed to the requester (R132). -/
theorem exec_phaseReqWait_ok (hc : callable (.receive s.gwHandle s.cfg.rxMax) s)
    (he : s.env = .answer (.ok (.bytes bs)) :: rest) (hl : bs.length ≤ s.cfg.rxMax) :
    exec .phaseReqWait s = awaitReplyRx (afterRx s rest bs) := andThen_of_go (receiveRx_ok hc he hl) _

variable (hm : s.rxBuf.wf = true)
include hm

theorem awaitReplyRx_afterRx_truncated (h : classOfBytes bs = .truncated) :
    awaitReplyRx (afterRx s rest bs) = .next ((afterRx s rest bs).discard .truncated) := by
  rw [awaitReplyRx_eq, received_afterRx s rest bs hm, h]

theorem awaitReplyRx_afterRx_notArp (h : classOfBytes bs = .notArp) :
    awaitReplyRx (afterRx s rest bs) = .next ((afterRx s rest bs).discard .notArp) := by
  rw [awaitReplyRx_eq, received_afterRx s rest bs hm, h]

/-- An ARP sequence goes by the verdict of the match on its record (R133). -/
theorem awaitReplyRx_afterRx_arp (h : classOfBytes bs = .arp) :
    awaitReplyRx (afterRx s rest bs) =
      match reqAcceptOf s.cfg (frameOfBytes bs) with
      | .unmatched => .next ((afterRx s rest bs).discard .unmatched)
      | .matched => .next ((afterRx s rest bs).acceptResult (frameOfBytes bs)) := by
  rw [awaitReplyRx_eq, received_afterRx s rest bs hm, h]
  rfl

end Wait

/-- Settles O33: what RECEIVE answers, and the requester's handling of the sequence by its class and its verdict. -/
theorem reqWaitFollowsItsRule : Obligations.ReqWaitFollowsItsRule := by
  intro s rest hm hc
  refine ⟨fun he => ?fail, fun bs he hl => ?tooLong, fun bs he hl => ?delivered⟩
  case fail => exact andThen_of_ended (receiveRx_fail hc he) _
  case tooLong => exact andThen_of_refused (receiveRx_tooLong hc he hl) _
  case delivered =>
    refine ⟨setBytes s.rxBuf 0 bs, wf_setBytes hm 0 bs, stored_setBytes hm bs, ?_⟩
    rw [exec_phaseReqWait_ok hc he hl]
    refine ⟨fun h => ?truncated, fun h14 hne => ?notArp, fun h42 harp => ?arp⟩
    case truncated => exact awaitReplyRx_afterRx_truncated hm ((classOfBytes_eq_truncated bs).2 h)
    case notArp => exact awaitReplyRx_afterRx_notArp hm ((classOfBytes_eq_notArp bs).2 ⟨h14, hne⟩)
    case arp =>
      rw [awaitReplyRx_afterRx_arp hm ((classOfBytes_eq_arp bs).2 ⟨h42, harp⟩)]
      refine ⟨frameOfBytes bs, (holdsFrame_iff bs h42 _).2 rfl, fun h => ?unmatched, fun h => ?matched⟩
      case unmatched => rw [reqAcceptOf_unmatched.2 h]; rfl
      case matched => rw [reqAcceptOf_matched.2 h]; rfl

/-! ### One request per reset -/

theorem sendCount_append (o o' : List Output) : sendCount (o ++ o') = sendCount o + sendCount o' := List.countP_append

/-- A SEND is a command. -/
theorem sendCount_le_commandCount (o : List Output) : sendCount o ≤ commandCount o := by
  refine List.countP_mono_left fun x _ hx => ?_
  cases x with
  | command c => rfl
  | diag r => exact hx

/-- Records put out no SEND. -/
theorem OnlyRecords.sendCount_eq {s t : State} (h : OnlyRecords s t) : sendCount t.trace = sendCount s.trace := by
  obtain ⟨out, hout, hnone⟩ := h
  have hle := sendCount_le_commandCount out
  rw [hnone] at hle
  rw [hout, sendCount_append, Nat.le_zero.1 hle, Nat.add_zero]

/-- A SEND is put out once, and not again while a command is pending (R101). -/
theorem sendCount_issued_send (g : Handle) (bs : List Byte) (s : State) :
    sendCount (issued (.send g bs) s) = if s.pending = none then 1 else 0 := by
  cases hp : s.pending <;> simp [issued, hp, sendCount]

/-- The other commands are no SEND. -/
theorem sendCount_issued_of_ne {c : Command} (hc : commandOp c ≠ 3) (s : State) : sendCount (issued c s) = 0 := by
  unfold issued
  split
  · cases c with
    | send g bs => exact absurd rfl hc
    | _ => rfl
  · rfl

/-- Calling a command other than SEND puts out no SEND. -/
theorem sendCount_append_issued {c : Command} (hc : commandOp c ≠ 3) (s : State) :
    sendCount (s.trace ++ issued c s) = sendCount s.trace := by
  rw [sendCount_append, sendCount_issued_of_ne hc, Nat.add_zero]

/-- A command that was called without an answer is pending (R36). -/
theorem awaited_ne_none (c : Command) (s : State) : awaited c s ≠ none := by
  unfold awaited
  split <;> simp

/-- REQ_SEND puts out one SEND unless one is pending, and ends in REQ_WAIT, in FATAL, or with the SEND pending
(R129). -/
theorem phaseReqSend_sends {s t : State} (h : exec .phaseReqSend s = .next t) :
    sendCount t.trace = sendCount s.trace + (if s.pending = none then 1 else 0) ∧
    (t.phase = 6 ∨ t.phase = 9 ∨ (t.phase = s.phase ∧ t.pending ≠ none)) := by
  have hphase : (encodedTx s.renderRequest).phase = s.phase :=
    (encodedTx_phase _).trans (changes_renderRequest s .phase (by decide))
  have htrace : (encodedTx s.renderRequest).trace = s.renderRequest.trace := changes_encodedTx _ .trace (by decide)
  -- The request's record comes before the SEND; an error record may come after it.
  have hsend (c : List Byte) : sendCount
      ((encodedTx s.renderRequest).trace ++ issued (.send s.renderRequest.gwHandle c) (encodedTx s.renderRequest)) =
      sendCount s.trace + (if s.pending = none then 1 else 0) := by
    rw [sendCount_append, htrace, (onlyRecords_renderRequest s).sendCount_eq, sendCount_issued_send, encodedTx_pending,
      renderRequest_pending]
  obtain ⟨-, ⟨rest, -, h⟩ | ⟨rest, -, rfl⟩ | ⟨e, -, rfl⟩⟩ := send_next h
  · cases h
    exact ⟨hsend _, .inl rfl⟩
  · exact ⟨(onlyRecords_raiseFatal _ _).sendCount_eq.trans (hsend _), .inr (.inl rfl)⟩
  · exact ⟨hsend _, .inr (.inr ⟨hphase, awaited_ne_none _ _⟩)⟩

/-- The phases of the requester after its SEND (R128, R140): REQ_WAIT, DETACH, DONE and FATAL. -/
def requestSent (s : State) : Prop := s.phase = 6 ∨ s.phase = 7 ∨ s.phase = 8 ∨ s.phase = 9

/-- From `s` to `t` no SEND is put out, `t` is in a phase after the request's SEND, and its inputs are the last ones
of those of `s`. -/
structure NoMoreSends (s t : State) : Prop where
  phase : requestSent t
  sends : sendCount t.trace = sendCount s.trace
  env : t.env <:+ s.env

theorem noResetAsserted_of_suffix {es es' : List EnvEvent} (h : es' <:+ es) (hno : noResetAsserted es = true) :
    noResetAsserted es' = true :=
  List.all_eq_true.2 fun x hx => List.all_eq_true.1 hno x (h.subset hx)

theorem suffix_of_env_cons {s : State} {x : EnvEvent} {rest : List EnvEvent} (he : s.env = x :: rest) :
    rest <:+ s.env :=
  he ▸ List.suffix_cons x rest

theorem suffix_of_waits {s : State} {e : List EnvEvent} (h : waits s e) : e <:+ s.env := by
  rcases h with h | ⟨rfl, -⟩
  · exact suffix_of_env_cons h
  · exact List.suffix_refl _

theorem passInput_env_suffix (s : State) : s.passInput.env <:+ s.env := by
  unfold State.passInput
  split
  · next he => exact suffix_of_env_cons he
  · next he => exact suffix_of_env_cons he
  · exact List.suffix_refl _

/-- REQ_WAIT waits on, discards, or accepts a frame and goes to DETACH, or ends in FATAL (R132). -/
theorem phaseReqWait_noMoreSends {s t : State} (hph : s.phase = 6) (h : exec .phaseReqWait s = .next t) :
    NoMoreSends s t := by
  have hsends := sendCount_append_issued (c := .receive s.gwHandle s.cfg.rxMax) (by simp [commandOp]) s
  obtain ⟨-, ⟨bs, rest, he, -, h⟩ | ⟨rest, he, rfl⟩ | ⟨e, hw, rfl⟩⟩ := receive_next h
  · have hcount := (awaitReplyRx_onlyRecords h).sendCount_eq.trans hsends
    have henv : rest <:+ s.env := suffix_of_env_cons he
    rcases awaitReplyRx_next h with ⟨r, rfl⟩ | ⟨-, -, rfl⟩
    · exact ⟨.inl hph, hcount, henv⟩
    · exact ⟨.inr (.inl rfl), hcount, henv⟩
  · exact ⟨.inr (.inr (.inr rfl)), (onlyRecords_raiseFatal _ _).sendCount_eq.trans hsends, suffix_of_env_cons he⟩
  · exact ⟨.inl hph, hsends, suffix_of_waits hw⟩

/-- DETACH waits on, or goes to DONE (R109). -/
theorem phaseDetach_noMoreSends {s t : State} (hph : s.phase = 7) (h : exec .phaseDetach s = .next t) :
    NoMoreSends s t := by
  have hsends := sendCount_append_issued (c := .detach s.gwHandle) (by simp [commandOp]) s
  obtain ⟨-, ⟨r, rest, he, h⟩ | ⟨e, hw, rfl⟩⟩ := detach_next h
  · cases h
    exact ⟨.inr (.inr (.inl rfl)), hsends, suffix_of_env_cons he⟩
  · exact ⟨.inr (.inl hph), hsends, suffix_of_waits hw⟩

/-- An input that passes without effect puts nothing out and keeps the phase (R136, R140). -/
theorem passInput_noMoreSends {s : State} (hph : requestSent s) : NoMoreSends s s.passInput := by
  have hphase : s.passInput.phase = s.phase := changes_passInput s .phase (by decide)
  have htrace : s.passInput.trace = s.trace := changes_passInput s .trace (by decide)
  exact ⟨by rwa [requestSent, hphase], by rw [htrace], passInput_env_suffix s⟩

/-- While reset is not asserted, a step after the request's SEND puts out no further one (R128, log 7, log 8). -/
theorem step_noMoreSends {s t : State} (hph : requestSent s) (hno : noResetAsserted s.env = true)
    (h : step s = .next t) : NoMoreSends s t := by
  rcases env_cases s with ⟨rest, he⟩ | ⟨rest, he⟩ | ⟨p, rest, he⟩ | hturn
  · simp [noResetAsserted, he] at hno
  · have hne : s.phase ≠ 0 := by rcases hph with hph | hph | hph | hph <;> simp [hph]
    rw [step_release s he, if_neg hne] at h
    cases h
    exact ⟨hph, rfl, suffix_of_env_cons he⟩
  · rw [step_setParams s he] at h
    cases h
    exact ⟨hph, rfl, suffix_of_env_cons he⟩
  · rcases id hph with h6 | h7 | h8 | h9
    · rw [step_phase s hturn .reqWait h6] at h
      exact phaseReqWait_noMoreSends h6 h
    · rw [step_phase s hturn .detach h7] at h
      exact phaseDetach_noMoreSends h7 h
    · rw [step_phase s hturn .done h8] at h
      cases h
      exact passInput_noMoreSends hph
    · rw [step_phase s hturn .fatal h9] at h
      cases h
      exact passInput_noMoreSends hph

/-- A run that has a next state is a step and the rest of the run. -/
theorem run_succ_next {n : Nat} {s t : State} (h : run (n + 1) s = .next t) :
    ∃ u, step s = .next u ∧ run n u = .next t := by
  rw [run_succ] at h
  cases hs : step s with
  | next u => exact ⟨u, rfl, by rwa [hs] at h⟩
  | fault f => simp [hs] at h
  | refused r => simp [hs] at h

/-- While reset is not asserted, no run after the request's SEND puts out a further one (R128): by induction on its
steps. -/
theorem run_noMoreSends {n : Nat} {s t : State} (hph : requestSent s) (hno : noResetAsserted s.env = true)
    (h : run n s = .next t) : NoMoreSends s t := by
  induction n generalizing s with
  | zero =>
    cases h
    exact ⟨hph, rfl, List.suffix_refl _⟩
  | succ n ih =>
    obtain ⟨u, hstep, hrun⟩ := run_succ_next h
    have hu := step_noMoreSends hph hno hstep
    have ht := ih hu.phase (noResetAsserted_of_suffix hu.env hno) hrun
    exact ⟨ht.phase, ht.sends.trans hu.sends, ht.env.trans hu.env⟩

/-- Settles O34: the SEND of REQ_SEND, and none in the phases after it. -/
theorem requestIsSentOncePerReset : Obligations.RequestIsSentOncePerReset := by
  refine ⟨fun s t hph hturn h => ?first, fun n s t hph hno h => ?after⟩
  case first =>
    rw [step_phase s hturn .reqSend hph] at h
    obtain ⟨hsends, hend⟩ := phaseReqSend_sends h
    exact ⟨hsends, by rwa [hph] at hend⟩
  case after =>
    have hlater := run_noMoreSends hph hno h
    exact ⟨hlater.phase, hlater.sends⟩

/-! ### From REQ_SEND to DONE -/

/-- In a run, what is pending in REQ_SEND is its SEND (R36). -/
theorem Inv.pending_reqSend {s : State} (hi : Inv s) (hph : s.phase = 5) :
    s.pending = none ∨ ∃ h bs, s.pending = some (.send h bs) := by
  obtain ⟨-, -, -, hpending, -⟩ := hi
  cases hp : s.pending with
  | none => exact .inl rfl
  | some c =>
    have hop := phaseOp_of_pendingFits (p := .reqSend) hph (hpending c hp)
    cases c with
    | send h bs => exact .inr ⟨h, bs, rfl⟩
    | _ => simp [phaseOp, commandOp] at hop

/-- An OK for the SEND leads to REQ_WAIT, whether the SEND was put out in this step or before (R129, log 6). -/
theorem step_reqSend_ok {s : State} {rest : List EnvEvent} (hi : Inv s) (hph : s.phase = 5)
    (he : s.env = .answer (.ok .empty) :: rest) :
    ∃ x m, step s = .next { s with
      env := rest, pending := none, phase := 6, tx := x, txBuf := m,
      trace := s.trace ++ if s.pending = none then requestOutputs s else [] } := by
  obtain ⟨⟨-, htx, -⟩, -⟩ := id hi
  rw [step_answer he (p := .reqSend) hph, phaseInstr]
  rcases hi.pending_reqSend hph with hp | ⟨h, bs, hp⟩
  · refine ⟨(sendingRequest s).tx, (sendingRequest s).txBuf, ?_⟩
    rw [exec_phaseReqSend_idle htx hp, endRequest_ok ((sendingRequest_env s).trans he), if_pos hp]
    rfl
  · refine ⟨s.tx, s.txBuf, ?_⟩
    rw [exec_phaseReqSend_waiting hp, endRequest_ok he, if_neg (by simp [hp]), List.append_nil]

/-- The requester in DONE with frame `f`, received as `bs`, in `RESULT`, from a state in REQ_WAIT (R132, R134, R135,
R109). -/
def resultReached (s : State) (bs : List Byte) (f : Frame) (rest : List EnvEvent) : State :=
  { s with
    env := rest, rxLen := bs.length, rxBuf := setBytes s.rxBuf 0 bs, result := f, resultValid := true,
    exitStatus := 0, phase := 8, pending := none
    trace := s.trace ++
      [.command (.receive s.gwHandle s.cfg.rxMax), .diag ⟨.reqRx, 0, .frame f⟩, .command (.detach s.gwHandle)] }

/-- With nothing pending, a command may be called. -/
theorem callable_of_none {s : State} (hp : s.pending = none) (c : Command) : callable c s :=
  (callable_iff c s).2 (.inl hp)

/-- A matching ARP sequence and any answer to DETACH: the requester is in DONE, two steps later (R132, R109). -/
theorem run_match {s : State} {bs : List Byte} {f : Frame} {r : Response} {rest : List EnvEvent}
    (hm : s.rxBuf.wf = true) (hph : s.phase = 6) (hp : s.pending = none) (hl : bs.length ≤ s.cfg.rxMax)
    (hclass : classOfBytes bs = .arp) (hf : f = frameOfBytes bs) (hmatch : reqAcceptOf s.cfg f = .matched)
    (he : s.env = .answer (.ok (.bytes bs)) :: .answer r :: rest) :
    run 2 s = .next (resultReached s bs f rest) := by
  have hwait : step s = .next ((afterRx s (.answer r :: rest) bs).acceptResult f) := by
    rw [step_answer he (p := .reqWait) hph, phaseInstr, exec_phaseReqWait_ok (callable_of_none hp _) he hl,
      awaitReplyRx_afterRx_arp hm hclass, ← hf, hmatch]
  have hdetach : step ((afterRx s (.answer r :: rest) bs).acceptResult f) = .next (resultReached s bs f rest) := by
    rw [step_answer rfl (p := .detach) rfl, phaseInstr,
      (detachEndsWhateverTheAnswer _ r rest (callable_of_none rfl _) rfl).2]
    simp [State.acceptResult, State.emitReqRx, State.emitDiag, State.emit, State.setPhase, afterRx, issued,
      hp, resultReached]
  rw [run_succ_of_next hwait, run_succ_of_next hdetach, run_zero]

/-- Settles O35: the SEND's answer leads to REQ_WAIT, and the match from there to DONE. -/
theorem requesterEndsWithTheFirstMatch : Obligations.RequesterEndsWithTheFirstMatch := by
  intro s bs f r rest hi hph hl h42 harp hf hmatch he
  obtain ⟨x, m, hsend⟩ := step_reqSend_ok hi hph he
  have haccept : reqAcceptOf s.cfg f = .matched :=
    reqAcceptOf_matched.2 ((Bool.eq_false_or_eq_true s.cfg.reqMatch).symm.imp_right hmatch)
  have herr := (hi.no_error (by simp [hph])).1
  obtain ⟨⟨hrx, -⟩, -, ⟨-, hmode, hcount, -⟩, -⟩ := hi
  exact ⟨_, (run_succ_of_next hsend).trans (run_match hrx rfl rfl hl ((classOfBytes_eq_arp bs).2 ⟨h42, harp⟩)
    ((holdsFrame_iff bs h42 f).1 hf) haccept rfl), rfl, rfl, herr, rfl, rfl, hcount (hmode (.inl hph)), rfl, rfl⟩

end Sys2Proof.Machine
end

section
/-! Fatal entry and the two terminal phases, which only reset leaves (O42, O39), and discard (O40). -/

namespace Sys2Proof.Machine

/-! ### DONE and FATAL -/

/-- An input that passes changes no register and puts nothing out (log 8). -/
theorem passInput_eq (s : State) : s.passInput = { s with env := s.passInput.env } := by
  unfold State.passInput
  split
  · rfl
  · rfl
  · rfl

/-- While reset is not asserted, a step in DONE or FATAL moves on the inputs only: an edge is taken, or an input passes
(R136, R140, log 7, log 8). -/
theorem step_terminal {s : State} (hph : s.phase = 8 ∨ s.phase = 9) (hno : noResetAsserted s.env = true) :
    ∃ e p, step s = .next { s with env := e, pins := p } ∧ e <:+ s.env := by
  rcases env_cases s with ⟨rest, he⟩ | ⟨rest, he⟩ | ⟨p, rest, he⟩ | hturn
  · simp [noResetAsserted, he] at hno
  · have hne : s.phase ≠ 0 := by rcases hph with hph | hph <;> simp [hph]
    rw [step_release s he, if_neg hne]
    exact ⟨rest, s.pins, rfl, suffix_of_env_cons he⟩
  · exact ⟨rest, p, step_setParams s he, suffix_of_env_cons he⟩
  · have hpass : step s = .next s.passInput := by
      rcases hph with hph | hph
      · exact step_phase s hturn .done hph
      · exact step_phase s hturn .fatal hph
    exact ⟨_, s.pins, hpass.trans (congrArg _ (passInput_eq s)), passInput_env_suffix s⟩

/-- Settles O42: by induction on the steps, each of which moves on the inputs only. -/
theorem terminalPhasesLastUntilReset : Obligations.TerminalPhasesLastUntilReset := by
  intro n s hph hno
  induction n generalizing s with
  | zero => exact ⟨s.env, s.pins, rfl⟩
  | succ n ih =>
    obtain ⟨e, p, hstep, hsuffix⟩ := step_terminal hph hno
    rw [run_succ_of_next hstep]
    exact ih { s with env := e, pins := p } hph (noResetAsserted_of_suffix hsuffix hno)

/-! ### Fatal entry and discard -/

/-- Settles O39: the row is `raiseFatal` with its code, and FATAL is one of the terminal phases. -/
theorem fatalEntryReportsOnce : Obligations.FatalEntryReportsOnce := by
  have hentry (s : State) (c : FatalCode) : exec (.fatal c) s = .next { s with
      errCode := fatalCode c, exitStatus := 1, trace := s.trace ++ [errorRecord (fatalCode c)], phase := 9 } :=
    congrArg Host.Outcome.next (raiseFatal_eq s c)
  exact ⟨fun s => ⟨hentry s .attachFail, hentry s .queryFail, hentry s .sendFail, hentry s .recvFail⟩,
    fun t n hph hno => terminalPhasesLastUntilReset n t (.inr hph) hno⟩

/-- With nothing pending and no input, a phase that waits for a frame puts out its RECEIVE and waits (R101, log 6). -/
theorem step_newReceive {s : State} (hph : s.phase = 3 ∨ s.phase = 6) (hp : s.pending = none) (he : s.env = []) :
    step s = .next { s with
      trace := s.trace ++ [.command (.receive s.gwHandle s.cfg.rxMax)]
      pending := some (.receive s.gwHandle s.cfg.rxMax) } := by
  have hturn : engineTurn s = true := by rw [engineTurn, he]
  have hended := receiveRx_unanswered (callable_of_none hp _) (unanswered_of_nil he)
  simp only [calling, issued, awaited, hp, afterQuiet_of_nil he] at hended
  rcases hph with hph | hph
  · rw [step_phase s hturn .respListen hph]
    exact andThen_of_ended hended _
  · rw [step_phase s hturn .reqWait hph]
    exact andThen_of_ended hended _

/-- Settles O40: the row sets the label only, and the phase, which it keeps, puts out a new RECEIVE. -/
theorem discardChangesNothingAndListensAgain : Obligations.DiscardChangesNothingAndListensAgain :=
  fun s r => ⟨some r, rfl, fun hph hp he => step_newReceive (s := s.discard r) hph hp he⟩

end Sys2Proof.Machine
end

section
/-! Reset and the input edges: the assertion and the release of reset (O44, O45), the other edges (O50), the way from
release to the chosen engine (O48), and that the parameter inputs are read at the release only (O47). -/

namespace Sys2Proof.Machine

/-! ### The edges -/

/-- While reset is held, a step that takes no edge is the row PHASE_RESET (R160). -/
theorem step_reset {s : State} (hturn : engineTurn s = true) (hph : s.phase = 0) : step s = exec .phaseReset s :=
  step_phase s hturn .reset hph

/-- Settles O44: the assertion clears the registers, and a step in RESET is that of an idle phase. -/
theorem resetAssertionAbandonsEverything : Obligations.ResetAssertionAbandonsEverything := by
  refine fun s rest => ⟨fun he => ?asserted, fun hph => ?held⟩
  case asserted => exact ⟨_, step_assertReset s he, rfl, rfl, rfl, rfl, rfl, rfl, rfl, rfl⟩
  case held =>
    obtain ⟨hnone, hanswer, hquiet⟩ := idlePhasesPerformNothing s .phaseReset (by simp)
    exact ⟨fun he => (step_reset (by rw [engineTurn, he]) hph).trans (hnone he),
      fun r he => (step_reset (by rw [engineTurn, he]) hph).trans (hanswer r rest he),
      fun he => (step_reset (by rw [engineTurn, he]) hph).trans (hquiet rest he)⟩

/-- Settles O45: R167's test decides between the refusal and the capture, and the release in RESET is this row. -/
theorem resetReleaseCapturesParameters : Obligations.ResetReleaseCapturesParameters := by
  refine fun s => ⟨fun hmax => ?captured, fun hmax => if_pos hmax, fun rest hph he => ?step⟩
  case captured => exact ⟨_, if_neg (Nat.not_lt.2 hmax), rfl, rfl, rfl, rfl, rfl, rfl, rfl, rfl, rfl, rfl⟩
  case step => exact (step_release s he).trans (if_pos hph)

/-- Settles O50: a parameter change comes before any phase rule, and a release outside RESET selects no operation. -/
theorem inputEdgesAreStepsOfTheirOwn : Obligations.InputEdgesAreStepsOfTheirOwn := fun s _ =>
  ⟨fun _ he => step_setParams s he, fun hph he => (step_release s he).trans (if_neg hph)⟩

/-! ### From release to the engine -/

/-- Settles O48: the first answer latches the handle and leads to QUERY, where nothing is pending, and the second
stores the address and selects the engine. -/
theorem bootReachesTheChosenEngine : Obligations.BootReachesTheChosenEngine := by
  intro s h a rest hph hc he
  obtain ⟨-, hlatch⟩ := (attachLatchesHandleOrFails s _ hc).1 h he
  have hattach := (step_answer he (p := .attach) hph).trans hlatch
  rw [run_succ_of_next hattach]
  refine (run_succ_of_next ((step_answer rfl (p := .query) rfl).trans ?_)).trans (run_zero _)
  exact ((queryStoresAddressAndSelectsEngine _ rest (callable_of_none rfl _)).1 a rfl).2

/-! ### The parameter inputs -/

/-- The state with other values on the parameter inputs (R164). -/
def withPins (p : Params) (s : State) : State := { s with pins := p }

/-- What an operation answers, with other values on the parameter inputs of its next state. -/
def outcomeWithPins (p : Params) : Outcome → Outcome
  | .next t => .next (withPins p t)
  | .fault f => .fault f
  | .refused r => .refused r

/-- A reply with other values on the parameter inputs of its state. -/
def Reply.withPins (p : Params) : Reply → Reply
  | .answered r s => .answered r (Machine.withPins p s)
  | .suspended s => .suspended (Machine.withPins p s)
  | .busy => .busy

/-- A part of a rule with other values on the parameter inputs of its state. -/
def Flow.withPins (p : Params) : Flow → Flow
  | .go s => .go (Machine.withPins p s)
  | .ended s => .ended (Machine.withPins p s)
  | .fault f => .fault f
  | .refused r => .refused r

/-- The operation neither reads nor writes the parameter inputs. -/
def IgnoresPins (k : State → Outcome) : Prop := ∀ p s, k (withPins p s) = outcomeWithPins p (k s)

/-- The part of a rule neither reads nor writes the parameter inputs. -/
def FlowIgnoresPins (w : State → Flow) : Prop := ∀ p s, w (withPins p s) = (w s).withPins p

/-- A rule ignores the parameter inputs when its first part and its rest do. -/
theorem FlowIgnoresPins.andThen {w : State → Flow} {k : State → Outcome} (hw : FlowIgnoresPins w)
    (hk : IgnoresPins k) : IgnoresPins fun s => (w s).andThen k := by
  intro p s
  dsimp only
  rw [hw p s]
  cases w s with
  | go u => exact hk p u
  | ended => rfl
  | fault => rfl
  | refused => rfl

/-- A part of a rule after an update that commutes with the parameter inputs. -/
theorem FlowIgnoresPins.after_update {w : State → Flow} (hw : FlowIgnoresPins w) {f : State → State}
    (h : ∀ p s, f (withPins p s) = withPins p (f s)) : FlowIgnoresPins fun s => w (f s) :=
  fun p s => (congrArg w (h p s)).trans (hw p (f s))

/-- An update that commutes with the parameter inputs ignores them as an operation. -/
theorem IgnoresPins.of_update {f : State → State} (h : ∀ p s, f (withPins p s) = withPins p (f s)) :
    IgnoresPins fun s => .next (f s) :=
  fun p s => congrArg Host.Outcome.next (h p s)

section Updates

variable (p : Params) (s : State)

@[simp] theorem withPins_cfg : (withPins p s).cfg = s.cfg := rfl
@[simp] theorem withPins_gwHandle : (withPins p s).gwHandle = s.gwHandle := rfl
@[simp] theorem withPins_phase : (withPins p s).phase = s.phase := rfl
@[simp] theorem withPins_pending : (withPins p s).pending = s.pending := rfl
@[simp] theorem withPins_env : (withPins p s).env = s.env := rfl
@[simp] theorem received_withPins : received (withPins p s) = received s := rfl

theorem passInput_withPins : (withPins p s).passInput = withPins p s.passInput := by
  unfold State.passInput
  rw [withPins_env]
  split <;> rfl

theorem selectEngine_withPins : (withPins p s).selectEngine = withPins p s.selectEngine := by
  rw [selectEngine_eq, selectEngine_eq]
  rfl

theorem encodedTx_withPins : encodedTx (withPins p s) = withPins p (encodedTx s) := by
  cases hp : s.pending with
  | none =>
    rw [encodedTx_of_none hp, encodedTx_of_none (s := withPins p s) hp]
    simp only [withPins]
  | some c => rw [encodedTx_of_some hp, encodedTx_of_some (s := withPins p s) hp]

theorem renderExchange_withPins : (withPins p s).renderExchange = withPins p s.renderExchange := by
  unfold State.renderExchange
  rw [withPins_pending]
  split <;> rfl

theorem renderRequest_withPins : (withPins p s).renderRequest = withPins p s.renderRequest := by
  unfold State.renderRequest
  rw [withPins_pending]
  split <;> rfl

theorem awaitAnswer_withPins : awaitAnswer (withPins p s) = (awaitAnswer s).withPins p := by
  rcases unanswered_or_answer s with hno | ⟨r, rest, he⟩
  · rw [awaitAnswer_unanswered hno, awaitAnswer_unanswered (s := withPins p s) hno]
    rfl
  · rw [awaitAnswer_answer he, awaitAnswer_answer (s := withPins p s) he]
    rfl

theorem gwCall_withPins (c : Command) : gwCall c (withPins p s) = (gwCall c s).withPins p := by
  unfold gwCall
  rw [withPins_pending]
  cases s.pending with
  | none => exact awaitAnswer_withPins p (s.issue c)
  | some c' =>
    dsimp only
    split
    · exact awaitAnswer_withPins p s
    · rfl

end Updates

/-! Each command is called with arguments that are no parameter inputs, and what follows depends on its reply. -/

theorem attachGw_ignoresPins : FlowIgnoresPins attachGw := by
  intro p s
  simp only [attachGw, gwCall_withPins, withPins_cfg]
  cases gwCall (.attach s.cfg.devName) s with
  | answered r u =>
    cases r with
    | fail => rfl
    | ok v => cases v <;> rfl
  | suspended u => rfl
  | busy => rfl

theorem queryMacGw_ignoresPins : FlowIgnoresPins queryMacGw := by
  intro p s
  simp only [queryMacGw, gwCall_withPins, withPins_gwHandle]
  cases gwCall (.queryMac s.gwHandle) s with
  | answered r u =>
    cases r with
    | fail => rfl
    | ok v => cases v <;> rfl
  | suspended u => rfl
  | busy => rfl

theorem ofSendReply_withPins (p : Params) (w : Reply) :
    ofSendReply (w.withPins p) = (ofSendReply w).withPins p := by
  cases w with
  | answered r u =>
    cases r with
    | fail => rfl
    | ok v => cases v <;> rfl
  | suspended u => rfl
  | busy => rfl

theorem sendTx_ignoresPins : FlowIgnoresPins sendTx := by
  intro p s
  rw [sendTx_eq_reply, sendTx_eq_reply, encodedTx_withPins, gwCall_withPins, ofSendReply_withPins]
  rfl

theorem receiveRx_ignoresPins : FlowIgnoresPins receiveRx := by
  intro p s
  simp only [receiveRx, gwCall_withPins, withPins_gwHandle, withPins_cfg]
  cases gwCall (.receive s.gwHandle s.cfg.rxMax) s with
  | answered r u =>
    cases r with
    | fail => rfl
    | ok v =>
      cases v with
      | bytes bs =>
        exact (apply_ite (Flow.withPins p) (u.cfg.rxMax < bs.length) (.refused .answerTooLong)
          (.go (u.deliver bs))).symm
      | _ => rfl
  | suspended u => rfl
  | busy => rfl

theorem detachGw_ignoresPins : FlowIgnoresPins detachGw := by
  intro p s
  simp only [detachGw, gwCall_withPins, withPins_gwHandle]
  cases gwCall (.detach s.gwHandle) s with
  | answered r u => rfl
  | suspended u => rfl
  | busy => rfl

theorem respondToRx_ignoresPins : IgnoresPins respondToRx := by
  intro p s
  rw [respondToRx_eq, respondToRx_eq, received_withPins, withPins_cfg]
  cases classOfBytes (received s) with
  | truncated => rfl
  | notArp => rfl
  | arp => cases respFilterOf s.cfg (frameOfBytes (received s)) <;> rfl

theorem awaitReplyRx_ignoresPins : IgnoresPins awaitReplyRx := by
  intro p s
  rw [awaitReplyRx_eq, awaitReplyRx_eq, received_withPins, withPins_cfg]
  cases classOfBytes (received s) with
  | truncated => rfl
  | notArp => rfl
  | arp => cases reqAcceptOf s.cfg (frameOfBytes (received s)) <;> rfl

/-- No phase reads the parameter inputs (R26, R164). -/
theorem phaseInstr_ignoresPins (q : Phase) : IgnoresPins (exec (phaseInstr q)) := by
  have hpass : IgnoresPins fun s => .next s.passInput := .of_update passInput_withPins
  cases q with
  | reset => exact hpass
  | attach => exact attachGw_ignoresPins.andThen fun _ _ => rfl
  | query => exact queryMacGw_ignoresPins.andThen (.of_update selectEngine_withPins)
  | respListen => exact receiveRx_ignoresPins.andThen respondToRx_ignoresPins
  | respSend => exact (sendTx_ignoresPins.after_update renderExchange_withPins).andThen fun _ _ => rfl
  | reqSend => exact (sendTx_ignoresPins.after_update renderRequest_withPins).andThen fun _ _ => rfl
  | reqWait => exact receiveRx_ignoresPins.andThen awaitReplyRx_ignoresPins
  | detach => exact detachGw_ignoresPins.andThen fun _ _ => rfl
  | done => exact hpass
  | fatal => exact hpass

/-- A step that is no release and no parameter change ignores the parameter inputs. -/
theorem step_withPins {s : State} (h : engineTurn s = true ∨ ∃ rest, s.env = .assertReset :: rest) (p : Params) :
    step (withPins p s) = outcomeWithPins p (step s) := by
  rcases h with hturn | ⟨rest, he⟩
  · rw [step_engine s hturn, step_engine (withPins p s) hturn, fetch_eq, fetch_eq, withPins_phase]
    cases phaseOfCode s.phase with
    | none => rfl
    | some q => exact phaseInstr_ignoresPins q p s
  · rw [step_assertReset s he, step_assertReset (withPins p s) he]
    rfl

/-- Settles O47: the outcome of the step is the same but for the inputs of its next state. -/
theorem parametersAreSampledOnlyAtRelease : Obligations.ParametersAreSampledOnlyAtRelease := by
  intro s p h
  have hstep := step_withPins h p
  exact ⟨fun t ht => hstep.trans (congrArg (outcomeWithPins p) ht),
    fun f hf => hstep.trans (congrArg (outcomeWithPins p) hf),
    fun r hr => hstep.trans (congrArg (outcomeWithPins p) hr)⟩

end Sys2Proof.Machine
end
